-- ==== Sys2Proof/Word.lean ====
section
/-! DEFINITION. The words of the block: the bit-vector types of bytes, host-port words, host-port
addresses and big-integer registers (spec/00_scope.md R8, R12, R13). -/

namespace Sys2Proof

/-- A byte: an unsigned integer in [0, 255] (R13); also one character of a string (R27). -/
abbrev Byte := BitVec 8

/-- A host-port word and a command word: `XLEN` = 32 bits (R8). -/
abbrev Word := BitVec 32

/-- A host-port byte address: `ALEN` = 16 bits (R8). -/
abbrev Addr := BitVec 16

/-- The contents of a big-integer register: `W` = 256 bits, unsigned (R8, R21). -/
abbrev Big := BitVec 256

end Sys2Proof
end

