-- ==== Sys2Proof/Config.lean ====
section
/-! DEFINITION. What is fixed for the machine: the curve constants (spec/10_state.md R30), the sizes
of R8, the model arguments of R8 and R9 as named fields (Parameters, and Configuration for those that
reset latches, R10, R33, R34), and the values the spec leaves open (spec/70_reset_and_hazards.md R351,
spec/93_implementation_defined.md U5). -/

namespace Sys2Proof

namespace Config

/-! ## Curve constants (R30) -/

/-- The field prime `P` (R30). -/
def P : Nat := 0xFFFFFFFFFFFFFFFFFFFFFFFFFFFFFFFFFFFFFFFFFFFFFFFFFFFFFFFEFFFFFC2F

/-- The curve coefficient `A` (R7, R30). -/
def A : Nat := 0

/-- The curve coefficient `B` (R7, R30). -/
def B : Nat := 7

/-- The x coordinate of the generator point (R30). -/
def GX : Nat := 0x79BE667EF9DCBBAC55A06295CE870B07029BFCDB2DCE28D959F2815B16F81798

/-- The y coordinate of the generator point (R30). -/
def GY : Nat := 0x483ADA7726A3C4655DA4FBFC0E1108A8FD17B448A68554199C47D08FFB10D4B8

/-- The group order `N` (R30). -/
def N : Nat := 0xFFFFFFFFFFFFFFFFFFFFFFFFFFFFFFFEBAAEDCE6AF48A03BBFD25E8CD0364141

/-- The cofactor `H` (R30). -/
def H : Nat := 1

/-! ## Sizes (R8) -/

/-- The bytes of a buffer's `DATA` window in the address map: "64 words, 256 bytes" (R64). -/
def bufBytes : Nat := 256

/-- The capacity of a byte buffer (`LMAX`) at the value this hardware takes (R8). The machine of any other
value is `Parameters.lmax`. -/
def lmax : Nat := 256

/-- How many counter values the rejection sampler tries (`SAMPLE_ITERS`, R8, R192). -/
def sampleIters : Nat := 2 ^ 32

end Config

/-! ## Hash functions (R9) -/

/-- The two hash functions of the block as model arguments: pure total functions on byte sequences
of which only the output length may be assumed (R9, R290). -/
structure HashFunctions where
  /-- `SHA256 : bytes -> 32 bytes`. -/
  sha256 : List Byte → List Byte
  /-- `SHA512 : bytes -> 64 bytes`. -/
  sha512 : List Byte → List Byte
  /-- The stated output length of `SHA256`. -/
  sha256_length : ∀ m, (sha256 m).length = 32
  /-- The stated output length of `SHA512`. -/
  sha512_length : ∀ m, (sha512 m).length = 64

/-! ## The fixed model arguments (R8, R9, 92_eei_decisions.md section 4) -/

/-- The model arguments that are fixed for a block: `SHA256`, `SHA512` and `LMAX` (R8, R9). A claim
quantifies over them by quantifying over this record; `hardware` in Machine/Hash.lean has the values of
R8. The other model arguments, which reset latches, are the fields of `Configuration`. -/
structure Parameters extends HashFunctions where
  /-- `LMAX`, the capacity in bytes of a byte buffer. The data words of the map past it stay host storage
  that no command uses: DESIGN CHOICE (log entry 14). -/
  lmax : Nat
  /-- "must be at least 64, the longest output of HFIN" (R8). -/
  lmax_ge : 64 ≤ lmax
  /-- "the address map of D4 assumes at most 256" (92_eei_decisions.md section 4). -/
  lmax_le : lmax ≤ Config.bufBytes

/-! ## The configuration inputs (R10, R33, R34) -/

/-- The values on the configuration inputs that reset latches (R352). The 58 octets of the alphabet
are pairwise distinct, and R10 asks that the model's configuration type carry that as a proof
field, so a configuration outside the spec (93_implementation_defined.md U6) cannot be written. -/
structure Configuration where
  /-- `ALPHABET[0]` .. `ALPHABET[57]` (R33). -/
  alphabet : Vector Byte 58
  /-- The 58 characters are distinct (R10, R33). -/
  distinct : alphabet.toList.Nodup
  /-- `SEED_VERSION` (R34). -/
  seedVersion : Byte
  /-- `ACCOUNT_VERSION` (R34). -/
  accountVersion : Byte
deriving DecidableEq, Repr

namespace Config

/-- The default alphabet, as the octets R33 prints. -/
def swtcAlphabet : Vector Byte 58 := #v[
  0x6A, 0x70, 0x73, 0x68, 0x6E, 0x61, 0x66, 0x33, 0x39, 0x77, 0x42, 0x55, 0x44, 0x4E, 0x45,
  0x47, 0x48, 0x4A, 0x4B, 0x4C, 0x4D, 0x34, 0x50, 0x51, 0x52, 0x53, 0x54, 0x37, 0x56, 0x57,
  0x58, 0x59, 0x5A, 0x32, 0x62, 0x63, 0x64, 0x65, 0x43, 0x67, 0x36, 0x35, 0x72, 0x6B, 0x6D,
  0x38, 0x6F, 0x46, 0x71, 0x69, 0x31, 0x74, 0x75, 0x76, 0x41, 0x78, 0x79, 0x7A]

/-- The default configuration: the SWTC alphabet and the version bytes 33 and 0 (R33, R34). -/
def swtc : Configuration where
  alphabet := swtcAlphabet
  distinct := by decide
  seedVersion := 33
  accountVersion := 0

end Config

/-! ## Port responses and the open values -/

/-- What the host port answers to a transaction (R61): the value of a read, the completion of a
write, or `BusError`. -/
inductive Response where
  | data (v : Word)
  | ok
  | busError
deriving DecidableEq, Repr

/-- The response, if any, that the host receives for its `k`-th transaction lost to a reset while
the port held it: "its response is not defined" (R351, U9). A FREE VALUE: it has no body, so
nothing can be proved of it (log entry 6). -/
opaque Config.lostResponse (k : Nat) : Option Response

/-- The SHA-512 digest of a message of 2^128 bits or more, which SHA-512 does not accept and for which no
rule gives a value (93_implementation_defined.md U5). A FREE VALUE (log entry 23). -/
opaque Config.overlongSha512 (m : List Byte) : Vector Byte 64

/-- The SHA-256 digest of a message of 2^64 bits or more; no command hashes one. A FREE VALUE (log entry
23). -/
opaque Config.overlongSha256 (m : List Byte) : Vector Byte 32

end Sys2Proof
end

