-- ==== Sys2Proof/Syntax.lean ====
section
/-! DEFINITION. The commands of the block, one constructor for each row of spec/opcode_table.json
(spec/30_encoding.md R96), and the transactions and events of the host port (spec/20_memory.md
R61, spec/70_reset_and_hazards.md R350). -/

namespace Sys2Proof

/-- The index of a big-integer register `n0`..`n7` (R21, R92). -/
abbrev NReg := Fin 8

/-- The index of a point register `q0`..`q3` (R23, R92). -/
abbrev QReg := Fin 4

/-- The index of a byte buffer `b0`..`b3` (R25, R92). -/
abbrev BReg := Fin 4

/-- The modulus select `ms` of the modular commands (R93 a, R121). -/
inductive ModSelect where
  /-- `ms` = 0: the field prime `P`. -/
  | primeP
  /-- `ms` = 1: the group order `N`. -/
  | orderN
  /-- `ms` = 2: the value of the n-register that the field `m` names. -/
  | register
deriving DecidableEq, Repr

/-- The truncation select `tr` of HFIN (R93 b, R175). -/
inductive TruncSelect where
  /-- `tr` = 0: the whole digest, 64 bytes. -/
  | whole64
  /-- `tr` = 1: the first 32 bytes. -/
  | first32
  /-- `tr` = 2: the first 16 bytes. -/
  | first16
deriving DecidableEq, Repr

/-- The complete command set: 17 commands (R96). Operands stand in the order of the fields
`d a b m imm` of the command word, a modular command's `ms` before its `m` as in
`Modulus(ms, m)` (R121). -/
inductive Instr where
  /-- MODADD `nd, na, nb, mod` (R123). -/
  | modadd (d a b : NReg) (ms : ModSelect) (m : NReg)
  /-- MODMUL `nd, na, nb, mod` (R124). -/
  | modmul (d a b : NReg) (ms : ModSelect) (m : NReg)
  /-- MODRED `nd, na, mod` (R125). -/
  | modred (d a : NReg) (ms : ModSelect) (m : NReg)
  /-- MODINV `nd, na, mod` (R126). -/
  | modinv (d a : NReg) (ms : ModSelect) (m : NReg)
  /-- PDBL `qd, qa` (R145). -/
  | pdbl (d a : QReg)
  /-- PADD `qd, qa, qb` (R146). -/
  | padd (d a b : QReg)
  /-- SMULG `qd, ns` (R148). -/
  | smulg (d : QReg) (a : NReg)
  /-- COMPRESS `bd, qa` (R152). -/
  | compress (d : BReg) (a : QReg)
  /-- HRESET (R172). -/
  | hreset
  /-- HADD `bs` (R173). -/
  | hadd (a : BReg)
  /-- HADD32 `ns` (R174). -/
  | hadd32 (a : NReg)
  /-- HFIN `bd, t` (R175). -/
  | hfin (d : BReg) (tr : TruncSelect)
  /-- SAMPLE `nd, bs` (R193). -/
  | sample (d : NReg) (a : BReg)
  /-- SAMPLED `nd, bs, nc` (R194). -/
  | sampled (d : NReg) (a : BReg) (b : NReg)
  /-- B58ENC `bd, bs, ver` (R209). -/
  | b58enc (d a : BReg) (ver : Byte)
  /-- B58DEC `bd, bs, ver` (R225). -/
  | b58dec (d a : BReg) (ver : Byte)
  /-- CLR (R241). -/
  | clr
deriving DecidableEq, Repr

/-- One transaction of the host port (R61). Only aligned 32-bit accesses exist; an access of another
width, on a bus that can express one, is written `nonWord` (R62). -/
inductive Txn where
  /-- `HostRead(addr)`. -/
  | read (addr : Addr)
  /-- `HostWrite(addr, v)`. -/
  | write (addr : Addr) (v : Word)
  /-- An access whose width is not 32 bits, read or write. DESIGN CHOICE (log entry 15). -/
  | nonWord (addr : Addr)
deriving DecidableEq, Repr

/-- What the outside world does to the block in one step: the host issues a transaction, the host
waits (the block's own step then runs if it is enabled), or the reset input is asserted and
released with a configuration on the configuration inputs (R71, R350, R352). -/
inductive Event where
  | txn (t : Txn)
  | wait
  | reset (c : Configuration)
deriving DecidableEq, Repr

end Sys2Proof
end

