-- ==== Sys2Proof/WellFormed.lean ====
section
/-! DEFINITION. Which instructions have an encoding (spec/30_encoding.md R93, R94). The index ranges
of R92 are in the operand types; the one relation between fields is here. -/

namespace Sys2Proof

/-- "When `ms` is 0 or 1 the field `m` must be 0" (R93 a). -/
def ModSelect.agrees (ms : ModSelect) (m : NReg) : Bool :=
  match ms with
  | .primeP => m == 0
  | .orderN => m == 0
  | .register => true

/-- An instruction that some legal command word encodes (R94). -/
def Instr.wellFormed : Instr → Bool
  | .modadd _ _ _ ms m => ms.agrees m
  | .modmul _ _ _ ms m => ms.agrees m
  | .modred _ _ ms m => ms.agrees m
  | .modinv _ _ ms m => ms.agrees m
  | .pdbl _ _ => true
  | .padd _ _ _ => true
  | .smulg _ _ => true
  | .compress _ _ => true
  | .hreset => true
  | .hadd _ => true
  | .hadd32 _ => true
  | .hfin _ _ => true
  | .sample _ _ => true
  | .sampled _ _ _ => true
  | .b58enc _ _ _ => true
  | .b58dec _ _ _ => true
  | .clr => true

end Sys2Proof
end

