-- ==== Sys2Proof/Decode.lean ====
section
/-! DEFINITION. Decoding and encoding of the command word (spec/30_encoding.md R90 to R101). -/

namespace Sys2Proof

/-! ## Format R (R91) -/

/-- Bits 31:24, the opcode. -/
def fieldOp (w : Word) : BitVec 8 := w.extractLsb' 24 8

/-- Bits 23:20, the destination index. -/
def fieldD (w : Word) : BitVec 4 := w.extractLsb' 20 4

/-- Bits 19:16, the first source index. -/
def fieldA (w : Word) : BitVec 4 := w.extractLsb' 16 4

/-- Bits 15:12, the second source index. -/
def fieldB (w : Word) : BitVec 4 := w.extractLsb' 12 4

/-- Bits 11:8, the modulus register index. -/
def fieldM (w : Word) : BitVec 4 := w.extractLsb' 8 4

/-- Bits 7:0, the immediate. -/
def fieldImm (w : Word) : BitVec 8 := w.extractLsb' 0 8

/-- The command word with the given fields (R91). -/
def commandWord (op : BitVec 8) (d a b m : BitVec 4) (imm : BitVec 8) : Word :=
  op ++ d ++ a ++ b ++ m ++ imm

/-! ## Opcodes (R96) -/

/-- The 17 opcodes by mnemonic (R96). -/
inductive Opcode where
  | modadd | modmul | modred | modinv
  | pdbl | padd | smulg | compress
  | hreset | hadd | hadd32 | hfin
  | sample | sampled
  | b58enc | b58dec
  | clr
deriving DecidableEq, Repr

/-- The column "op" of R96. -/
def opcodeByte : Opcode → BitVec 8
  | .modadd => 0x01
  | .modmul => 0x02
  | .modred => 0x03
  | .modinv => 0x04
  | .pdbl => 0x10
  | .padd => 0x11
  | .smulg => 0x12
  | .compress => 0x13
  | .hreset => 0x20
  | .hadd => 0x21
  | .hadd32 => 0x22
  | .hfin => 0x23
  | .sample => 0x30
  | .sampled => 0x31
  | .b58enc => 0x40
  | .b58dec => 0x41
  | .clr => 0x7F

/-- The rows of R96, in the table's order. -/
def allOpcodes : List Opcode :=
  [.modadd, .modmul, .modred, .modinv, .pdbl, .padd, .smulg, .compress, .hreset, .hadd, .hadd32,
    .hfin, .sample, .sampled, .b58enc, .b58dec, .clr]

/-- The opcode that a byte is, if it is one (R94 step 1). -/
def opcodeOf (op : BitVec 8) : Option Opcode := allOpcodes.find? fun o => opcodeByte o == op

/-! ## The checks of R94 -/

/-- Why a word is illegal (R94, R97). All four lead to the same outcome, `IllegalCommand`. -/
inductive Illegal where
  /-- Step 1: the opcode is not assigned. -/
  | unknownOpcode
  /-- Step 2: a reserved field is not 0. -/
  | reservedField
  /-- Step 3: an index is outside the range of its class. -/
  | indexRange
  /-- Step 4: `ms` or `tr` is 3 or more, or `m` is not 0 with `ms` in {0, 1}. -/
  | selector
deriving DecidableEq, Repr

/-- A reserved field must be 0 (R94 step 2, R95). -/
def reserved {k : Nat} (f : BitVec k) : Except Illegal Unit :=
  if f = 0 then .ok () else .error .reservedField

/-- An n-register index must be in 0..7 (R92, R94 step 3). -/
def nIndex (f : BitVec 4) : Except Illegal NReg :=
  if h : f.toNat < 8 then .ok ⟨f.toNat, h⟩ else .error .indexRange

/-- A q-register index must be in 0..3 (R92, R94 step 3). -/
def qIndex (f : BitVec 4) : Except Illegal QReg :=
  if h : f.toNat < 4 then .ok ⟨f.toNat, h⟩ else .error .indexRange

/-- A b-buffer index must be in 0..3 (R92, R94 step 3). -/
def bIndex (f : BitVec 4) : Except Illegal BReg :=
  if h : f.toNat < 4 then .ok ⟨f.toNat, h⟩ else .error .indexRange

/-- The modulus select: 0, 1 or 2, and `m` = 0 unless it is 2 (R93 a, R94 step 4). -/
def modSelectOf (imm : BitVec 8) (m : NReg) : Except Illegal ModSelect :=
  if imm = 2 then .ok .register
  else if m ≠ 0 then .error .selector
  else if imm = 0 then .ok .primeP
  else if imm = 1 then .ok .orderN
  else .error .selector

/-- The truncation select: 0, 1 or 2 (R93 b, R94 step 4). -/
def truncSelectOf (imm : BitVec 8) : Except Illegal TruncSelect :=
  if imm = 0 then .ok .whole64
  else if imm = 1 then .ok .first32
  else if imm = 2 then .ok .first16
  else .error .selector

/-! ## Decoding (R94) -/

/-- Steps 2 to 4 of R94 for a word whose opcode is known. -/
def decodeFields (o : Opcode) (w : Word) : Except Illegal Instr :=
  match o with
  | .modadd => do
    let d ← nIndex (fieldD w)
    let a ← nIndex (fieldA w)
    let b ← nIndex (fieldB w)
    let m ← nIndex (fieldM w)
    let ms ← modSelectOf (fieldImm w) m
    .ok (.modadd d a b ms m)
  | .modmul => do
    let d ← nIndex (fieldD w)
    let a ← nIndex (fieldA w)
    let b ← nIndex (fieldB w)
    let m ← nIndex (fieldM w)
    let ms ← modSelectOf (fieldImm w) m
    .ok (.modmul d a b ms m)
  | .modred => do
    reserved (fieldB w)
    let d ← nIndex (fieldD w)
    let a ← nIndex (fieldA w)
    let m ← nIndex (fieldM w)
    let ms ← modSelectOf (fieldImm w) m
    .ok (.modred d a ms m)
  | .modinv => do
    reserved (fieldB w)
    let d ← nIndex (fieldD w)
    let a ← nIndex (fieldA w)
    let m ← nIndex (fieldM w)
    let ms ← modSelectOf (fieldImm w) m
    .ok (.modinv d a ms m)
  | .pdbl => do
    reserved (fieldB w)
    reserved (fieldM w)
    reserved (fieldImm w)
    let d ← qIndex (fieldD w)
    let a ← qIndex (fieldA w)
    .ok (.pdbl d a)
  | .padd => do
    reserved (fieldM w)
    reserved (fieldImm w)
    let d ← qIndex (fieldD w)
    let a ← qIndex (fieldA w)
    let b ← qIndex (fieldB w)
    .ok (.padd d a b)
  | .smulg => do
    reserved (fieldB w)
    reserved (fieldM w)
    reserved (fieldImm w)
    let d ← qIndex (fieldD w)
    let a ← nIndex (fieldA w)
    .ok (.smulg d a)
  | .compress => do
    reserved (fieldB w)
    reserved (fieldM w)
    reserved (fieldImm w)
    let d ← bIndex (fieldD w)
    let a ← qIndex (fieldA w)
    .ok (.compress d a)
  | .hreset => do
    reserved (fieldD w)
    reserved (fieldA w)
    reserved (fieldB w)
    reserved (fieldM w)
    reserved (fieldImm w)
    .ok .hreset
  | .hadd => do
    reserved (fieldD w)
    reserved (fieldB w)
    reserved (fieldM w)
    reserved (fieldImm w)
    let a ← bIndex (fieldA w)
    .ok (.hadd a)
  | .hadd32 => do
    reserved (fieldD w)
    reserved (fieldB w)
    reserved (fieldM w)
    reserved (fieldImm w)
    let a ← nIndex (fieldA w)
    .ok (.hadd32 a)
  | .hfin => do
    reserved (fieldA w)
    reserved (fieldB w)
    reserved (fieldM w)
    let d ← bIndex (fieldD w)
    let tr ← truncSelectOf (fieldImm w)
    .ok (.hfin d tr)
  | .sample => do
    reserved (fieldB w)
    reserved (fieldM w)
    reserved (fieldImm w)
    let d ← nIndex (fieldD w)
    let a ← bIndex (fieldA w)
    .ok (.sample d a)
  | .sampled => do
    reserved (fieldM w)
    reserved (fieldImm w)
    let d ← nIndex (fieldD w)
    let a ← bIndex (fieldA w)
    let b ← nIndex (fieldB w)
    .ok (.sampled d a b)
  | .b58enc => do
    reserved (fieldB w)
    reserved (fieldM w)
    let d ← bIndex (fieldD w)
    let a ← bIndex (fieldA w)
    .ok (.b58enc d a (fieldImm w))
  | .b58dec => do
    reserved (fieldB w)
    reserved (fieldM w)
    let d ← bIndex (fieldD w)
    let a ← bIndex (fieldA w)
    .ok (.b58dec d a (fieldImm w))
  | .clr => do
    reserved (fieldD w)
    reserved (fieldA w)
    reserved (fieldB w)
    reserved (fieldM w)
    reserved (fieldImm w)
    .ok .clr

/-- Decoding of a command word: total, reading no register (R94). -/
def decode (w : Word) : Except Illegal Instr :=
  match opcodeOf (fieldOp w) with
  | none => .error .unknownOpcode
  | some o => decodeFields o w

/-! ## Encoding (R93, R96) -/

/-- The code of a modulus select in `imm` (R93 a). -/
def modSelectByte : ModSelect → BitVec 8
  | .primeP => 0
  | .orderN => 1
  | .register => 2

/-- The code of a truncation select in `imm` (R93 b). -/
def truncSelectByte : TruncSelect → BitVec 8
  | .whole64 => 0
  | .first32 => 1
  | .first16 => 2

/-- The 4-bit field that holds an index (R91). -/
def indexField {k : Nat} (i : Fin k) : BitVec 4 := BitVec.ofNat 4 i.val

/-- The command word of an instruction (R96). -/
def encode : Instr → Word
  | .modadd d a b ms m =>
    commandWord 0x01 (indexField d) (indexField a) (indexField b) (indexField m) (modSelectByte ms)
  | .modmul d a b ms m =>
    commandWord 0x02 (indexField d) (indexField a) (indexField b) (indexField m) (modSelectByte ms)
  | .modred d a ms m =>
    commandWord 0x03 (indexField d) (indexField a) 0 (indexField m) (modSelectByte ms)
  | .modinv d a ms m =>
    commandWord 0x04 (indexField d) (indexField a) 0 (indexField m) (modSelectByte ms)
  | .pdbl d a => commandWord 0x10 (indexField d) (indexField a) 0 0 0
  | .padd d a b => commandWord 0x11 (indexField d) (indexField a) (indexField b) 0 0
  | .smulg d a => commandWord 0x12 (indexField d) (indexField a) 0 0 0
  | .compress d a => commandWord 0x13 (indexField d) (indexField a) 0 0 0
  | .hreset => commandWord 0x20 0 0 0 0 0
  | .hadd a => commandWord 0x21 0 (indexField a) 0 0 0
  | .hadd32 a => commandWord 0x22 0 (indexField a) 0 0 0
  | .hfin d tr => commandWord 0x23 (indexField d) 0 0 0 (truncSelectByte tr)
  | .sample d a => commandWord 0x30 (indexField d) (indexField a) 0 0 0
  | .sampled d a b => commandWord 0x31 (indexField d) (indexField a) (indexField b) 0 0
  | .b58enc d a ver => commandWord 0x40 (indexField d) (indexField a) 0 0 ver
  | .b58dec d a ver => commandWord 0x41 (indexField d) (indexField a) 0 0 ver
  | .clr => commandWord 0x7F 0 0 0 0 0

/-! ## The host's question -/

/-- The command word that the low `nbits` bits of `w` are: a command is one 32-bit word and bit 0 is
its least significant bit (R12, R90). -/
def tableWord (nbits w : Nat) : Word := BitVec.ofNat 32 (w % 2 ^ nbits)

/-- The instruction the decoder reads from the table's word `w`. -/
def decodeTableWord (nbits w : Nat) : Option Instr :=
  match decode (tableWord nbits w) with
  | .ok i => some i
  | .error _ => none

end Sys2Proof
end

