-- ==== Sys2Proof/Machine/Bytes.lean ====
section
/-! DEFINITION. Byte sequences and integers, always big-endian (spec/00_scope.md R13,
spec/20_memory.md R63, R70). -/

namespace Sys2Proof.Machine

/-- `BE(s)`: the big-endian unsigned integer of a byte sequence (R13). -/
def be (s : List Byte) : Nat := s.foldl (fun v x => 256 * v + x.toNat) 0

/-- `BEbytes_k(v)`: the byte sequence of length `k` whose value is `v`, for `v < 256^k` (R13). -/
def beBytes : (k : Nat) → (v : Nat) → List Byte
  | 0, _ => []
  | k + 1, v => beBytes k (v / 256) ++ [BitVec.ofNat 8 v]

/-- `U32BE(v)`: "a 4-byte big-endian integer" (R13). -/
def u32be (v : Nat) : List Byte := beBytes 4 v

/-- `MinBE` with at most `fuel` bytes. -/
def minBeFuel : (fuel : Nat) → (v : Nat) → List Byte
  | 0, _ => []
  | fuel + 1, v => if v = 0 then [] else minBeFuel fuel (v / 256) ++ [BitVec.ofNat 8 v]

/-- `MinBE(v)`: the shortest byte sequence whose value is `v` (R13). A number has fewer bytes than
its own value, so `v` is fuel enough. -/
def minBe (v : Nat) : List Byte := minBeFuel v v

/-- Four bytes in one port word, the first in bits 31:24 (R63). -/
def packWord (b0 b1 b2 b3 : Byte) : Word := b0 ++ b1 ++ b2 ++ b3

/-- Byte `i` of a port word, byte 0 being bits 31:24 (R63). -/
def wordByte (v : Word) (i : Fin 4) : Byte := v.extractLsb' (24 - 8 * i.val) 8

/-- The four bytes of a port word, first byte first (R63). -/
def wordBytes (v : Word) : List Byte := [wordByte v 0, wordByte v 1, wordByte v 2, wordByte v 3]

/-- Word `t` of a 256-bit value, word 0 the most significant: `v[255 - 32*t : 224 - 32*t]` (R66). -/
def bigWord (v : Big) (t : Fin 8) : Word := v.extractLsb' (224 - 32 * t.val) 32

/-- `v` with its word `t` replaced by `x`, "and leaves the other 224 bits unchanged" (R245). -/
def setBigWord (v : Big) (t : Fin 8) (x : Word) : Big :=
  (v &&& ~~~((0xFFFFFFFF : Big) <<< (224 - 32 * t.val))) ||| (x.setWidth 256 <<< (224 - 32 * t.val))

end Sys2Proof.Machine
end

