-- ==== Sys2Proof/Machine/Hash.lean ====
section
/-! DEFINITION. SHA-256 and SHA-512 as spec/48_hash_primitives.md writes them out (R290 to R300): the
instance of the two parameter functions of R9 that the machine runs with, and the values of the model
arguments of R8. -/

namespace Sys2Proof.Machine

/-! ## Common definitions (R291, R292) -/

/-- `ROTR_n(x)` (R291). -/
def rotr {w : Nat} (x : BitVec w) (n : Nat) : BitVec w := (x >>> n) ||| (x <<< (w - n))

/-- `Ch` (R293). -/
def shaCh {w : Nat} (x y z : BitVec w) : BitVec w := (x &&& y) ^^^ (~~~x &&& z)

/-- `Maj` (R293). -/
def shaMaj {w : Nat} (x y z : BitVec w) : BitVec w := (x &&& y) ^^^ (x &&& z) ^^^ (y &&& z)

/-- The eight working words, and the eight words of the hash value (R296, R300). -/
structure ShaWords (w : Nat) where
  (a b c d e f g h : BitVec w)
deriving DecidableEq, Repr

/-- What distinguishes SHA-512 from SHA-256: the word functions, the constants, the initial value and
the sizes of R292. -/
structure ShaVariant (w : Nat) where
  bigSigma0 : BitVec w → BitVec w
  bigSigma1 : BitVec w → BitVec w
  smallSigma0 : BitVec w → BitVec w
  smallSigma1 : BitVec w → BitVec w
  /-- `K[0]`, `K[1]`, ..., one for each round. -/
  roundConstants : List (BitVec w)
  initial : ShaWords w
  /-- `w / 8`. -/
  wordBytes : Nat
  /-- `Lf`, the bytes of the length field. -/
  lengthBytes : Nat

/-- `Bk`: a block is 16 words (R292). -/
def ShaVariant.blockBytes {w : Nat} (p : ShaVariant w) : Nat := 16 * p.wordBytes

/-- `Pad(M)`: `k` zero bytes with `k` the smallest that makes `L + 1 + k + Lf` a multiple of `Bk`
(R292). -/
def shaPad {w : Nat} (p : ShaVariant w) (m : List Byte) : List Byte :=
  m ++ [0x80]
    ++ List.replicate
      ((p.blockBytes - (m.length + 1 + p.lengthBytes) % p.blockBytes) % p.blockBytes) 0
    ++ beBytes p.lengthBytes (8 * m.length)

/-- The first `count` pieces of `size` bytes of a byte sequence. -/
def pieces (size : Nat) : (count : Nat) → List Byte → List (List Byte)
  | 0, _ => []
  | count + 1, s => s.take size :: pieces size count (s.drop size)

/-- The words `M_0`..`M_15` of a block (R291, R292). -/
def blockWords {w : Nat} (p : ShaVariant w) (block : List Byte) : List (BitVec w) :=
  (pieces p.wordBytes 16 block).map fun s => BitVec.ofNat w (be s)

/-- One more word of the message schedule, newest first: `W[t]` from `W[t-2]`, `W[t-7]`, `W[t-15]` and
`W[t-16]` (R296). -/
def scheduleStep {w : Nat} (p : ShaVariant w) (newestFirst : List (BitVec w)) : List (BitVec w) :=
  (p.smallSigma1 (newestFirst.getD 1 0) + newestFirst.getD 6 0
    + p.smallSigma0 (newestFirst.getD 14 0) + newestFirst.getD 15 0) :: newestFirst

/-- The message schedule `W[0]`, `W[1]`, ... of a block, one word for each round (R296). -/
def schedule {w : Nat} (p : ShaVariant w) (block : List Byte) : List (BitVec w) :=
  ((scheduleStep p)^[p.roundConstants.length - 16] (blockWords p block).reverse).reverse

/-- One round with `k = K[t]` and `x = W[t]`; the right side uses the old values (R296). -/
def shaRound {w : Nat} (p : ShaVariant w) (v : ShaWords w) (kx : BitVec w × BitVec w) : ShaWords w :=
  let t1 := v.h + p.bigSigma1 v.e + shaCh v.e v.f v.g + kx.1 + kx.2
  let t2 := p.bigSigma0 v.a + shaMaj v.a v.b v.c
  ⟨t1 + t2, v.a, v.b, v.c, v.d + t1, v.e, v.f, v.g⟩

/-- Word by word sum: the last line of a block's work (R296). -/
def ShaWords.add {w : Nat} (x y : ShaWords w) : ShaWords w :=
  ⟨x.a + y.a, x.b + y.b, x.c + y.c, x.d + y.d, x.e + y.e, x.f + y.f, x.g + y.g, x.h + y.h⟩

/-- The work of one block on the hash value `hv` (R296, R300). -/
def shaBlock {w : Nat} (p : ShaVariant w) (hv : ShaWords w) (block : List Byte) : ShaWords w :=
  hv.add ((p.roundConstants.zip (schedule p block)).foldl (shaRound p) hv)

/-- The eight words of a hash value as bytes, `H[0]` first (R296, R300). -/
def ShaWords.bytes {w : Nat} (x : ShaWords w) (k : Nat) : List Byte :=
  [x.a, x.b, x.c, x.d, x.e, x.f, x.g, x.h].flatMap fun v => beBytes k v.toNat

/-- The hash of a message (R296, R300). -/
def shaDigest {w : Nat} (p : ShaVariant w) (m : List Byte) : List Byte :=
  ((pieces p.blockBytes ((shaPad p m).length / p.blockBytes) (shaPad p m)).foldl (shaBlock p)
    p.initial).bytes p.wordBytes

/-! ## SHA-512 (R293 to R296) -/

/-- `K512[0..79]` (R294). -/
def k512 : List (BitVec 64) := [
  0x428A2F98D728AE22, 0x7137449123EF65CD, 0xB5C0FBCFEC4D3B2F, 0xE9B5DBA58189DBBC,
  0x3956C25BF348B538, 0x59F111F1B605D019, 0x923F82A4AF194F9B, 0xAB1C5ED5DA6D8118,
  0xD807AA98A3030242, 0x12835B0145706FBE, 0x243185BE4EE4B28C, 0x550C7DC3D5FFB4E2,
  0x72BE5D74F27B896F, 0x80DEB1FE3B1696B1, 0x9BDC06A725C71235, 0xC19BF174CF692694,
  0xE49B69C19EF14AD2, 0xEFBE4786384F25E3, 0x0FC19DC68B8CD5B5, 0x240CA1CC77AC9C65,
  0x2DE92C6F592B0275, 0x4A7484AA6EA6E483, 0x5CB0A9DCBD41FBD4, 0x76F988DA831153B5,
  0x983E5152EE66DFAB, 0xA831C66D2DB43210, 0xB00327C898FB213F, 0xBF597FC7BEEF0EE4,
  0xC6E00BF33DA88FC2, 0xD5A79147930AA725, 0x06CA6351E003826F, 0x142929670A0E6E70,
  0x27B70A8546D22FFC, 0x2E1B21385C26C926, 0x4D2C6DFC5AC42AED, 0x53380D139D95B3DF,
  0x650A73548BAF63DE, 0x766A0ABB3C77B2A8, 0x81C2C92E47EDAEE6, 0x92722C851482353B,
  0xA2BFE8A14CF10364, 0xA81A664BBC423001, 0xC24B8B70D0F89791, 0xC76C51A30654BE30,
  0xD192E819D6EF5218, 0xD69906245565A910, 0xF40E35855771202A, 0x106AA07032BBD1B8,
  0x19A4C116B8D2D0C8, 0x1E376C085141AB53, 0x2748774CDF8EEB99, 0x34B0BCB5E19B48A8,
  0x391C0CB3C5C95A63, 0x4ED8AA4AE3418ACB, 0x5B9CCA4F7763E373, 0x682E6FF3D6B2B8A3,
  0x748F82EE5DEFB2FC, 0x78A5636F43172F60, 0x84C87814A1F0AB72, 0x8CC702081A6439EC,
  0x90BEFFFA23631E28, 0xA4506CEBDE82BDE9, 0xBEF9A3F7B2C67915, 0xC67178F2E372532B,
  0xCA273ECEEA26619C, 0xD186B8C721C0C207, 0xEADA7DD6CDE0EB1E, 0xF57D4F7FEE6ED178,
  0x06F067AA72176FBA, 0x0A637DC5A2C898A6, 0x113F9804BEF90DAE, 0x1B710B35131C471B,
  0x28DB77F523047D84, 0x32CAAB7B40C72493, 0x3C9EBE0A15C9BEBC, 0x431D67C49C100D4C,
  0x4CC5D4BECB3E42B6, 0x597F299CFC657E2A, 0x5FCB6FAB3AD6FAEC, 0x6C44198C4A475817]

/-- The functions, constants and sizes of SHA-512 (R292 to R295). -/
def sha512Variant : ShaVariant 64 where
  bigSigma0 x := rotr x 28 ^^^ rotr x 34 ^^^ rotr x 39
  bigSigma1 x := rotr x 14 ^^^ rotr x 18 ^^^ rotr x 41
  smallSigma0 x := rotr x 1 ^^^ rotr x 8 ^^^ (x >>> 7)
  smallSigma1 x := rotr x 19 ^^^ rotr x 61 ^^^ (x >>> 6)
  roundConstants := k512
  initial := ⟨0x6A09E667F3BCC908, 0xBB67AE8584CAA73B, 0x3C6EF372FE94F82B, 0xA54FF53A5F1D36F1,
    0x510E527FADE682D1, 0x9B05688C2B3E6C1F, 0x1F83D9ABFB41BD6B, 0x5BE0CD19137E2179⟩
  wordBytes := 8
  lengthBytes := 16

/-! ## SHA-256 (R297 to R300) -/

/-- `K256[0..63]` (R298). -/
def k256 : List (BitVec 32) := [
  0x428A2F98, 0x71374491, 0xB5C0FBCF, 0xE9B5DBA5, 0x3956C25B, 0x59F111F1, 0x923F82A4, 0xAB1C5ED5,
  0xD807AA98, 0x12835B01, 0x243185BE, 0x550C7DC3, 0x72BE5D74, 0x80DEB1FE, 0x9BDC06A7, 0xC19BF174,
  0xE49B69C1, 0xEFBE4786, 0x0FC19DC6, 0x240CA1CC, 0x2DE92C6F, 0x4A7484AA, 0x5CB0A9DC, 0x76F988DA,
  0x983E5152, 0xA831C66D, 0xB00327C8, 0xBF597FC7, 0xC6E00BF3, 0xD5A79147, 0x06CA6351, 0x14292967,
  0x27B70A85, 0x2E1B2138, 0x4D2C6DFC, 0x53380D13, 0x650A7354, 0x766A0ABB, 0x81C2C92E, 0x92722C85,
  0xA2BFE8A1, 0xA81A664B, 0xC24B8B70, 0xC76C51A3, 0xD192E819, 0xD6990624, 0xF40E3585, 0x106AA070,
  0x19A4C116, 0x1E376C08, 0x2748774C, 0x34B0BCB5, 0x391C0CB3, 0x4ED8AA4A, 0x5B9CCA4F, 0x682E6FF3,
  0x748F82EE, 0x78A5636F, 0x84C87814, 0x8CC70208, 0x90BEFFFA, 0xA4506CEB, 0xBEF9A3F7, 0xC67178F2]

/-- The functions, constants and sizes of SHA-256 (R292, R297 to R299). -/
def sha256Variant : ShaVariant 32 where
  bigSigma0 x := rotr x 2 ^^^ rotr x 13 ^^^ rotr x 22
  bigSigma1 x := rotr x 6 ^^^ rotr x 11 ^^^ rotr x 25
  smallSigma0 x := rotr x 7 ^^^ rotr x 18 ^^^ (x >>> 3)
  smallSigma1 x := rotr x 17 ^^^ rotr x 19 ^^^ (x >>> 10)
  roundConstants := k256
  initial := ⟨0x6A09E667, 0xBB67AE85, 0x3C6EF372, 0xA54FF53A, 0x510E527F, 0x9B05688C, 0x1F83D9AB, 0x5BE0CD19⟩
  wordBytes := 4
  lengthBytes := 8

/-! ## The instance of the parameters -/

/-- `BEbytes_k(v)` has `k` bytes (R13). -/
@[simp] theorem length_beBytes (k v : Nat) : (beBytes k v).length = k := by
  induction k generalizing v with
  | zero => rfl
  | succ k ih => simp [beBytes, ih]

/-- A digest has eight words. -/
theorem length_shaDigest {w : Nat} (p : ShaVariant w) (m : List Byte) :
    (shaDigest p m).length = 8 * p.wordBytes := by
  simp only [shaDigest, ShaWords.bytes, List.flatMap_cons, List.flatMap_nil, List.length_append,
    length_beBytes, List.length_nil]
  omega

/-- `SHA256` of FIPS 180-4 as R300 gives it; a free value where the length does not fit its field. -/
def fipsSha256 (m : List Byte) : List Byte :=
  if 8 * m.length < 2 ^ 64 then shaDigest sha256Variant m else (Config.overlongSha256 m).toList

/-- `SHA512` of FIPS 180-4 as R296 gives it; a free value where the length does not fit its field. -/
def fipsSha512 (m : List Byte) : List Byte :=
  if 8 * m.length < 2 ^ 128 then shaDigest sha512Variant m else (Config.overlongSha512 m).toList

/-- `SHA256` and `SHA512` of FIPS 180-4 (R296, R300). -/
def fipsHashes : HashFunctions where
  sha256 := fipsSha256
  sha512 := fipsSha512
  sha256_length m := by
    unfold fipsSha256
    split
    · exact length_shaDigest sha256Variant m
    · exact Vector.length_toList
  sha512_length m := by
    unfold fipsSha512
    split
    · exact length_shaDigest sha512Variant m
    · exact Vector.length_toList

/-- The hash functions of this block (R8: "FIPS 180-4 functions"). -/
def hashes : HashFunctions := fipsHashes

/-- The model arguments at the values that this hardware takes (R8): the machine that the host reads runs
with them. DESIGN CHOICE (log entry 10). -/
def hardware : Parameters where
  toHashFunctions := hashes
  lmax := Config.lmax
  lmax_ge := by decide
  lmax_le := by decide

end Sys2Proof.Machine
end

