-- ==== Sys2Proof/Machine/State.lean ====
section
/-! DEFINITION. The state of the block as plain data (spec/10_state.md R20 to R42), the reasons a step
can stop, and the state after reset (R40, spec/70_reset_and_hazards.md R350, R352). -/

namespace Sys2Proof.Machine

/-! ## The types of the registers -/

/-- A point: `INF`, or a pair of "big unsigned integers modulo P" (R23). `INF` is a value of its own,
so a point register is always in the canonical form of R23: the fields that the host reads of it
are `pointInfWord`, `pointX` and `pointY` in Operands. DESIGN CHOICE (log entry 9), safe. -/
inductive Point where
  | infinity
  | affine (x y : Fin Config.P)
deriving DecidableEq, Repr

/-- The fields of `STATUS` (R29). The reserved bits are no state: they read as 0 and nothing writes
them. -/
structure Status where
  /-- Bit 0. -/
  busy : Bool
  /-- Bit 1. -/
  done : Bool
  /-- Bit 2. -/
  err : Bool
  /-- Bits 15:8. -/
  errcode : BitVec 8
deriving DecidableEq, Repr

/-- The control state `PHASE` (R28). -/
inductive Phase where
  | idle
  | busy (w : Word)
deriving DecidableEq, Repr

/-- The `DATA` bytes of the four byte buffers, by host-port byte address (R25, R64): the only bytes
the address space stores. Every other mapped address is a register of its own or a constant. In
canonical form (`Memory.wf` in Ops) addresses rise strictly and no listed byte is 0, which is what
an unlisted byte reads as: R40 resets every `DATA` byte to 0. DESIGN CHOICE (log entry 7), safe. -/
abbrev Memory := List Host.Cell

/-! ## Why a step can stop -/

/-- The reasons for which the machine stops with a fault: none. "There is no state in which the block
is stuck" (R360); a failed command ends in error completion (R318) and a transaction the map does
not allow gets the response `BusError` (R320), and both are next states. -/
inductive Fault where
deriving DecidableEq, Repr

/-- The reasons for which the model refuses an instruction. -/
inductive Refusal where
  /-- Raised by an arm of `exec` for an instruction that has no meaning yet. No arm raises it. Safe:
  nothing is claimed of the instruction. -/
  | notModelled (mnemonic : String)
deriving DecidableEq, Repr

/-! ## The state -/

/-- The complete state of the block (R20), and below it the model's own fields for what stands
outside the block: the port's held transaction, the host's coming actions, and what the host has
been answered. -/
structure State where
  /-- The big-integer registers `n0`..`n7` (R21). -/
  n : Vector Big 8
  /-- The point registers `q0`..`q3` (R23). -/
  q : Vector Point 4
  /-- The length fields `LEN` of the byte buffers, each in [0, LMAX] (R25). The type bounds them by the 256
  bytes of the `DATA` window, which is `LMAX` on this hardware. -/
  blen : Vector (Fin (Config.bufBytes + 1)) 4
  /-- The `DATA` bytes of the byte buffers (R25). -/
  mem : Memory
  /-- The hash adapter's accumulated message `HMSG` (R35). -/
  hmsg : List Byte
  /-- The sampler iteration register `SITER` (R37). -/
  siter : Word
  /-- `STATUS` (R29). -/
  status : Status
  /-- `PHASE` (R28). -/
  phase : Phase
  /-- `ALPHABET`, `SEED_VERSION` and `ACCOUNT_VERSION` as latched at reset (R33, R34). -/
  config : Configuration
  /-- The transaction that the port is holding unfinished while a command runs, if any (R68). DEDUCED
  (log entry 4). -/
  held : Option Txn
  /-- The model's own: what the outside world does in the coming steps, one event a step. DESIGN CHOICE
  (log entry 3). -/
  script : List Event
  /-- The model's own: the responses the host has received, oldest first (R61). DESIGN CHOICE (log
  entry 5). -/
  responses : List Response
  /-- The model's own: how many held transactions resets have lost so far (R351). DESIGN CHOICE (log
  entry 6). -/
  lost : Nat
deriving DecidableEq, Repr

/-- The state when reset is released with the configuration `c` on the configuration inputs (R40,
R350, R352). -/
def State.resetWith (c : Configuration) : State where
  n := Vector.replicate 8 0
  q := Vector.replicate 4 .infinity
  blen := Vector.replicate 4 ⟨0, Nat.succ_pos _⟩
  mem := []
  hmsg := []
  siter := 0
  status := ⟨false, false, false, 0⟩
  phase := .idle
  config := c
  held := none
  script := []
  responses := []
  lost := 0

/-- The machine right after reset, with the default configuration of R33 and R34 on the
configuration inputs. DESIGN CHOICE (log entry 1), unsafe for a block strapped otherwise. -/
def State.reset : State := State.resetWith Config.swtc

/-- What one instruction or one step answers. -/
abbrev Result := Host.Outcome State Fault Refusal

end Sys2Proof.Machine
end

