-- ==== Sys2Proof/Machine/Flags.lean ====
section
/-! DEFINITION. The error codes and every computation of `STATUS` and `PHASE`
(spec/60_exceptions.md R310 to R319, spec/10_state.md R29, R38). -/

namespace Sys2Proof.Machine

/-- How a command ends (R311). -/
inductive ErrCode where
  /-- Success. -/
  | ok
  /-- The word is not accepted by the decoding of R94. -/
  | illegalCommand
  /-- `ms = 2` and `n[m] = 0`. -/
  | modulusZero
  /-- `gcd(n[a], mod) != 1`. -/
  | notInvertible
  /-- `n[a] >= N`. -/
  | scalarRange
  /-- `q[a] = INF`. -/
  | pointAtInfinity
  /-- The 32-bit operand register holds 2^32 or more. -/
  | operandRange
  /-- The string would be longer than `LMAX`. -/
  | lengthOverflow
  /-- A character is not in the alphabet, or fewer than 5 bytes are decoded. -/
  | decodeError
  /-- The first decoded byte is not the expected version byte. -/
  | versionMismatch
  /-- The last 4 decoded bytes are not the checksum. -/
  | checksumMismatch
  /-- No counter value gives a valid scalar. -/
  | derivationExhausted
deriving DecidableEq, Repr

/-- The value that `STATUS.ERRCODE` holds (R311). -/
def errByte : ErrCode → BitVec 8
  | .ok => 0x00
  | .illegalCommand => 0x01
  | .modulusZero => 0x02
  | .notInvertible => 0x03
  | .scalarRange => 0x04
  | .pointAtInfinity => 0x05
  | .operandRange => 0x06
  | .lengthOverflow => 0x07
  | .decodeError => 0x08
  | .versionMismatch => 0x09
  | .checksumMismatch => 0x0A
  | .derivationExhausted => 0x0B

/-- The 32-bit value of `STATUS` (R29). -/
def statusWord (t : Status) : Word :=
  (0 : BitVec 16) ++ t.errcode ++ (0 : BitVec 5) ++ BitVec.ofBool t.err ++ BitVec.ofBool t.done
    ++ BitVec.ofBool t.busy

/-- `STATUS` when a command is accepted (R38). -/
def statusAccepted : Status := ⟨true, false, false, 0⟩

/-- `STATUS` when a command completes: `ERR` is 1 exactly when the code is not 0 (R29, R317, R318). -/
def statusCompleted (e : ErrCode) : Status := ⟨false, true, errByte e != 0, errByte e⟩

/-- Command acceptance: what a host write of `w` to `CMD` does, in one step (R38). -/
def acceptCommand (w : Word) (s : State) : State :=
  { s with status := statusAccepted, phase := .busy w }

/-- The end of a command with code `e`: `STATUS` takes the code and the block is idle (R317, R318). -/
def completeWith (e : ErrCode) (s : State) : State :=
  { s with status := statusCompleted e, phase := .idle }

/-- Successful completion of a command whose register writes have made `s` (R317). -/
def finish (s : State) : Result := .next (completeWith .ok s)

/-- Error completion, the block's form of taking an exception: the code is recorded and nothing else
is saved, no mode changes and control goes nowhere (R310, R312, R318). There is no return from it:
the next acceptance clears the code (R319). -/
def raise (e : ErrCode) (s : State) : Result := .next (completeWith e s)

end Sys2Proof.Machine
end

