-- ==== Sys2Proof/Machine/Ops.lean ====
section
/-! DEFINITION. The named operations over the stored bytes and the register files
(spec/00_scope.md R14, spec/10_state.md R21 to R26). -/

namespace Sys2Proof.Machine

/-! ## Stored bytes -/

/-- One stored byte; an unlisted byte reads 0 (R40). -/
def Memory.read : Memory → Nat → Byte
  | [], _ => 0
  | (a, v) :: rest, x => if a = x then v else Memory.read rest x

/-- A byte put before the bytes of higher addresses; a byte 0 is not listed. -/
def Memory.consByte (x : Nat) (v : Byte) (rest : Memory) : Memory :=
  if v = 0 then rest else (x, v) :: rest

/-- Stores one byte, keeping the canonical form. -/
def Memory.write : Memory → Nat → Byte → Memory
  | [], x, v => Memory.consByte x v []
  | (a, b) :: rest, x, v =>
    if x < a then Memory.consByte x v ((a, b) :: rest)
    else if x = a then Memory.consByte x v rest
    else (a, b) :: Memory.write rest x v

/-- Stores a byte sequence at consecutive addresses from `base`. -/
def Memory.writeAll : Memory → Nat → List Byte → Memory
  | m, _, [] => m
  | m, base, v :: vs => Memory.writeAll (m.write base v) (base + 1) vs

/-- The host address of `DATA[i]` of buffer `k` (R64). -/
def dataAddr (k : BReg) (i : Nat) : Nat := 0x1000 + 0x200 * k.val + 0x004 + i

/-- An address of the `DATA` window of some buffer: the addresses that store a byte (R64). -/
def isDataAddr (a : Nat) : Bool :=
  decide (0x1000 ≤ a ∧ a < 0x1800 ∧ 0x004 ≤ a % 0x200 ∧ a % 0x200 < 0x104)

/-- The canonical form: addresses rise strictly, each is an address of a `DATA` byte, and no listed
byte is 0. -/
def Memory.wf (m : Memory) : Bool :=
  decide (m.Pairwise fun c d => c.1 < d.1) && m.all fun c => isDataAddr c.1 && c.2 != 0

/-! ## Register files (R14) -/

/-- `n[i]` as an integer in [0, 2^256 - 1] (R14, R21). -/
def State.nVal (s : State) (i : NReg) : Nat := s.n[i.val].toNat

/-- `n[i] <- v` for the bits `v` (R14). -/
def State.setN (s : State) (i : NReg) (v : Big) : State := { s with n := s.n.set i.val v }

/-- `n[i] <- v` for an integer `0 <= v < 2^256` (R14). -/
def State.setNVal (s : State) (i : NReg) (v : Nat) : State := s.setN i (BitVec.ofNat 256 v)

/-- `q[j]` (R14). -/
def State.point (s : State) (j : QReg) : Point := s.q[j.val]

/-- `q[j] <- p` (R14). -/
def State.setPoint (s : State) (j : QReg) (p : Point) : State := { s with q := s.q.set j.val p }

/-- `LEN` of buffer `k` (R25). -/
def State.bufLen (s : State) (k : BReg) : Nat := s.blen[k.val].val

/-- `DATA[i]` of buffer `k` (R25). -/
def State.bufData (s : State) (k : BReg) (i : Nat) : Byte := s.mem.read (dataAddr k i)

/-- `b[k]`: the byte sequence `DATA[0], ..., DATA[LEN-1]` (R14, R25). -/
def State.buf (s : State) (k : BReg) : List Byte := (List.range (s.bufLen k)).map (s.bufData k)

/-- `bs` filled with bytes 0 to the capacity `cap` of a buffer (R26). -/
def padToCapacity (cap : Nat) (bs : List Byte) : List Byte :=
  bs.take cap ++ List.replicate (cap - bs.length) 0

/-- `LEN <- v`, leaving `DATA` as it is; `v` is at most `LMAX` wherever this is used. -/
def State.setBufLen (s : State) (k : BReg) (v : Nat) : State :=
  { s with blen := s.blen.set k.val ⟨min v Config.bufBytes, Nat.lt_succ_of_le (Nat.min_le_right _ _)⟩ }

/-- `DATA[i], DATA[i+1], ... <- bs` of buffer `k`, leaving `LEN` as it is. -/
def State.setBufData (s : State) (k : BReg) (i : Nat) (bs : List Byte) : State :=
  { s with mem := s.mem.writeAll (dataAddr k i) bs }

/-- `b[k] <- bs`, for `len(bs) <= LMAX`: `LEN` becomes the length, and the bytes of `DATA` past it, up to
`LMAX`, become 0 (R14, R26). `cap` is `LMAX`. -/
def State.setBuf (s : State) (cap : Nat) (k : BReg) (bs : List Byte) : State :=
  (s.setBufData k 0 (padToCapacity cap bs)).setBufLen k bs.length

/-- `HMSG <- m` (R35). -/
def State.setHmsg (s : State) (m : List Byte) : State := { s with hmsg := m }

/-- `SITER <- v` (R37). -/
def State.setSiter (s : State) (v : Word) : State := { s with siter := v }

/-- All working state at its reset value: what CLR does to the registers (R40, R241). -/
def State.clearWorking (s : State) : State :=
  { s with
    n := Vector.replicate 8 0
    q := Vector.replicate 4 .infinity
    blen := Vector.replicate 4 ⟨0, Nat.succ_pos _⟩
    mem := []
    hmsg := []
    siter := 0 }

end Sys2Proof.Machine
end

