-- ==== Sys2Proof/Machine/Operands.lean ====
section
/-! DEFINITION. Every operand form of the commands: the selected modulus, the 32-bit operand of an
n-register, the truncation length, the fields of a point register (spec/30_encoding.md R93,
spec/40_big_int_modular_arith.md R121, spec/10_state.md R23). -/

namespace Sys2Proof.Machine

/-- `Modulus(ms, m)` (R121). -/
def modulus (ms : ModSelect) (m : NReg) (s : State) : Nat :=
  match ms with
  | .primeP => Config.P
  | .orderN => Config.N
  | .register => s.nVal m

/-- The selected modulus, or error completion with `ModulusZero` where it is 0 (R121). -/
def withModulus (ms : ModSelect) (m : NReg) (s : State) (body : Nat → Result) : Result :=
  if modulus ms m s = 0 then raise .modulusZero s else body (modulus ms m s)

/-- The 32-bit operand in `n[i]`, or error completion with `OperandRange` where the register holds
2^32 or more: "refused, not truncated" (R174, R194). -/
def withU32 (i : NReg) (s : State) (body : Nat → Result) : Result :=
  if 2 ^ 32 ≤ s.nVal i then raise .operandRange s else body (s.nVal i)

/-- The number of bytes `t` that the truncation select `tr` keeps (R93 b, R175). -/
def truncLength : TruncSelect → Nat
  | .whole64 => 64
  | .first32 => 32
  | .first16 => 16

/-- `Trunc_t(x)`: the first `t` bytes (R171). -/
def trunc (t : Nat) (x : List Byte) : List Byte := x.take t

/-- The `INF` field of a point register, as the host reads it (R23, R248). -/
def pointInfWord : Point → Word
  | .infinity => 1
  | .affine _ _ => 0

/-- The `X` field of a point register; 0 where it holds `INF` (R23). -/
def pointX : Point → Big
  | .infinity => 0
  | .affine x _ => BitVec.ofNat 256 x.val

/-- The `Y` field of a point register; 0 where it holds `INF` (R23). -/
def pointY : Point → Big
  | .infinity => 0
  | .affine _ y => BitVec.ofNat 256 y.val

end Sys2Proof.Machine
end

