-- ==== Sys2Proof/Machine/Base58.lean ====
section
/-! DEFINITION. The units `base58check_encoder` and `base58check_decoder`: B58ENC, B58DEC
(spec/44_base58check_encoder.md R205 to R211, spec/45_base58check_decoder.md R220 to R230). -/

namespace Sys2Proof.Machine

/-- `ALPHABET[dg]` (R33). -/
def alphabetChar (c : Configuration) (dg : Fin 58) : Byte := c.alphabet[dg.val]

/-- `Checksum4(buf)` (R206). -/
def checksum4 (h : HashFunctions) (buf : List Byte) : List Byte :=
  (h.sha256 (h.sha256 buf)).take 4

/-! ## Encoding (R207, R208) -/

/-- `Digits58` with at most `fuel` digits. -/
def digits58Fuel : (fuel : Nat) → (v : Nat) → List (Fin 58)
  | 0, _ => []
  | fuel + 1, v =>
    if v = 0 then [] else digits58Fuel fuel (v / 58) ++ [⟨v % 58, Nat.mod_lt _ (by decide)⟩]

/-- `Digits58(v)`: the base-58 digits, most significant first, none for 0 (R207). A number has fewer
digits than its own value, so `v` is fuel enough. -/
def digits58 (v : Nat) : List (Fin 58) := digits58Fuel v v

/-- The number of leading elements equal to `x`: `z` of R207 and R222. -/
def leadingCount (x : Byte) (s : List Byte) : Nat := (s.takeWhile (· == x)).length

/-- `B58Raw(buf)` (R207). -/
def b58Raw (c : Configuration) (buf : List Byte) : List Byte :=
  List.replicate (leadingCount 0 buf) (alphabetChar c 0)
    ++ (digits58 (be buf)).map (alphabetChar c)

/-- `B58CheckEncode(ver, payload)` (R208). -/
def b58CheckEncode (h : HashFunctions) (c : Configuration) (ver : Byte) (payload : List Byte) :
    List Byte :=
  b58Raw c ((ver :: payload) ++ checksum4 h (ver :: payload))

/-! ## Decoding (R221 to R224) -/

/-- `DigitOf(c)`: the index of an octet in the alphabet, by exact equality (R221). -/
def digitOf (c : Configuration) (x : Byte) : Option (Fin 58) :=
  (List.finRange 58).find? fun dg => alphabetChar c dg == x

/-- The value of the digits `v = v * 58 + DigitOf(c)` of a string over the alphabet (R222); a
character outside the alphabet counts 0, and `b58CheckDecode` has refused it before. -/
def b58Value (c : Configuration) (s : List Byte) : Nat :=
  s.foldl (fun v x => v * 58 + ((digitOf c x).map Fin.val).getD 0) 0

/-- `B58RawDecode(s)` for a string `s` over the alphabet (R222). -/
def b58RawDecode (c : Configuration) (s : List Byte) : List Byte :=
  List.replicate (leadingCount (alphabetChar c 0) s) 0
    ++ minBe (b58Value c (s.drop (leadingCount (alphabetChar c 0) s)))

/-- Every character of `s` is in the alphabet (R221). -/
def inAlphabet (c : Configuration) (s : List Byte) : Bool := s.all fun x => (digitOf c x).isSome

/-- `B58CheckDecode(s, expected)`, with the order of the tests: `DecodeError`, then
`ChecksumMismatch`, then `VersionMismatch` (R223, R224). -/
def b58CheckDecode (h : HashFunctions) (c : Configuration) (expected : Byte) (s : List Byte) :
    Except ErrCode (List Byte) :=
  if inAlphabet c s = false then .error .decodeError
  else
    let decoded := b58RawDecode c s
    let body := decoded.take (decoded.length - 4)
    if decoded.length < 5 then .error .decodeError
    else if checksum4 h body ≠ decoded.drop (decoded.length - 4) then .error .checksumMismatch
    else if decoded.head? ≠ some expected then .error .versionMismatch
    else .ok (body.drop 1)

/-! ## The commands -/

/-- B58ENC for any model arguments: `b[d] <- B58CheckEncode(imm, b[a])`, or `LengthOverflow`, "decided on
the actual length" (R9, R209, R210). -/
def execB58encWith (p : Parameters) (d a : BReg) (ver : Byte) (s : State) : Result :=
  let str := b58CheckEncode p.toHashFunctions s.config ver (s.buf a)
  if p.lmax < str.length then raise .lengthOverflow s else finish (s.setBuf p.lmax d str)

/-- B58ENC on this hardware (R8, R209). -/
def execB58enc (d a : BReg) (ver : Byte) (s : State) : Result := execB58encWith hardware d a ver s

/-- B58DEC for any model arguments: `b[d] <- B58CheckDecode(b[a], imm)`, or its error (R9, R225). -/
def execB58decWith (p : Parameters) (d a : BReg) (ver : Byte) (s : State) : Result :=
  match b58CheckDecode p.toHashFunctions s.config ver (s.buf a) with
  | .error e => raise e s
  | .ok payload => finish (s.setBuf p.lmax d payload)

/-- B58DEC on this hardware (R8, R225). -/
def execB58dec (d a : BReg) (ver : Byte) (s : State) : Result := execB58decWith hardware d a ver s

end Sys2Proof.Machine
end

