-- ==== Sys2Proof/Machine/ModArith.lean ====
section
/-! DEFINITION. The unit `big_int_modular_arith`: MODADD, MODMUL, MODRED, MODINV
(spec/40_big_int_modular_arith.md R120 to R129). -/

namespace Sys2Proof.Machine

/-! ## The modular inverse (R127) -/

/-- The loop of the extended Euclidean algorithm of R127 with at most `fuel` rounds. -/
def euclid : (fuel : Nat) → (r0 r1 : Nat) → (s0 s1 : Int) → Int
  | 0, _, _, s0, _ => s0
  | fuel + 1, r0, r1, s0, s1 =>
    if r1 = 0 then s0
    else euclid fuel r1 (r0 - r0 / r1 * r1) s1 (s0 - (r0 / r1 : Nat) * s1)

/-- `Inv(a, mod)`, by the algorithm of R127. The remainder `r1` starts below `mod` and falls in every
round, so `mod` rounds are fuel enough. -/
def inv (a mod : Nat) : Nat :=
  if mod = 1 then 0 else (euclid mod mod (a % mod) 0 1 % (mod : Int)).toNat

/-! ## The commands -/

/-- MODADD: `n[d] <- (n[a] + n[b]) mod mod` (R123). -/
def execModadd (d a b : NReg) (ms : ModSelect) (m : NReg) (s : State) : Result :=
  withModulus ms m s fun md => finish (s.setNVal d ((s.nVal a + s.nVal b) % md))

/-- MODMUL: `n[d] <- (n[a] * n[b]) mod mod` (R124). -/
def execModmul (d a b : NReg) (ms : ModSelect) (m : NReg) (s : State) : Result :=
  withModulus ms m s fun md => finish (s.setNVal d ((s.nVal a * s.nVal b) % md))

/-- MODRED: `n[d] <- n[a] mod mod` (R125). -/
def execModred (d a : NReg) (ms : ModSelect) (m : NReg) (s : State) : Result :=
  withModulus ms m s fun md => finish (s.setNVal d (s.nVal a % md))

/-- MODINV: `n[d] <- Inv(n[a], mod)`, or `NotInvertible` where the gcd is not 1 (R126). -/
def execModinv (d a : NReg) (ms : ModSelect) (m : NReg) (s : State) : Result :=
  withModulus ms m s fun md =>
    if Nat.gcd (s.nVal a) md ≠ 1 then raise .notInvertible s
    else finish (s.setNVal d (inv (s.nVal a) md))

end Sys2Proof.Machine
end

