-- ==== Sys2Proof/Machine/Curve.lean ====
section
/-! DEFINITION. The curve unit `secp256k1_scalar_mult`: PDBL, PADD, SMULG, COMPRESS
(spec/41_secp256k1_scalar_mult.md R140 to R153). -/

namespace Sys2Proof.Machine

/-! ## Field arithmetic (R142) -/

/-- `v mod P` as a field element, for a mathematical integer `v` that may be negative (R11, R142). -/
def toField (v : Int) : Fin Config.P := ⟨(v % (Config.P : Int)).toNat, by
  have hP : (0 : Int) < Config.P := by decide
  have h := Int.emod_lt_of_pos v hP
  have h0 := Int.emod_nonneg v (Int.ne_of_gt hP)
  omega⟩

/-- `Inv(v mod P, P)` (R127, R142). -/
def fieldInv (v : Int) : Int := inv (toField v).val Config.P

/-! ## The group operations (R144) -/

/-- `Neg` (R144). -/
def pointNeg : Point → Point
  | .infinity => .infinity
  | .affine x y => .affine x (toField ((Config.P : Int) - y.val))

/-- The third point of the line with slope `lam` through `(x1, y1)` and a point with coordinate `x2`,
mirrored: the common end of the formulas of R144. -/
def chord (lam x1 y1 x2 : Int) : Point :=
  let x3 := toField (lam * lam - x1 - x2)
  .affine x3 (toField (lam * (x1 - x3.val) - y1))

/-- The slope of `Dbl`: `(3 * x * x * Inv((2 * y) mod P, P)) mod P` (R144). -/
def tangentSlope (x y : Int) : Int := (toField (3 * x * x * fieldInv (2 * y))).val

/-- The slope of `Add`: `((y2 - y1) * Inv((x2 - x1) mod P, P)) mod P` (R144). -/
def chordSlope (x1 y1 x2 y2 : Int) : Int := (toField ((y2 - y1) * fieldInv (x2 - x1))).val

/-- `Dbl` (R144); its `lam * lam - 2 * x` is the chord with both coordinates `x`. -/
def pointDbl : Point → Point
  | .infinity => .infinity
  | .affine x y =>
    if y.val = 0 then .infinity else chord (tangentSlope x.val y.val) x.val y.val x.val

/-- `Add` (R144). -/
def pointAdd : Point → Point → Point
  | .infinity, t => t
  | .affine x y, .infinity => .affine x y
  | .affine x1 y1, .affine x2 y2 =>
    if x1 = x2 then
      if y1 = y2 then pointDbl (.affine x1 y1) else .infinity
    else chord (chordSlope x1.val y1.val x2.val y2.val) x1.val y1.val x2.val

/-- The generator point `G = (GX, GY)` (R30). -/
def generator : Point :=
  .affine ⟨Config.GX, by decide⟩ ⟨Config.GY, by decide⟩

/-- The scalar multiple `k·T` as R143 defines it: `0·T = INF`, `(k+1)·T = Add(k·T, T)`. -/
def scalarMultiple : (k : Nat) → (t : Point) → Point
  | 0, _ => .infinity
  | k + 1, t => pointAdd (scalarMultiple k t) t

/-- The double-and-add loop of R147 over the low `bits` bits of `k`, most significant first. -/
def doubleAndAdd : (bits : Nat) → (k : Nat) → (acc : Point) → Point
  | 0, _, acc => acc
  | bits + 1, k, acc =>
    doubleAndAdd bits k
      (if k.testBit bits then pointAdd (pointDbl acc) generator else pointDbl acc)

/-- `ScalarBaseMul(k)` for `0 <= k < 2^256` (R147), which R147 says is `k·G`. -/
def scalarBaseMul (k : Nat) : Point := doubleAndAdd 256 k .infinity

/-- `Compress((x, y))`: the parity byte, then `x` in 32 bytes (R151). -/
def compressPoint (x y : Fin Config.P) : List Byte :=
  (if y.val % 2 = 0 then 0x02 else 0x03) :: beBytes 32 x.val

/-- The curve equation `(y*y) mod P = (x*x*x + 7) mod P` (R141). -/
def Point.onCurve : Point → Bool
  | .infinity => true
  | .affine x y => decide (y.val * y.val % Config.P
      = (x.val * x.val * x.val + Config.A * x.val + Config.B) % Config.P)

/-! ## The commands -/

/-- PDBL: `q[d] <- Dbl(q[a])` (R145). -/
def execPdbl (d a : QReg) (s : State) : Result :=
  finish (s.setPoint d (pointDbl (s.point a)))

/-- PADD: `q[d] <- Add(q[a], q[b])` (R146). -/
def execPadd (d a b : QReg) (s : State) : Result :=
  finish (s.setPoint d (pointAdd (s.point a) (s.point b)))

/-- SMULG: `q[d] <- k·G`, or `ScalarRange` where `k >= N` (R148). -/
def execSmulg (d : QReg) (a : NReg) (s : State) : Result :=
  if Config.N ≤ s.nVal a then raise .scalarRange s
  else finish (s.setPoint d (scalarBaseMul (s.nVal a)))

/-- COMPRESS for any model arguments: `b[d] <- Compress(q[a])`, or `PointAtInfinity` (R152). -/
def execCompressWith (p : Parameters) (d : BReg) (a : QReg) (s : State) : Result :=
  match s.point a with
  | .infinity => raise .pointAtInfinity s
  | .affine x y => finish (s.setBuf p.lmax d (compressPoint x y))

/-- COMPRESS on this hardware (R8, R152). -/
def execCompress (d : BReg) (a : QReg) (s : State) : Result := execCompressWith hardware d a s

end Sys2Proof.Machine
end

