-- ==== Sys2Proof/Machine/HashAdapter.lean ====
section
/-! DEFINITION. The unit `sha512_hash_adapter`: HRESET, HADD, HADD32, HFIN
(spec/42_sha512_hash_adapter.md R170 to R177). -/

namespace Sys2Proof.Machine

/-- HRESET: `HMSG <- empty` (R172). -/
def execHreset (s : State) : Result := finish (s.setHmsg [])

/-- HADD: `HMSG <- HMSG ++ b[a]` (R173). -/
def execHadd (a : BReg) (s : State) : Result := finish (s.setHmsg (s.hmsg ++ s.buf a))

/-- HADD32: `HMSG <- HMSG ++ U32BE(n[a])` (R174). -/
def execHadd32 (a : NReg) (s : State) : Result :=
  withU32 a s fun v => finish (s.setHmsg (s.hmsg ++ u32be v))

/-- HFIN for any model arguments: `b[d] <- Trunc_t(SHA512(HMSG))` (R9, R175). -/
def execHfinWith (p : Parameters) (d : BReg) (tr : TruncSelect) (s : State) : Result :=
  finish (s.setBuf p.lmax d (trunc (truncLength tr) (p.sha512 s.hmsg)))

/-- HFIN on this hardware (R8, R175). -/
def execHfin (d : BReg) (tr : TruncSelect) (s : State) : Result := execHfinWith hardware d tr s

end Sys2Proof.Machine
end

