-- ==== Sys2Proof/Machine/Sampler.lean ====
section
/-! DEFINITION. The unit `rejection_sampler`: SAMPLE, SAMPLED (spec/43_rejection_sampler.md R190 to
R198). The search takes the hash functions as an argument, as R9 asks. -/

namespace Sys2Proof.Machine

/-- `SampleMsg(data, disc, i)` (R191). -/
def sampleMsg (data : List Byte) (disc : Option Nat) (i : Nat) : List Byte :=
  match disc with
  | none => data ++ u32be i
  | some c => data ++ u32be c ++ u32be i

/-- The candidate of iteration `i`: `BE` of the first 32 bytes of the digest (R192). -/
def candidate (h : HashFunctions) (data : List Byte) (disc : Option Nat) (i : Nat) : Nat :=
  be (trunc 32 (h.sha512 (sampleMsg data disc i)))

/-- "Accept and return `candidate` iff `0 < candidate < N`" (R192). -/
def accepts (c : Nat) : Bool := decide (0 < c ∧ c < Config.N)

/-- The first accepted candidate among the `count` counter values from `i`, with its counter. -/
def searchFrom (h : HashFunctions) (data : List Byte) (disc : Option Nat) :
    (count : Nat) → (i : Nat) → Option (Nat × Nat)
  | 0, _ => none
  | count + 1, i =>
    if accepts (candidate h data disc i) then some (candidate h data disc i, i)
    else searchFrom h data disc count (i + 1)

/-- `ScalarFromSeed(data, disc)`: `some (c, i)` is `Found(c, i)` and `none` is `Exhausted`
(R192, R196). -/
def scalarFromSeed (h : HashFunctions) (data : List Byte) (disc : Option Nat) : Option (Nat × Nat) :=
  searchFrom h data disc Config.sampleIters 0

/-- What both commands do with the result of the search: `HMSG` is emptied either way, and `SITER`
takes the accepted counter or 0xFFFFFFFF (R193, R194, R195). -/
def deliverSample (d : NReg) (r : Option (Nat × Nat)) (s : State) : Result :=
  match r with
  | none => raise .derivationExhausted ((s.setHmsg []).setSiter 0xFFFFFFFF)
  | some (c, i) => finish (((s.setHmsg []).setSiter (BitVec.ofNat 32 i)).setNVal d c)

/-- The common body of both commands with the hash functions as an argument: the search on the bytes of
`b[a]` and the delivery of its result (R192, R193, R194). -/
def sampleCommand (h : HashFunctions) (d : NReg) (a : BReg) (disc : Option Nat) (s : State) : Result :=
  deliverSample d (scalarFromSeed h (s.buf a) disc) s

/-- SAMPLE for any model arguments: scalar from seed bytes, no discriminator (R9, R193). -/
def execSampleWith (p : Parameters) (d : NReg) (a : BReg) (s : State) : Result :=
  sampleCommand p.toHashFunctions d a none s

/-- SAMPLE on this hardware (R8, R193). -/
def execSample (d : NReg) (a : BReg) (s : State) : Result := execSampleWith hardware d a s

/-- SAMPLED for any model arguments: scalar from seed bytes with the discriminator in `n[b]` (R9,
R194). -/
def execSampledWith (p : Parameters) (d : NReg) (a : BReg) (b : NReg) (s : State) : Result :=
  withU32 b s fun disc => sampleCommand p.toHashFunctions d a (some disc) s

/-- SAMPLED on this hardware (R8, R194). -/
def execSampled (d : NReg) (a : BReg) (b : NReg) (s : State) : Result :=
  execSampledWith hardware d a b s

end Sys2Proof.Machine
end

