-- ==== Sys2Proof/Machine/System.lean ====
section
/-! DEFINITION. The system command CLR (spec/46_system_and_host_access.md R240, R241). -/

namespace Sys2Proof.Machine

/-- CLR: every working register to its reset value; configuration and constants untouched (R241). -/
def execClr (s : State) : Result := finish s.clearWorking

end Sys2Proof.Machine
end

