-- ==== Sys2Proof/Machine/Dispatch.lean ====
section
/-! DEFINITION. What each command does, one arm a command (spec/30_encoding.md R96). -/

namespace Sys2Proof.Machine

/-- The execution of a command to its completion (R28, R317, R318). -/
def exec (i : Instr) (s : State) : Host.Outcome State Fault Refusal :=
  match i with
  | .modadd d a b ms m => Sys2Proof.Machine.execModadd d a b ms m s
  | .modmul d a b ms m => Sys2Proof.Machine.execModmul d a b ms m s
  | .modred d a ms m => Sys2Proof.Machine.execModred d a ms m s
  | .modinv d a ms m => Sys2Proof.Machine.execModinv d a ms m s
  | .pdbl d a => Sys2Proof.Machine.execPdbl d a s
  | .padd d a b => Sys2Proof.Machine.execPadd d a b s
  | .smulg d a => Sys2Proof.Machine.execSmulg d a s
  | .compress d a => Sys2Proof.Machine.execCompress d a s
  | .hreset => Sys2Proof.Machine.execHreset s
  | .hadd a => Sys2Proof.Machine.execHadd a s
  | .hadd32 a => Sys2Proof.Machine.execHadd32 a s
  | .hfin d tr => Sys2Proof.Machine.execHfin d tr s
  | .sample d a => Sys2Proof.Machine.execSample d a s
  | .sampled d a b => Sys2Proof.Machine.execSampled d a b s
  | .b58enc d a ver => Sys2Proof.Machine.execB58enc d a ver s
  | .b58dec d a ver => Sys2Proof.Machine.execB58dec d a ver s
  | .clr => Sys2Proof.Machine.execClr s

end Sys2Proof.Machine
end

