-- ==== Sys2Proof/Machine/Port.lean ====
section
/-! DEFINITION. The host port: the address map and the two transactions (spec/20_memory.md R60 to
R69, spec/46_system_and_host_access.md R244 to R248). Reads do not depend on the model arguments; a write
of a buffer length depends on `LMAX`. -/

namespace Sys2Proof.Machine

/-! ## The address map (R64) -/

/-- One mapped word of the address space (R64). -/
inductive HostReg where
  | cmd
  | status
  | siter
  | hlen
  /-- Word `t` of constant `c`, in the order `P A B GX GY N H` (R32). -/
  | constant (c : Fin 7) (t : Fin 8)
  /-- Word `j` of `ALPHABET` (R33). -/
  | alphabet (j : Fin 15)
  | versions
  /-- Word `t` of `n[i]`. -/
  | nWord (i : NReg) (t : Fin 8)
  /-- Word `t` of `Q[j].X`. -/
  | pointX (j : QReg) (t : Fin 8)
  /-- Word `t` of `Q[j].Y`. -/
  | pointY (j : QReg) (t : Fin 8)
  /-- `Q[j].INF`. -/
  | pointInf (j : QReg)
  /-- `B[k].LEN`. -/
  | bufLen (k : BReg)
  /-- Word `t` of `B[k].DATA`. -/
  | bufData (k : BReg) (t : Fin 64)
deriving DecidableEq, Repr

/-- The byte address of a mapped word (R64). -/
def regAddr : HostReg → Nat
  | .cmd => 0x0000
  | .status => 0x0004
  | .siter => 0x0008
  | .hlen => 0x000C
  | .constant c t => 0x0100 + 0x20 * c.val + 4 * t.val
  | .alphabet j => 0x0200 + 4 * j.val
  | .versions => 0x023C
  | .nWord i t => 0x0400 + 0x20 * i.val + 4 * t.val
  | .pointX j t => 0x0800 + 0x80 * j.val + 4 * t.val
  | .pointY j t => 0x0800 + 0x80 * j.val + 0x20 + 4 * t.val
  | .pointInf j => 0x0800 + 0x80 * j.val + 0x40
  | .bufLen k => 0x1000 + 0x200 * k.val
  | .bufData k t => 0x1000 + 0x200 * k.val + 0x004 + 4 * t.val

/-- The mapped word at byte address `a`, if there is one (R62, R64): a misaligned address and every
address not in the table have none. -/
def regAtNat (a : Nat) : Option HostReg :=
  if a % 4 ≠ 0 then none
  else if a = 0x0000 then some .cmd
  else if a = 0x0004 then some .status
  else if a = 0x0008 then some .siter
  else if a = 0x000C then some .hlen
  else if 0x0100 ≤ a ∧ a < 0x01E0 then
    some (.constant (Fin.ofNat 7 ((a - 0x0100) / 0x20)) (Fin.ofNat 8 (a % 0x20 / 4)))
  else if 0x0200 ≤ a ∧ a < 0x023C then some (.alphabet (Fin.ofNat 15 ((a - 0x0200) / 4)))
  else if a = 0x023C then some .versions
  else if 0x0400 ≤ a ∧ a < 0x0500 then
    some (.nWord (Fin.ofNat 8 ((a - 0x0400) / 0x20)) (Fin.ofNat 8 (a % 0x20 / 4)))
  else if 0x0800 ≤ a ∧ a < 0x0A00 then
    if a % 0x80 < 0x20 then
      some (.pointX (Fin.ofNat 4 ((a - 0x0800) / 0x80)) (Fin.ofNat 8 (a % 0x20 / 4)))
    else if a % 0x80 < 0x40 then
      some (.pointY (Fin.ofNat 4 ((a - 0x0800) / 0x80)) (Fin.ofNat 8 (a % 0x20 / 4)))
    else if a % 0x80 = 0x40 then some (.pointInf (Fin.ofNat 4 ((a - 0x0800) / 0x80)))
    else none
  else if 0x1000 ≤ a ∧ a < 0x1800 then
    if a % 0x200 = 0 then some (.bufLen (Fin.ofNat 4 ((a - 0x1000) / 0x200)))
    else if a % 0x200 < 0x104 then
      some (.bufData (Fin.ofNat 4 ((a - 0x1000) / 0x200)) (Fin.ofNat 64 ((a % 0x200 - 4) / 4)))
    else none
  else none

/-- The mapped word at a port address (R64). -/
def regAt (a : Addr) : Option HostReg := regAtNat a.toNat

/-! ## Reads (R65, R248) -/

/-- The constants in the order of their windows (R32). -/
def constantValue (c : Fin 7) : Nat :=
  match c with
  | 0 => Config.P
  | 1 => Config.A
  | 2 => Config.B
  | 3 => Config.GX
  | 4 => Config.GY
  | 5 => Config.N
  | 6 => Config.H

/-- Byte `i` of the `ALPHABET` window: a character, then two bytes 0 (R33). -/
def alphabetByte (c : Configuration) (i : Nat) : Byte :=
  if h : i < 58 then alphabetChar c ⟨i, h⟩ else 0

/-- The value a read of a mapped word returns; no read changes state (R65, R69, R248). -/
def regValue (r : HostReg) (s : State) : Word :=
  match r with
  | .cmd => 0
  | .status => statusWord s.status
  | .siter => s.siter
  | .hlen => BitVec.ofNat 32 s.hmsg.length
  | .constant c t => bigWord (BitVec.ofNat 256 (constantValue c)) t
  | .alphabet j =>
    packWord (alphabetByte s.config (4 * j.val)) (alphabetByte s.config (4 * j.val + 1))
      (alphabetByte s.config (4 * j.val + 2)) (alphabetByte s.config (4 * j.val + 3))
  | .versions => packWord s.config.seedVersion s.config.accountVersion 0 0
  | .nWord i t => bigWord s.n[i.val] t
  | .pointX j t => bigWord (Machine.pointX (s.point j)) t
  | .pointY j t => bigWord (Machine.pointY (s.point j)) t
  | .pointInf j => pointInfWord (s.point j)
  | .bufLen k => BitVec.ofNat 32 (s.bufLen k)
  | .bufData k t =>
    packWord (s.bufData k (4 * t.val)) (s.bufData k (4 * t.val + 1)) (s.bufData k (4 * t.val + 2))
      (s.bufData k (4 * t.val + 3))

/-- `HostRead(addr)` on the state the block is in (R61, R65). -/
def hostRead (a : Addr) (s : State) : Response :=
  match regAt a with
  | none => .busError
  | some r => .data (regValue r s)

/-! ## Writes (R65, R245 to R247) -/

/-- `HostWrite(addr, v)`: the state after it and the response. A write to a read-only or unmapped
address, and a buffer length above `LMAX`, get `BusError` and change nothing (R65, R246). -/
def hostWrite (p : Parameters) (a : Addr) (v : Word) (s : State) : State × Response :=
  match regAt a with
  | some .cmd => (acceptCommand v s, .ok)
  | some (.nWord i t) => (s.setN i (setBigWord s.n[i.val] t v), .ok)
  | some (.bufLen k) =>
    if p.lmax < v.toNat then (s, .busError) else (s.setBufLen k v.toNat, .ok)
  | some (.bufData k t) => (s.setBufData k (4 * t.val) (wordBytes v), .ok)
  | _ => (s, .busError)

/-- One transaction carried out on the state the block is in (R61, R62). -/
def transact (p : Parameters) (t : Txn) (s : State) : State × Response :=
  match t with
  | .read a => (s, hostRead a s)
  | .write a v => hostWrite p a v s
  | .nonWord _ => (s, .busError)

/-- The transaction carried out and its response given to the host. -/
def answer (p : Parameters) (t : Txn) (s : State) : State :=
  { (transact p t s).1 with responses := s.responses ++ [(transact p t s).2] }

/-- The one transaction that is never held: a read of `STATUS` (R68). -/
def isStatusRead (t : Txn) : Bool := t == .read 0x0004

end Sys2Proof.Machine
end

