-- ==== Sys2Proof/Machine/Block.lean ====
section
/-! DEFINITION. One step of the whole machine: the block's own step, a port transaction, or reset
(spec/10_state.md R28, spec/20_memory.md R68, R71, spec/70_reset_and_hazards.md R350, R351, R361). -/

namespace Sys2Proof.Machine

/-- The execution of the command word `w` to completion, as one atomic transition: the decoded
command, executed by `run`, or `IllegalCommand` (R28, R97, R313). -/
def runWordBy (run : Instr → State → Result) (w : Word) (s : State) : Result :=
  match decode w with
  | .ok i => run i s
  | .error _ => raise .illegalCommand s

/-- The block's own step, "enabled exactly when `PHASE = Busy(w)`" (R28). An idle block waits: the
state stays as it is. DESIGN CHOICE (log entry 22), safe. -/
def blockStepBy (run : Instr → State → Result) (s : State) : Result :=
  match s.phase with
  | .busy w => runWordBy run w s
  | .idle => .next s

/-- `runWordBy` on this hardware. -/
def runWord (w : Word) (s : State) : Result := runWordBy exec w s

/-- The block's own step on this hardware (R28). -/
def blockStep (s : State) : Result := blockStepBy exec s

/-- Reset asserted and released with `c` on the configuration inputs: every piece of state takes its
reset value, a running command is abandoned, and a held transaction is lost, its response being a
free value (R350, R351, R352). What the host still does and what it was answered is not the block's. -/
def resetBlock (c : Configuration) (s : State) : State :=
  { State.resetWith c with
    script := s.script
    responses :=
      match s.held with
      | none => s.responses
      | some _ => s.responses ++ (Config.lostResponse s.lost).toList
    lost := if s.held.isSome then s.lost + 1 else s.lost }

/-- The host issues the transaction `t`: carried out at once when the block is idle and when `t` is a
read of `STATUS`, otherwise held unfinished by the port (R68). -/
def issueTxn (p : Parameters) (t : Txn) (s : State) : State :=
  match s.phase with
  | .idle => answer p t s
  | .busy _ => if isStatusRead t then answer p t s else { s with held := some t }

/-- One step. A reset comes first, whatever the block does. A held transaction is carried out as soon
as the block is idle, and until then the host, which has one transaction at a time, can do nothing
else but wait. Otherwise the host's next event happens; where it waits, and where its script has
ended, the block's own step runs (R61, R68, R71). The port has the model arguments `p`, and `run` is the
execution of a decoded command. -/
def advanceBy (p : Parameters) (run : Instr → State → Result) (s : State) : Result :=
  match s.script, s.held, s.phase with
  | .reset c :: rest, _, _ => .next (resetBlock c { s with script := rest })
  | _, some t, .idle => .next (answer p t { s with held := none })
  | .wait :: rest, _, _ => blockStepBy run { s with script := rest }
  | _, some _, .busy _ => blockStepBy run s
  | .txn t :: rest, none, _ => .next (issueTxn p t { s with script := rest })
  | [], none, _ => blockStepBy run s

end Sys2Proof.Machine
end

