-- ==== Sys2Proof/Machine/Step.lean ====
section
/-! DEFINITION. The machine's step, and the placing of a command where the next step runs it. -/

namespace Sys2Proof.Machine

/-- One step of the machine. -/
def step (s : State) : Host.Outcome State Fault Refusal := advanceBy hardware exec s

/-- The state in which the host has just written the command word `w` to `CMD` (R38) and does nothing
more, so that the very next step executes that command. The block keeps no program: the command
word is in `PHASE` (R28). DESIGN CHOICE (log entries 2 and 18). -/
def State.withFetchWord (s : State) (nbits w : Nat) : State :=
  acceptCommand (tableWord nbits w) { s with script := [] }

end Sys2Proof.Machine
end

