-- ==== Sys2Proof/Machine/Parametric.lean ====
section
/-! DEFINITION. The machine for any model arguments: `SHA256`, `SHA512` and `LMAX` (spec/00_scope.md R8,
R9). `exec` and `step` are this machine with the values of `hardware`; the statements say so. -/

namespace Sys2Proof.Machine

/-- The execution of a command for any model arguments (R8, R9, R28). -/
def execWith (p : Parameters) (i : Instr) (s : State) : Result :=
  match i with
  | .modadd d a b ms m => execModadd d a b ms m s
  | .modmul d a b ms m => execModmul d a b ms m s
  | .modred d a ms m => execModred d a ms m s
  | .modinv d a ms m => execModinv d a ms m s
  | .pdbl d a => execPdbl d a s
  | .padd d a b => execPadd d a b s
  | .smulg d a => execSmulg d a s
  | .compress d a => execCompressWith p d a s
  | .hreset => execHreset s
  | .hadd a => execHadd a s
  | .hadd32 a => execHadd32 a s
  | .hfin d tr => execHfinWith p d tr s
  | .sample d a => execSampleWith p d a s
  | .sampled d a b => execSampledWith p d a b s
  | .b58enc d a ver => execB58encWith p d a ver s
  | .b58dec d a ver => execB58decWith p d a ver s
  | .clr => execClr s

/-- The block's own step for any model arguments (R28). -/
def blockStepWith (p : Parameters) (s : State) : Result := blockStepBy (execWith p) s

/-- One step of the machine for any model arguments. -/
def stepWith (p : Parameters) (s : State) : Result := advanceBy p (execWith p) s

end Sys2Proof.Machine
end

