-- ==== Sys2Proof/Machine/HostSequences.lean ====
section
/-! DEFINITION. The host software that drives the block: loading and unloading of registers
(spec/46_system_and_host_access.md R249 to R251), key derivation and the Wallet facade
(spec/47_host_sequences.md R260 to R274). It adds no state and no command to the block (R5).
What these rules leave to the host is a DESIGN CHOICE (log entries 16, 25 and 26). The sequences drive the block
of any model arguments `p` (R8). -/

namespace Sys2Proof.Machine

/-! ## Host steps -/

/-- Why a host sequence fails (R271): a host error, a block error code, or a response `BusError`. -/
inductive HostError where
  /-- "empty secret/address string" (R266). -/
  | emptyInput
  /-- The decoded seed has no entropy (R263). -/
  | invalidSeedFormat
  /-- A command ended with this code in `STATUS.ERRCODE` (R250). -/
  | command (code : BitVec 8)
  /-- A port access was refused: a string too long for a buffer (R246). -/
  | busError
deriving DecidableEq, Repr

/-- A sequence of host steps: it acts on the block and answers a value or fails. -/
abbrev HostM (α : Type) := ExceptT HostError (StateM State) α

/-- The port holds every access until a running command completes; the host need not do anything for
that (R68, R250). On an idle block nothing happens. -/
def awaitIdle (p : Parameters) : HostM Unit := do
  match blockStepWith p (← get) with
  | .next s => set s
  | _ => throw .busError

/-- One `HostWrite` (R61). -/
def portWrite (p : Parameters) (a : Nat) (v : Word) : HostM Unit := do
  awaitIdle p
  let s ← get
  set (hostWrite p (BitVec.ofNat 16 a) v s).1
  if (hostWrite p (BitVec.ofNat 16 a) v s).2 = .ok then pure () else throw .busError

/-- One `HostRead` (R61); a read of `STATUS` is repeated until the block is idle (R250). -/
def portRead (p : Parameters) (a : Nat) : HostM Word := do
  awaitIdle p
  match hostRead (BitVec.ofNat 16 a) (← get) with
  | .data v => pure v
  | _ => throw .busError

/-- The command word written to `CMD`, then `STATUS` read after completion: a code other than 0 ends
the sequence (R250, R262). -/
def issue (p : Parameters) (i : Instr) : HostM Unit := do
  portWrite p (regAddr .cmd) (encode i)
  let e := (← portRead p (regAddr .status)).extractLsb' 8 8
  if e = 0 then pure () else throw (.command e)

/-- `WRITE nI, value`: the eight writes of R245 (R251). -/
def writeN (p : Parameters) (i : NReg) (v : Nat) : HostM Unit :=
  (List.finRange 8).forM fun t => portWrite p (regAddr (.nWord i t)) (bigWord (BitVec.ofNat 256 v) t)

/-- The value of eight words read most significant first (R66). -/
def wordsValue (ws : List Word) : Nat := ws.foldl (fun v w => 2 ^ 32 * v + w.toNat) 0

/-- `READ nI` (R249). -/
def readN (p : Parameters) (i : NReg) : HostM Nat := do
  let ws ← (List.finRange 8).mapM fun t => portRead p (regAddr (.nWord i t))
  pure (wordsValue ws)

/-- `READ qJ`: the three fields of a point register (R23, R248). The block keeps the coordinates below `P`,
so taking them modulo `P` changes nothing. -/
def readPoint (p : Parameters) (j : QReg) : HostM Point := do
  let inf ← portRead p (regAddr (.pointInf j))
  let xs ← (List.finRange 8).mapM fun t => portRead p (regAddr (.pointX j t))
  let ys ← (List.finRange 8).mapM fun t => portRead p (regAddr (.pointY j t))
  if inf = 0 then pure (.affine (toField (wordsValue xs)) (toField (wordsValue ys)))
  else pure .infinity

/-- Word `t` of a byte sequence to be loaded; the missing bytes of the last word, which R249 leaves to
the host, are 0. -/
def loadWord (bs : List Byte) (t : Nat) : Word :=
  packWord (bs.getD (4 * t) 0) (bs.getD (4 * t + 1) 0) (bs.getD (4 * t + 2) 0)
    (bs.getD (4 * t + 3) 0)

/-- `WRITE bK, bytes`: the length, then the data words (R249, R251). -/
def writeB (p : Parameters) (k : BReg) (bs : List Byte) : HostM Unit := do
  portWrite p (regAddr (.bufLen k)) (BitVec.ofNat 32 bs.length)
  (List.range ((bs.length + 3) / 4)).forM fun t =>
    portWrite p (regAddr (.bufLen k) + 4 + 4 * t) (loadWord bs t)

/-- `READ bK`: the length, then as many data words as it needs (R249). -/
def readB (p : Parameters) (k : BReg) : HostM (List Byte) := do
  let len ← portRead p (regAddr (.bufLen k))
  let ws ← (List.range ((len.toNat + 3) / 4)).mapM fun t => portRead p (regAddr (.bufLen k) + 4 + 4 * t)
  pure ((ws.flatMap wordBytes).take len.toNat)

/-- The seed version byte, from `VERSIONS` (R34). -/
def readSeedVersion (p : Parameters) : HostM Byte := do pure (wordByte (← portRead p (regAddr .versions)) 0)

/-- The account version byte, from `VERSIONS` (R34). -/
def readAccountVersion (p : Parameters) : HostM Byte := do pure (wordByte (← portRead p (regAddr .versions)) 1)

/-! ## Key derivation (R262) -/

/-- `DeriveKeyPair` with the entropy in `b0`: afterwards `n3` = `D`, `q1` = `D·G` and `b2` is the
compressed public key (R262). The host writes the discriminator 0 to `n2` itself. -/
def deriveKeyPair (p : Parameters) : HostM Unit := do
  writeN p 2 0
  issue p (.sample 0 0)
  issue p (.smulg 0 0)
  issue p (.compress 1 0)
  issue p (.sampled 1 1 2)
  issue p (.modadd 3 1 0 .orderN 0)
  issue p (.smulg 1 3)
  issue p (.compress 2 1)

/-! ## The Wallet facade (R265 to R270) -/

/-- `PublicKey` = "{Point}": the value of a q-register, "Derived as D·G" (R261). -/
structure PublicKey where
  point : Point
deriving DecidableEq, Repr

/-- `PrivateKey` = "{D: big integer in [1, N-1], PublicKey}" (R261). -/
structure PrivateKey where
  d : Nat
  publicKey : PublicKey
deriving DecidableEq, Repr

/-- `Wallet` = "{PrivateKey, secret string, Alphabet, account-version byte}" (R261), and with it the 33-byte
form of the public key that the host copies out of `b2` (R153, R262). It is immutable: the values are
copied out of the block. -/
structure Wallet where
  privateKey : PrivateKey
  compressed : List Byte
  secret : List Byte
  alphabet : List Byte
  accountVersion : Byte
deriving DecidableEq, Repr

/-- `FromSecret(secret)` (R266), with the failures of R263 under the block's own codes. R357 says that the host
should run CLR once the results are copied out, and calls it hygiene; the sequence does not run it, so `n3`
still holds `D` afterwards. DESIGN CHOICE (log entry 26), unsafe. -/
def fromSecret (p : Parameters) (secret : List Byte) : HostM Wallet := do
  if secret = [] then throw .emptyInput
  writeB p 1 secret
  issue p (.b58dec 0 1 (← readSeedVersion p))
  if (← readB p 0) = [] then throw .invalidSeedFormat
  deriveKeyPair p
  let d ← readN p 3
  let point ← readPoint p 1
  let compressed ← readB p 2
  let ws ← (List.finRange 15).mapM fun j => portRead p (regAddr (.alphabet j))
  let ver ← readAccountVersion p
  pure ⟨⟨d, ⟨point⟩⟩, compressed, secret, (ws.flatMap wordBytes).take 58, ver⟩

/-- `Generate()`: 16 bytes of the host's secure random source, encoded with the seed version, then
`FromSecret` (R267). `RandomBytes(n)` gives `n` bytes and has no definition in the spec, so it is an
argument (R6, 92_eei_decisions.md section 4). -/
def generate (p : Parameters) (randomBytes : (n : Nat) → Vector Byte n) : HostM Wallet := do
  writeB p 0 (randomBytes 16).toList
  issue p (.b58enc 1 0 (← readSeedVersion p))
  fromSecret p (← readB p 1)

/-- The uppercase hexadecimal digit of a value below 16 (R268). -/
def hexDigit (v : Nat) : Char := if v < 10 then Char.ofNat (0x30 + v) else Char.ofNat (0x41 + v - 10)

/-- Two uppercase hexadecimal characters a byte, high nibble first (R268). -/
def upperHex (bs : List Byte) : List Char :=
  bs.flatMap fun x => [hexDigit (x.toNat / 16), hexDigit (x.toNat % 16)]

/-- `GetPublicKey()`: "rendered as 66 uppercase hexadecimal characters" (R153, R268). -/
def getPublicKey (w : Wallet) : List Char := upperHex w.compressed

/-- `GetSecret()` (R268). -/
def getSecret (w : Wallet) : List Byte := w.secret

/-- `GetAddress()` (R269); `RIPEMD160` is a host function that the spec does not define (R302), so it
is an argument with a 20-byte result. -/
def getAddress (p : Parameters) (ripemd160 : List Byte → Vector Byte 20) (w : Wallet) : HostM (List Byte) := do
  writeB p 3 (ripemd160 (p.sha256 w.compressed)).toList
  issue p (.b58enc 3 3 w.accountVersion)
  readB p 3

/-- Whether a host sequence succeeds from a state of the block. -/
def succeeds {α : Type} (m : HostM α) (s : State) : Bool := (m.run.run s).1.isOk

/-- `IsValidSecret(secret)`: "true iff `FromSecret` would succeed" (R270). -/
def isValidSecret (p : Parameters) (secret : List Byte) (s : State) : Bool :=
  succeeds (fromSecret p secret) s

/-- The sequence behind `IsValidAddress`: one B58DEC with `ver = ACCOUNT_VERSION` (R230, R270). R270 lets an
empty address fail with the host's `EmptyInput` or with the decoder's `DecodeError`; here it goes to the
decoder and fails with `DecodeError` (R226). DESIGN CHOICE (log entry 25), safe for the boolean. -/
def decodeAddress (p : Parameters) (address : List Byte) : HostM Unit := do
  writeB p 1 address
  issue p (.b58dec 0 1 (← readAccountVersion p))

/-- `IsValidAddress(address)` (R230, R270). -/
def isValidAddress (p : Parameters) (address : List Byte) (s : State) : Bool :=
  succeeds (decodeAddress p address) s

end Sys2Proof.Machine
end

