-- ==== Sys2Proof/OpcodeTable.lean ====
section
/-! DEFINITION. spec/opcode_table.json row by row, as a second account of which words are commands
(spec/30_encoding.md R101). The decoder does not use it: a statement compares the two. -/

namespace Sys2Proof

/-- A row of the table: the words `w` with `w AND mask = match` that meet the row's constraint on
`imm` and `m` (R101). -/
structure TableRow where
  mnemonic : String
  pattern : Word
  mask : Word
  /-- The row's constraint, which a mask cannot express. -/
  constraint : Word → Bool := fun _ => true

/-- "imm in {0, 1, 2}; m = 0 unless imm = 2" (R93 a, R101). -/
def modularConstraint (w : Word) : Bool :=
  decide ((fieldImm w).toNat ≤ 2) && (fieldM w == 0 || fieldImm w == 2)

/-- "imm in {0, 1, 2}" (R93 b, R101). -/
def truncConstraint (w : Word) : Bool := decide ((fieldImm w).toNat ≤ 2)

/-- The word is the row's command (R101). -/
def TableRow.accepts (r : TableRow) (w : Word) : Bool :=
  (w &&& r.mask == r.pattern) && r.constraint w

def rowModadd : TableRow := ⟨"MODADD", 0x01000000, 0xFF8888FC, modularConstraint⟩
def rowModmul : TableRow := ⟨"MODMUL", 0x02000000, 0xFF8888FC, modularConstraint⟩
def rowModred : TableRow := ⟨"MODRED", 0x03000000, 0xFF88F8FC, modularConstraint⟩
def rowModinv : TableRow := ⟨"MODINV", 0x04000000, 0xFF88F8FC, modularConstraint⟩
def rowPdbl : TableRow := ⟨"PDBL", 0x10000000, 0xFFCCFFFF, fun _ => true⟩
def rowPadd : TableRow := ⟨"PADD", 0x11000000, 0xFFCCCFFF, fun _ => true⟩
def rowSmulg : TableRow := ⟨"SMULG", 0x12000000, 0xFFC8FFFF, fun _ => true⟩
def rowCompress : TableRow := ⟨"COMPRESS", 0x13000000, 0xFFCCFFFF, fun _ => true⟩
def rowHreset : TableRow := ⟨"HRESET", 0x20000000, 0xFFFFFFFF, fun _ => true⟩
def rowHadd : TableRow := ⟨"HADD", 0x21000000, 0xFFFCFFFF, fun _ => true⟩
def rowHadd32 : TableRow := ⟨"HADD32", 0x22000000, 0xFFF8FFFF, fun _ => true⟩
def rowHfin : TableRow := ⟨"HFIN", 0x23000000, 0xFFCFFFFC, truncConstraint⟩
def rowSample : TableRow := ⟨"SAMPLE", 0x30000000, 0xFF8CFFFF, fun _ => true⟩
def rowSampled : TableRow := ⟨"SAMPLED", 0x31000000, 0xFF8C8FFF, fun _ => true⟩
def rowB58enc : TableRow := ⟨"B58ENC", 0x40000000, 0xFFCCFF00, fun _ => true⟩
def rowB58dec : TableRow := ⟨"B58DEC", 0x41000000, 0xFFCCFF00, fun _ => true⟩
def rowClr : TableRow := ⟨"CLR", 0x7F000000, 0xFFFFFFFF, fun _ => true⟩

/-- The 17 rows, in the table's order. -/
def opcodeTable : List TableRow :=
  [rowModadd, rowModmul, rowModred, rowModinv, rowPdbl, rowPadd, rowSmulg, rowCompress, rowHreset,
    rowHadd, rowHadd32, rowHfin, rowSample, rowSampled, rowB58enc, rowB58dec, rowClr]

/-- The row of an instruction. -/
def tableRow : Instr → TableRow
  | .modadd _ _ _ _ _ => rowModadd
  | .modmul _ _ _ _ _ => rowModmul
  | .modred _ _ _ _ => rowModred
  | .modinv _ _ _ _ => rowModinv
  | .pdbl _ _ => rowPdbl
  | .padd _ _ _ => rowPadd
  | .smulg _ _ => rowSmulg
  | .compress _ _ => rowCompress
  | .hreset => rowHreset
  | .hadd _ => rowHadd
  | .hadd32 _ => rowHadd32
  | .hfin _ _ => rowHfin
  | .sample _ _ => rowSample
  | .sampled _ _ _ => rowSampled
  | .b58enc _ _ _ => rowB58enc
  | .b58dec _ _ _ => rowB58dec
  | .clr => rowClr

end Sys2Proof
end

