-- ==== Sys2Proof/Safety.lean ====
section
/-! DEFINITION. What the statements call a good state, a good end of a command and an unchanged part of
the state: the invariants the spec gives the state, and the frames of the commands. -/

namespace Sys2Proof.Machine

/-! ## Invariants of the state -/

/-- `PHASE` is `Busy(w)` for some `w` (R28). -/
def Phase.isBusy : Phase → Bool
  | .idle => false
  | .busy _ => true

/-- The relations of `STATUS` to `PHASE` and among its own fields: `BUSY` is 1 exactly when `PHASE` is
`Busy(w)`; `ERR` is 1 exactly when `ERRCODE` is not 0; a running command shows neither `DONE` nor an
error; no code above 0x0B is ever produced (R29, R38, R311). -/
def State.statusAgrees (s : State) : Bool :=
  (s.status.busy == s.phase.isBusy) && (s.status.err == (s.status.errcode != 0))
    && !(s.status.busy && (s.status.done || s.status.err)) && decide (s.status.errcode.toNat ≤ 0x0B)

/-- "every finite point in a point register satisfies `Y^2 mod P = (X^3 + 7) mod P`" (R24). -/
def State.pointsOnCurve (s : State) : Bool := s.q.all Point.onCurve

/-- "every point register always holds `INF` or a point `k·G`" (R24), `INF` being `0·G` (R143). -/
def State.pointsInGroup (s : State) : Prop :=
  ∀ j : QReg, ∃ k, k < Config.N ∧ s.point j = scalarMultiple k generator

/-- Every buffer's `LEN` is in [0, LMAX] (R25), for the `LMAX` of `p`. -/
def State.lengthsFit (p : Parameters) (s : State) : Prop := ∀ k : BReg, s.bufLen k ≤ p.lmax

/-! ## How a command ends -/

/-- Successful completion: `PHASE` is `Idle` and the whole of `STATUS` reads 0x00000002 (R317, V100). -/
def Succeeded (t : State) : Prop := t.phase = .idle ∧ statusWord t.status = 0x00000002

/-- Error completion with code `e`: `PHASE` is `Idle` and the whole of `STATUS` reads `DONE`, `ERR` and
the code in bits 15:8 (R29, R318). -/
def FailedWith (e : ErrCode) (t : State) : Prop :=
  t.phase = .idle ∧ statusWord t.status = (errByte e).setWidth 32 <<< 8 ||| 0x00000006

/-! ## Frames -/

/-- What stands outside the block is as before: no command touches the port's held transaction, the
host's script or its answers, which are the model's own fields (log entries 3 to 6). -/
def SameOutside (s t : State) : Prop :=
  t.held = s.held ∧ t.script = s.script ∧ t.responses = s.responses ∧ t.lost = s.lost

/-- Every register file, every stored byte, `HMSG`, `SITER` and the configuration are as before. -/
def SameWorking (s t : State) : Prop :=
  t.n = s.n ∧ t.q = s.q ∧ t.blen = s.blen ∧ t.mem = s.mem ∧ t.hmsg = s.hmsg ∧ t.siter = s.siter
    ∧ t.config = s.config

/-- Nothing but `STATUS` and `PHASE` differs. -/
def Unchanged (s t : State) : Prop := SameWorking s t ∧ SameOutside s t

/-- Nothing but `n[d]`, `STATUS` and `PHASE` differs; no byte is stored. -/
def OnlyN (d : NReg) (s t : State) : Prop :=
  (∀ j : NReg, j ≠ d → t.nVal j = s.nVal j) ∧ t.q = s.q ∧ t.blen = s.blen ∧ t.mem = s.mem
    ∧ t.hmsg = s.hmsg ∧ t.siter = s.siter ∧ t.config = s.config ∧ SameOutside s t

/-- Nothing but `q[d]`, `STATUS` and `PHASE` differs; no byte is stored. -/
def OnlyQ (d : QReg) (s t : State) : Prop :=
  t.n = s.n ∧ (∀ j : QReg, j ≠ d → t.point j = s.point j) ∧ t.blen = s.blen ∧ t.mem = s.mem
    ∧ t.hmsg = s.hmsg ∧ t.siter = s.siter ∧ t.config = s.config ∧ SameOutside s t

/-- Nothing but buffer `d`, `STATUS` and `PHASE` differs: every byte outside the `cap` bytes of its
`DATA`, which start at `dataAddr d 0`, reads as before. `cap` is `LMAX`. -/
def OnlyB (cap : Nat) (d : BReg) (s t : State) : Prop :=
  t.n = s.n ∧ t.q = s.q ∧ (∀ j : BReg, j ≠ d → t.bufLen j = s.bufLen j)
    ∧ (∀ a, ¬(dataAddr d 0 ≤ a ∧ a < dataAddr d 0 + cap) → t.mem.read a = s.mem.read a)
    ∧ t.hmsg = s.hmsg ∧ t.siter = s.siter ∧ t.config = s.config ∧ SameOutside s t

/-- Nothing but `HMSG`, `STATUS` and `PHASE` differs; no byte is stored. -/
def OnlyHmsg (s t : State) : Prop :=
  t.n = s.n ∧ t.q = s.q ∧ t.blen = s.blen ∧ t.mem = s.mem ∧ t.siter = s.siter ∧ t.config = s.config
    ∧ SameOutside s t

/-- Nothing but `n[d]`, `HMSG`, `SITER`, `STATUS` and `PHASE` differs; no byte is stored (R195). -/
def OnlySampled (d : NReg) (s t : State) : Prop :=
  (∀ j : NReg, j ≠ d → t.nVal j = s.nVal j) ∧ t.q = s.q ∧ t.blen = s.blen ∧ t.mem = s.mem
    ∧ t.config = s.config ∧ SameOutside s t

/-- Buffer `d` holds the byte sequence `bs`: `LEN` is its length, the bytes of `DATA` below `LEN` are
its bytes, and the bytes past it, up to `cap` = `LMAX`, are 0 (R26). -/
def Holds (cap : Nat) (d : BReg) (bs : List Byte) (t : State) : Prop :=
  t.buf d = bs ∧ t.bufLen d = bs.length ∧ ∀ i, bs.length ≤ i → i < cap → t.bufData d i = 0

/-! ## Who writes what -/

/-- The commands that write an n-register (R20). -/
def writesN : Instr → Bool
  | .modadd .. | .modmul .. | .modred .. | .modinv .. | .sample .. | .sampled .. | .clr => true
  | .pdbl .. | .padd .. | .smulg .. | .compress .. | .hreset | .hadd .. | .hadd32 .. | .hfin ..
  | .b58enc .. | .b58dec .. => false

/-- The commands that write a point register (R20, R24). -/
def writesQ : Instr → Bool
  | .pdbl .. | .padd .. | .smulg .. | .clr => true
  | .modadd .. | .modmul .. | .modred .. | .modinv .. | .compress .. | .hreset | .hadd .. | .hadd32 ..
  | .hfin .. | .sample .. | .sampled .. | .b58enc .. | .b58dec .. => false

/-- The commands that write a byte buffer (R20). -/
def writesB : Instr → Bool
  | .compress .. | .hfin .. | .b58enc .. | .b58dec .. | .clr => true
  | .modadd .. | .modmul .. | .modred .. | .modinv .. | .pdbl .. | .padd .. | .smulg .. | .hreset
  | .hadd .. | .hadd32 .. | .sample .. | .sampled .. => false

/-- The commands that write `HMSG` (R20, R35). -/
def writesHmsg : Instr → Bool
  | .hreset | .hadd .. | .hadd32 .. | .sample .. | .sampled .. | .clr => true
  | .modadd .. | .modmul .. | .modred .. | .modinv .. | .pdbl .. | .padd .. | .smulg .. | .compress ..
  | .hfin .. | .b58enc .. | .b58dec .. => false

/-- The commands that write `SITER` (R20, R37). -/
def writesSiter : Instr → Bool
  | .sample .. | .sampled .. | .clr => true
  | .modadd .. | .modmul .. | .modred .. | .modinv .. | .pdbl .. | .padd .. | .smulg .. | .compress ..
  | .hreset | .hadd .. | .hadd32 .. | .hfin .. | .b58enc .. | .b58dec .. => false

/-- The codes besides `OK` and `IllegalCommand` that a command can raise (R314). -/
def raisable : Instr → List ErrCode
  | .modadd .. | .modmul .. | .modred .. => [.modulusZero]
  | .modinv .. => [.modulusZero, .notInvertible]
  | .pdbl .. | .padd .. => []
  | .smulg .. => [.scalarRange]
  | .compress .. => [.pointAtInfinity]
  | .hreset | .hadd .. | .hfin .. => []
  | .hadd32 .. => [.operandRange]
  | .sample .. => [.derivationExhausted]
  | .sampled .. => [.operandRange, .derivationExhausted]
  | .b58enc .. => [.lengthOverflow]
  | .b58dec .. => [.decodeError, .checksumMismatch, .versionMismatch]
  | .clr => []

/-! ## The address map as ranges -/

/-- The addresses of mapped words (R62, R64): aligned, and in none of the ranges R64 calls unmapped. -/
def mappedAddress (a : Nat) : Prop :=
  a % 4 = 0 ∧ ¬(0x0010 ≤ a ∧ a ≤ 0x00FF) ∧ ¬(0x01E0 ≤ a ∧ a ≤ 0x01FF) ∧ ¬(0x0240 ≤ a ∧ a ≤ 0x03FF)
    ∧ ¬(0x0500 ≤ a ∧ a ≤ 0x07FF)
    ∧ ¬(0x0800 ≤ a ∧ a ≤ 0x09FF ∧ 0x44 ≤ a % 0x80) ∧ ¬(0x0A00 ≤ a ∧ a ≤ 0x0FFF)
    ∧ ¬(0x1000 ≤ a ∧ a ≤ 0x17FF ∧ 0x104 ≤ a % 0x200) ∧ ¬(0x1800 ≤ a)

/-- A write of `v` that R64, R65 and R246 allow at address `a`: `CMD`, an n-register word, a buffer
length not above `LMAX`, or a buffer data word. -/
def writableAddress (lmax a : Nat) (v : Word) : Prop :=
  a % 4 = 0 ∧ (a = 0x0000 ∨ (0x0400 ≤ a ∧ a ≤ 0x04FF)
    ∨ (0x1000 ≤ a ∧ a ≤ 0x17FF ∧ a % 0x200 = 0 ∧ v.toNat ≤ lmax)
    ∨ (0x1000 ≤ a ∧ a ≤ 0x17FF ∧ 4 ≤ a % 0x200 ∧ a % 0x200 ≤ 0x103))

end Sys2Proof.Machine
end

