-- ==== Sys2Proof/Certificates/Slice0/Obligations.lean ====
section
/-! DEFINITION. The statements for the provers: what the numbered rules of spec/ say the block does.

Three things in them are the model's own and rest on no rule: `s.mem.wf`, the canonical form of the stored
bytes (log entry 7), an invariant by StoredBytesStayCanonical and ResetMeetsTheInvariants; `SameOutside`,
which says that a command leaves the model's fields for the outside world alone (log entries 3 to 6); and
the fields `script`, `held` and `responses` themselves (log entries 3 to 5). -/

open Sys2Proof Sys2Proof.Machine

/-! ## Encoding (30_encoding.md) -/

/-- Decoding the encoding of a well-formed instruction gives it back (R91, R94, R96). -/
def Obligations.DecodeOfEncodeIsTheInstruction : Prop :=
  ∀ i : Instr, i.wellFormed = true → decode (encode i) = .ok i

/-- A legal word is the encoding of the well-formed instruction it decodes to: no bit of it is dropped,
so a reserved field that is not 0 makes a word illegal (R94, R95). -/
def Obligations.DecodedWordIsItsEncoding : Prop :=
  ∀ (w : Word) (i : Instr), decode w = .ok i → i.wellFormed = true ∧ encode i = w

/-- The decoder accepts exactly the words that the rows of spec/opcode_table.json and their constraints
accept, and the row of the decoded instruction is one that accepts (R94, R101). -/
def Obligations.DecoderAcceptsTheTablesWords : Prop :=
  ∀ w : Word,
    ((∃ i, decode w = .ok i) ↔ ∃ r ∈ opcodeTable, r.accepts w = true)
      ∧ ∀ i, decode w = .ok i → (tableRow i).accepts w = true

/-- The example words of 30_encoding.md section 3 decode to the commands that stand beside them. -/
def Obligations.WorkedWordsDecode : Prop :=
  decode 0x01310001 = .ok (.modadd 3 1 0 .orderN 0)
    ∧ decode 0x04250702 = .ok (.modinv 2 5 .register 7)
    ∧ decode 0x12000000 = .ok (.smulg 0 0)
    ∧ decode 0x13100000 = .ok (.compress 1 0)
    ∧ decode 0x23200001 = .ok (.hfin 2 .first32)
    ∧ decode 0x31112000 = .ok (.sampled 1 1 2)
    ∧ decode 0x41010021 = .ok (.b58dec 0 1 33)
    ∧ decode 0x7F000000 = .ok .clr

/-- When `PHASE` is `Busy(w)`, the machine's step is the block's own step, whether `w` decodes or not: when
the host does nothing more, when it waits in this step (the event is then taken from the script), and
when the port holds a transaction of its. Where `w` decodes to `i`, that step is `exec` of `i` (R28).
The block's own step is "enabled exactly when `PHASE = Busy(w)`": an idle block changes nothing, and
where the port holds nothing and the host does nothing, or waits, neither does the machine's step. The
script and the held transaction are the model's form of what stands outside the block (log entries 3 and
4), and that the idle machine steps to its own state is its choice too (log entry 22). -/
def Obligations.BusyStepExecutesTheDecodedCommand : Prop :=
  (∀ (s : State) (w : Word), s.phase = .busy w →
    (s.script = [] → step s = blockStep s)
      ∧ (∀ rest, s.script = .wait :: rest → step s = blockStep { s with script := rest })
      ∧ (∀ x y rest, s.held = some x → s.script = .txn y :: rest → step s = blockStep s)
      ∧ ∀ i : Instr, decode w = .ok i →
        blockStep s = exec i s
          ∧ (s.script = [] → step s = exec i s)
          ∧ (∀ rest, s.script = .wait :: rest → step s = exec i { s with script := rest })
          ∧ (∀ x y rest, s.held = some x → s.script = .txn y :: rest → step s = exec i s))
    ∧ ∀ s : State, s.phase = .idle →
      blockStep s = .next s
        ∧ (s.held = none → s.script = [] → step s = .next s)
        ∧ (∀ rest, s.held = none → s.script = .wait :: rest → step s = .next { s with script := rest })

/-- "Every word that rule R94 does not accept is illegal": executing it, the block's own step, is error
completion with `IllegalCommand` and changes no other state; the all-zero and the all-one word are
illegal, and so is every word with an unassigned opcode (R97, R313). -/
def Obligations.IllegalWordEndsWithIllegalCommand : Prop :=
  (∀ (s : State) (w : Word), s.phase = .busy w → (∀ i, decode w ≠ .ok i) →
      ∃ t, blockStep s = .next t ∧ Unchanged s t ∧ FailedWith .illegalCommand t)
    ∧ (∀ i, decode 0x00000000 ≠ .ok i) ∧ (∀ i, decode 0xFFFFFFFF ≠ .ok i)
    ∧ ∀ (w : Word), (let op := (fieldOp w).toNat
        op = 0x00 ∨ (0x05 ≤ op ∧ op ≤ 0x0F) ∨ (0x14 ≤ op ∧ op ≤ 0x1F) ∨ (0x24 ≤ op ∧ op ≤ 0x2F)
          ∨ (0x32 ≤ op ∧ op ≤ 0x3F) ∨ (0x42 ≤ op ∧ op ≤ 0x7E) ∨ 0x80 ≤ op) →
      ∀ i, decode w ≠ .ok i

/-! ## big_int_modular_arith (40_big_int_modular_arith.md) -/

/-- MODADD (R123): the exact sum modulo the selected modulus into `n[d]` and nothing else; a zero modulus
is `ModulusZero` and writes nothing. -/
def Obligations.ModAddResult : Prop :=
  ∀ (d a b : NReg) (ms : ModSelect) (m : NReg) (s : State),
    encode (.modadd d a b ms m)
        = commandWord 0x01 (indexField d) (indexField a) (indexField b) (indexField m) (modSelectByte ms)
      ∧ (modulus ms m s ≠ 0 → ∃ t, exec (.modadd d a b ms m) s = .next t
          ∧ t.nVal d = (s.nVal a + s.nVal b) % modulus ms m s ∧ OnlyN d s t ∧ Succeeded t)
      ∧ (modulus ms m s = 0 → ∃ t, exec (.modadd d a b ms m) s = .next t
          ∧ Unchanged s t ∧ FailedWith .modulusZero t)

/-- MODMUL (R124): the exact product modulo the selected modulus into `n[d]` and nothing else; a zero
modulus is `ModulusZero` and writes nothing. -/
def Obligations.ModMulResult : Prop :=
  ∀ (d a b : NReg) (ms : ModSelect) (m : NReg) (s : State),
    encode (.modmul d a b ms m)
        = commandWord 0x02 (indexField d) (indexField a) (indexField b) (indexField m) (modSelectByte ms)
      ∧ (modulus ms m s ≠ 0 → ∃ t, exec (.modmul d a b ms m) s = .next t
          ∧ t.nVal d = (s.nVal a * s.nVal b) % modulus ms m s ∧ OnlyN d s t ∧ Succeeded t)
      ∧ (modulus ms m s = 0 → ∃ t, exec (.modmul d a b ms m) s = .next t
          ∧ Unchanged s t ∧ FailedWith .modulusZero t)

/-- MODRED (R125): the operand modulo the selected modulus into `n[d]` and nothing else; a zero modulus is
`ModulusZero` and writes nothing. -/
def Obligations.ModRedResult : Prop :=
  ∀ (d a : NReg) (ms : ModSelect) (m : NReg) (s : State),
    encode (.modred d a ms m)
        = commandWord 0x03 (indexField d) (indexField a) 0 (indexField m) (modSelectByte ms)
      ∧ (modulus ms m s ≠ 0 → ∃ t, exec (.modred d a ms m) s = .next t
          ∧ t.nVal d = s.nVal a % modulus ms m s ∧ OnlyN d s t ∧ Succeeded t)
      ∧ (modulus ms m s = 0 → ∃ t, exec (.modred d a ms m) s = .next t
          ∧ Unchanged s t ∧ FailedWith .modulusZero t)

/-- MODINV (R126, R127): `n[d]` becomes the number `x` below the modulus with `(n[a] * x) mod mod = 1 mod
mod`; `ModulusZero` comes before `NotInvertible` (R315), and both write nothing. -/
def Obligations.ModInvResult : Prop :=
  ∀ (d a : NReg) (ms : ModSelect) (m : NReg) (s : State),
    encode (.modinv d a ms m)
        = commandWord 0x04 (indexField d) (indexField a) 0 (indexField m) (modSelectByte ms)
      ∧ (modulus ms m s ≠ 0 → Nat.gcd (s.nVal a) (modulus ms m s) = 1 →
          ∃ t, exec (.modinv d a ms m) s = .next t ∧ t.nVal d < modulus ms m s
            ∧ (s.nVal a * t.nVal d) % modulus ms m s = 1 % modulus ms m s ∧ OnlyN d s t ∧ Succeeded t)
      ∧ (modulus ms m s ≠ 0 → Nat.gcd (s.nVal a) (modulus ms m s) ≠ 1 →
          ∃ t, exec (.modinv d a ms m) s = .next t ∧ Unchanged s t ∧ FailedWith .notInvertible t)
      ∧ (modulus ms m s = 0 → ∃ t, exec (.modinv d a ms m) s = .next t
          ∧ Unchanged s t ∧ FailedWith .modulusZero t)

/-- `Inv(a, mod)` is the unique integer `x` with `0 <= x < mod` and `(a * x) mod mod = 1 mod mod` (R127). -/
def Obligations.InverseIsTheUniqueSolution : Prop :=
  ∀ a mod : Nat, 1 ≤ mod → Nat.gcd a mod = 1 →
    inv a mod < mod ∧ (a * inv a mod) % mod = 1 % mod
      ∧ ∀ x, x < mod → (a * x) % mod = 1 % mod → x = inv a mod

/-! ## The curve unit (41_secp256k1_scalar_mult.md) -/

/-- PDBL (R145): the double of `q[a]` into `q[d]` and nothing else. -/
def Obligations.PointDoubleResult : Prop :=
  ∀ (d a : QReg) (s : State),
    encode (.pdbl d a) = commandWord 0x10 (indexField d) (indexField a) 0 0 0
      ∧ ∃ t, exec (.pdbl d a) s = .next t ∧ t.point d = pointDbl (s.point a) ∧ OnlyQ d s t ∧ Succeeded t

/-- PADD (R146): the sum of `q[a]` and `q[b]` into `q[d]` and nothing else. -/
def Obligations.PointAddResult : Prop :=
  ∀ (d a b : QReg) (s : State),
    encode (.padd d a b) = commandWord 0x11 (indexField d) (indexField a) (indexField b) 0 0
      ∧ ∃ t, exec (.padd d a b) s = .next t ∧ t.point d = pointAdd (s.point a) (s.point b)
        ∧ OnlyQ d s t ∧ Succeeded t

/-- SMULG (R148): for a scalar below `N`, the point of R147's algorithm into `q[d]` and nothing else (that
this is `k·G` as R143 defines it is DoubleAndAddIsTheScalarMultiple); otherwise `ScalarRange`, and
nothing is written. -/
def Obligations.ScalarBaseMultiplyResult : Prop :=
  ∀ (d : QReg) (a : NReg) (s : State),
    encode (.smulg d a) = commandWord 0x12 (indexField d) (indexField a) 0 0 0
      ∧ (s.nVal a < Config.N → ∃ t, exec (.smulg d a) s = .next t
          ∧ t.point d = scalarBaseMul (s.nVal a) ∧ OnlyQ d s t ∧ Succeeded t)
      ∧ (Config.N ≤ s.nVal a → ∃ t, exec (.smulg d a) s = .next t
          ∧ Unchanged s t ∧ FailedWith .scalarRange t)

/-- COMPRESS (R151, R152): for a finite point, 0x02 or 0x03 by the parity of `y`, then the 32-byte
big-endian encoding of `x`, into `b[d]` and nothing else; for `INF`, `PointAtInfinity`, and nothing is
written. -/
def Obligations.CompressResult : Prop :=
  ∀ (d : BReg) (a : QReg) (s : State),
    encode (.compress d a) = commandWord 0x13 (indexField d) (indexField a) 0 0 0
      ∧ (∀ x y, s.mem.wf = true → s.point a = .affine x y →
          ∃ (t : State) (xs : List Byte), exec (.compress d a) s = .next t
            ∧ xs.length = 32 ∧ be xs = x.val
            ∧ Holds Config.lmax d ((if y.val % 2 = 0 then 0x02 else 0x03) :: xs) t ∧ OnlyB Config.lmax d s t ∧ Succeeded t)
      ∧ (s.point a = .infinity → ∃ t, exec (.compress d a) s = .next t
          ∧ Unchanged s t ∧ FailedWith .pointAtInfinity t)

/-- `Dbl` (R144): `INF` for `INF` and for `y = 0`; otherwise the point `(lam*lam - 2*x, lam*(x - x3) - y)`
modulo `P`, where `lam` is the slope `3*x*x / (2*y)` modulo `P`. -/
def Obligations.DoublingFollowsTheTangent : Prop :=
  pointDbl .infinity = .infinity
    ∧ ∀ x y : Fin Config.P,
      (y.val = 0 → pointDbl (.affine x y) = .infinity)
        ∧ (y.val ≠ 0 → ∃ (lam : Nat) (x3 y3 : Fin Config.P),
            pointDbl (.affine x y) = .affine x3 y3 ∧ lam < Config.P
              ∧ (2 * y.val * lam) % Config.P = (3 * x.val * x.val) % Config.P
              ∧ ((x3.val : Int) - (lam * lam - 2 * x.val)) % Config.P = 0
              ∧ ((y3.val : Int) - (lam * (x.val - x3.val) - y.val)) % Config.P = 0)

/-- `Add` (R144): `INF` is neutral; equal points are doubled; equal `x` with different `y` gives `INF`;
otherwise the point `(lam*lam - x1 - x2, lam*(x1 - x3) - y1)` modulo `P`, where `lam` is the slope
`(y2 - y1) / (x2 - x1)` modulo `P`. -/
def Obligations.AdditionFollowsTheChord : Prop :=
  (∀ t, pointAdd .infinity t = t) ∧ (∀ t, pointAdd t .infinity = t)
    ∧ ∀ x1 y1 x2 y2 : Fin Config.P,
      (x1 = x2 → y1 = y2 → pointAdd (.affine x1 y1) (.affine x2 y2) = pointDbl (.affine x1 y1))
        ∧ (x1 = x2 → y1 ≠ y2 → pointAdd (.affine x1 y1) (.affine x2 y2) = .infinity)
        ∧ (x1 ≠ x2 → ∃ (lam : Nat) (x3 y3 : Fin Config.P),
            pointAdd (.affine x1 y1) (.affine x2 y2) = .affine x3 y3 ∧ lam < Config.P
              ∧ (((x2.val : Int) - x1.val) * lam - (y2.val - y1.val)) % Config.P = 0
              ∧ ((x3.val : Int) - (lam * lam - x1.val - x2.val)) % Config.P = 0
              ∧ ((y3.val : Int) - (lam * (x1.val - x3.val) - y1.val)) % Config.P = 0)

/-- "`Add` is commutative" (R144), on all pairs of coordinates. -/
def Obligations.PointAdditionCommutes : Prop :=
  ∀ t u : Point, pointAdd t u = pointAdd u t

/-- `ScalarBaseMul(k) = k·G` for every `0 <= k < 2^256`: the double-and-add of R147 gives the element that
R143 defines by repeated addition. -/
def Obligations.DoubleAndAddIsTheScalarMultiple : Prop :=
  ∀ k : Nat, k < 2 ^ 256 → scalarBaseMul k = scalarMultiple k generator

/-- The checks of R31 on the constants: `P = 2^256 - 2^32 - 977`; `G` is on the curve; `(N-1)·G = (GX, P -
GY)` and `(N-1)·G + G = INF`; `GY` is even. `(N-1)·G` is computed by R147. -/
def Obligations.ConstantsPassTheirChecks : Prop :=
  Config.P = 2 ^ 256 - 2 ^ 32 - 977
    ∧ Config.GY * Config.GY % Config.P = (Config.GX * Config.GX * Config.GX + 7) % Config.P
    ∧ (∃ y : Fin Config.P, y.val = Config.P - Config.GY
        ∧ scalarBaseMul (Config.N - 1) = .affine ⟨Config.GX, by decide⟩ y)
    ∧ pointAdd (scalarBaseMul (Config.N - 1)) generator = .infinity
    ∧ Config.GY % 2 = 0

/-- Every finite point in a point register satisfies the curve equation, and every step keeps it so
(R24, R150). -/
def Obligations.PointsStayOnTheCurve : Prop :=
  ∀ s t : State, s.pointsOnCurve = true → step s = .next t → t.pointsOnCurve = true

/-- Every point register holds `INF` or a multiple `k·G` with `k` in [1, N-1], and every step keeps it so
(R24, R150). -/
def Obligations.PointsStayInTheGroup : Prop :=
  ∀ s t : State, s.pointsInGroup → step s = .next t → t.pointsInGroup

/-! ## sha512_hash_adapter (42_sha512_hash_adapter.md) -/

/-- HRESET (R172): `HMSG` becomes empty and nothing else changes. -/
def Obligations.HashResetResult : Prop :=
  ∀ s : State, encode .hreset = 0x20000000
    ∧ ∃ t, exec .hreset s = .next t ∧ t.hmsg = [] ∧ OnlyHmsg s t ∧ Succeeded t

/-- HADD (R173): the first `LEN` bytes of the buffer are appended to `HMSG` and nothing else changes. -/
def Obligations.HashAddResult : Prop :=
  ∀ (a : BReg) (s : State), encode (.hadd a) = commandWord 0x21 0 (indexField a) 0 0 0
    ∧ ∃ t, exec (.hadd a) s = .next t ∧ t.hmsg = s.hmsg ++ s.buf a ∧ OnlyHmsg s t ∧ Succeeded t

/-- HADD32 (R174): four bytes of the value, most significant first, are appended to `HMSG`; a value of
2^32 or more is `OperandRange`, and nothing is written. -/
def Obligations.HashAddWordResult : Prop :=
  ∀ (a : NReg) (s : State), encode (.hadd32 a) = commandWord 0x22 0 (indexField a) 0 0 0
    ∧ (s.nVal a < 2 ^ 32 → ∃ (t : State) (u : List Byte), exec (.hadd32 a) s = .next t
        ∧ u.length = 4 ∧ be u = s.nVal a ∧ t.hmsg = s.hmsg ++ u ∧ OnlyHmsg s t ∧ Succeeded t)
    ∧ (2 ^ 32 ≤ s.nVal a → ∃ t, exec (.hadd32 a) s = .next t
        ∧ Unchanged s t ∧ FailedWith .operandRange t)

/-- HFIN (R175): the first 64, 32 or 16 bytes of `SHA512(HMSG)` into `b[d]` and nothing else; `HMSG` is not
changed. The last clause is the same for every `SHA512` and every `LMAX` (R8, R9). -/
def Obligations.HashFinishResult : Prop :=
  ∀ (d : BReg) (tr : TruncSelect) (s : State),
    encode (.hfin d tr) = commandWord 0x23 (indexField d) 0 0 0 (truncSelectByte tr)
      ∧ (s.mem.wf = true → ∃ t, exec (.hfin d tr) s = .next t
          ∧ Holds Config.lmax d ((hashes.sha512 s.hmsg).take
              (match tr with | .whole64 => 64 | .first32 => 32 | .first16 => 16)) t
          ∧ t.bufLen d = (match tr with | .whole64 => 64 | .first32 => 32 | .first16 => 16)
          ∧ OnlyB Config.lmax d s t ∧ Succeeded t)
      ∧ (s.mem.wf = true → ∀ p : Parameters, ∃ t, execWith p (.hfin d tr) s = .next t
          ∧ Holds p.lmax d ((p.sha512 s.hmsg).take
              (match tr with | .whole64 => 64 | .first32 => 32 | .first16 => 16)) t
          ∧ OnlyB p.lmax d s t ∧ Succeeded t)

/-- "HADD of `x` then HADD of `y` leaves the same `HMSG` as one HADD of `x ++ y`" (R177). -/
def Obligations.SplitInputHashesAlike : Prop :=
  ∀ (x y xy : BReg) (s : State), s.buf xy = s.buf x ++ s.buf y →
    ∃ t u v : State, exec (.hadd x) s = .next t ∧ exec (.hadd y) t = .next u
      ∧ exec (.hadd xy) s = .next v ∧ u.hmsg = v.hmsg

/-- A host reproduces the candidate of the sampler's iteration `i` with "four or five adapter commands":
HRESET, HADD of the input bytes, HADD32 of the discriminator when there is one, HADD32 of the counter,
HFIN truncated to 32 bytes (R176). -/
def Obligations.AdapterRebuildsACandidate : Prop :=
  (∀ (data out : BReg) (ctr : NReg) (s : State), s.mem.wf = true → s.nVal ctr < 2 ^ 32 →
    ∃ t1 t2 t3 t4 : State, exec .hreset s = .next t1 ∧ exec (.hadd data) t1 = .next t2
      ∧ exec (.hadd32 ctr) t2 = .next t3 ∧ exec (.hfin out .first32) t3 = .next t4
      ∧ be (t4.buf out) = candidate hashes (s.buf data) none (s.nVal ctr))
    ∧ ∀ (data out : BReg) (disc ctr : NReg) (s : State), s.mem.wf = true →
      s.nVal disc < 2 ^ 32 → s.nVal ctr < 2 ^ 32 →
      ∃ t1 t2 t3 t4 t5 : State, exec .hreset s = .next t1 ∧ exec (.hadd data) t1 = .next t2
        ∧ exec (.hadd32 disc) t2 = .next t3 ∧ exec (.hadd32 ctr) t3 = .next t4
        ∧ exec (.hfin out .first32) t4 = .next t5
        ∧ be (t5.buf out) = candidate hashes (s.buf data) (some (s.nVal disc)) (s.nVal ctr)

/-! ## rejection_sampler (43_rejection_sampler.md) -/

/-- `ScalarFromSeed` (R192), for every choice of the hash functions: it finds `(c, i)` exactly when `i` is
the first counter value below 2^32 whose candidate, the value of the first 32 bytes of `SHA512` of the
message, is in [1, N-1], and `c` is that candidate; it is exhausted exactly when there is none. -/
def Obligations.SearchFindsTheFirstCandidate : Prop :=
  ∀ (h : HashFunctions) (data : List Byte) (disc : Option Nat),
    let cand : Nat → Nat := fun i => be ((h.sha512 (match disc with
      | none => data ++ u32be i
      | some x => data ++ u32be x ++ u32be i)).take 32)
    (∀ c i, scalarFromSeed h data disc = some (c, i) ↔
        i < 2 ^ 32 ∧ c = cand i ∧ (0 < cand i ∧ cand i < Config.N)
          ∧ ∀ j, j < i → ¬(0 < cand j ∧ cand j < Config.N))
      ∧ (scalarFromSeed h data disc = none ↔
        ∀ j, j < 2 ^ 32 → ¬(0 < cand j ∧ cand j < Config.N))

/-- SAMPLE (R193, R195): the first accepted candidate, at counter `i`, into `n[d]`, `i` into `SITER`, `HMSG`
emptied, and nothing else. -/
def Obligations.SampleResult : Prop :=
  ∀ (d : NReg) (a : BReg) (s : State),
    encode (.sample d a) = commandWord 0x30 (indexField d) (indexField a) 0 0 0
      ∧ ∀ i, i < 2 ^ 32 → accepts (candidate hashes (s.buf a) none i) = true →
        (∀ j, j < i → accepts (candidate hashes (s.buf a) none j) = false) →
        ∃ t, exec (.sample d a) s = .next t ∧ t.nVal d = candidate hashes (s.buf a) none i
          ∧ t.siter.toNat = i ∧ t.hmsg = [] ∧ OnlySampled d s t ∧ Succeeded t

/-- SAMPLED (R194, R195): as SAMPLE, with the discriminator in `n[b]` put before the counter; a
discriminator of 2^32 or more is `OperandRange`, and nothing is written. -/
def Obligations.SampleWithDiscriminatorResult : Prop :=
  ∀ (d : NReg) (a : BReg) (b : NReg) (s : State),
    encode (.sampled d a b) = commandWord 0x31 (indexField d) (indexField a) (indexField b) 0 0
      ∧ (∀ i, i < 2 ^ 32 → s.nVal b < 2 ^ 32 →
          accepts (candidate hashes (s.buf a) (some (s.nVal b)) i) = true →
          (∀ j, j < i → accepts (candidate hashes (s.buf a) (some (s.nVal b)) j) = false) →
          ∃ t, exec (.sampled d a b) s = .next t
            ∧ t.nVal d = candidate hashes (s.buf a) (some (s.nVal b)) i
            ∧ t.siter.toNat = i ∧ t.hmsg = [] ∧ OnlySampled d s t ∧ Succeeded t)
      ∧ (2 ^ 32 ≤ s.nVal b → ∃ t, exec (.sampled d a b) s = .next t
          ∧ Unchanged s t ∧ FailedWith .operandRange t)

/-- `DerivationExhausted` (R195, R196), for every choice of the hash functions: when all 2^32 candidates
are rejected, SAMPLE's and SAMPLED's common body leaves every register as it was, empties `HMSG`, sets
`SITER` to 0xFFFFFFFF and reports the code; the two commands are that body, with the hash functions of any
model arguments, and with the block's own (R8, R9). -/
def Obligations.ExhaustedSearchIsReported : Prop :=
  (∀ (h : HashFunctions) (d : NReg) (a : BReg) (disc : Option Nat) (s : State),
      (∀ i, i < 2 ^ 32 → accepts (candidate h (s.buf a) disc i) = false) →
      ∃ t, sampleCommand h d a disc s = .next t ∧ t.n = s.n ∧ t.siter = 0xFFFFFFFF ∧ t.hmsg = []
        ∧ OnlySampled d s t ∧ FailedWith .derivationExhausted t)
    ∧ (∀ d a s, exec (.sample d a) s = sampleCommand hashes d a none s)
    ∧ (∀ d a b s, s.nVal b < 2 ^ 32 →
      exec (.sampled d a b) s = sampleCommand hashes d a (some (s.nVal b)) s)
    ∧ ∀ (p : Parameters) (d : NReg) (a : BReg) (s : State),
      execWith p (.sample d a) s = sampleCommand p.toHashFunctions d a none s
        ∧ ∀ b, s.nVal b < 2 ^ 32 →
          execWith p (.sampled d a b) s = sampleCommand p.toHashFunctions d a (some (s.nVal b)) s

/-- "a value written by SAMPLE or SAMPLED is in [1, N-1]; it is a legal operand of SMULG" (R197 a). -/
def Obligations.SampledScalarIsLegal : Prop :=
  ∀ (i : Instr) (d : NReg) (s t : State),
    ((∃ a, i = .sample d a) ∨ ∃ a b, i = .sampled d a b) → exec i s = .next t →
    t.status.errcode = 0 →
    1 ≤ t.nVal d ∧ t.nVal d ≤ Config.N - 1
      ∧ ∀ q : QReg, ∃ u, exec (.smulg q d) t = .next u ∧ Succeeded u

/-! ## base58check_encoder, base58check_decoder (44, 45) -/

/-- `B58RawDecode` is the inverse of `B58Raw`, in both directions: on every byte sequence, and on every
string over the alphabet (R222), for every configuration. -/
def Obligations.RawDecodingInvertsRawEncoding : Prop :=
  ∀ c : Configuration,
    (∀ bytes : List Byte, b58RawDecode c (b58Raw c bytes) = bytes)
      ∧ ∀ str : List Byte, (∀ x ∈ str, ∃ dg, alphabetChar c dg = x) →
        b58Raw c (b58RawDecode c str) = str

/-- B58ENC (R208, R209): the Base-58 text of version byte, payload and checksum into `b[d]` and nothing
else, when it has at most 256 characters; otherwise `LengthOverflow`, and nothing is written. The last two
clauses are the same for every `SHA256` and every `LMAX` (R8, R9). -/
def Obligations.Base58EncodeResult : Prop :=
  ∀ (d a : BReg) (ver : Byte) (s : State),
    let body := ver :: s.buf a
    let str := b58Raw s.config (body ++ (hashes.sha256 (hashes.sha256 body)).take 4)
    encode (.b58enc d a ver) = commandWord 0x40 (indexField d) (indexField a) 0 0 ver
      ∧ (s.mem.wf = true → str.length ≤ 256 → ∃ t, exec (.b58enc d a ver) s = .next t
          ∧ Holds Config.lmax d str t ∧ OnlyB Config.lmax d s t ∧ Succeeded t)
      ∧ (256 < str.length → ∃ t, exec (.b58enc d a ver) s = .next t
          ∧ Unchanged s t ∧ FailedWith .lengthOverflow t)
      ∧ ∀ p : Parameters,
        let strP := b58Raw s.config (body ++ (p.sha256 (p.sha256 body)).take 4)
        (s.mem.wf = true → strP.length ≤ p.lmax → ∃ t, execWith p (.b58enc d a ver) s = .next t
            ∧ Holds p.lmax d strP t ∧ OnlyB p.lmax d s t ∧ Succeeded t)
          ∧ (p.lmax < strP.length → ∃ t, execWith p (.b58enc d a ver) s = .next t
            ∧ Unchanged s t ∧ FailedWith .lengthOverflow t)

/-- B58DEC (R223, R225): the tests in their order (a character outside the alphabet or fewer than 5
decoded bytes, then the checksum, then the version byte); otherwise the payload, without version byte
and checksum, into `b[d]` and nothing else. On any error nothing is written. -/
def Obligations.Base58DecodeResult : Prop :=
  ∀ (d a : BReg) (ver : Byte) (s : State),
    let str := s.buf a
    let legal := ∀ x ∈ str, ∃ dg, alphabetChar s.config dg = x
    let dec := b58RawDecode s.config str
    let body := dec.take (dec.length - 4)
    let sumOk := (hashes.sha256 (hashes.sha256 body)).take 4 = dec.drop (dec.length - 4)
    encode (.b58dec d a ver) = commandWord 0x41 (indexField d) (indexField a) 0 0 ver
      ∧ ((¬legal ∨ dec.length < 5) → ∃ t, exec (.b58dec d a ver) s = .next t
          ∧ Unchanged s t ∧ FailedWith .decodeError t)
      ∧ (legal → 5 ≤ dec.length → ¬sumOk → ∃ t, exec (.b58dec d a ver) s = .next t
          ∧ Unchanged s t ∧ FailedWith .checksumMismatch t)
      ∧ (legal → 5 ≤ dec.length → sumOk → dec.head? ≠ some ver →
          ∃ t, exec (.b58dec d a ver) s = .next t ∧ Unchanged s t ∧ FailedWith .versionMismatch t)
      ∧ (s.mem.wf = true → legal → 5 ≤ dec.length → sumOk → dec.head? = some ver →
          ∃ t, exec (.b58dec d a ver) s = .next t ∧ Holds Config.lmax d (body.drop 1) t ∧ OnlyB Config.lmax d s t ∧ Succeeded t)

/-- The round trip of R228: after a successful B58ENC, B58DEC of the resulting string with the same
version succeeds and returns the payload, and with any other version fails with `VersionMismatch`. The
second clause is the same for every `SHA256` and every `LMAX` (R8, R9). -/
def Obligations.EncodedPayloadDecodes : Prop :=
  (∀ (d a e : BReg) (ver : Byte) (s t : State), s.mem.wf = true → exec (.b58enc d a ver) s = .next t →
    t.status.errcode = 0 →
    (∃ u, exec (.b58dec e d ver) t = .next u ∧ u.buf e = s.buf a ∧ Succeeded u)
      ∧ ∀ ver', ver' ≠ ver → ∃ u, exec (.b58dec e d ver') t = .next u
        ∧ Unchanged t u ∧ FailedWith .versionMismatch u)
    ∧ ∀ (p : Parameters) (d a e : BReg) (ver : Byte) (s t : State), s.mem.wf = true →
      execWith p (.b58enc d a ver) s = .next t → t.status.errcode = 0 →
      (∃ u, execWith p (.b58dec e d ver) t = .next u ∧ u.buf e = s.buf a ∧ Succeeded u)
        ∧ ∀ ver', ver' ≠ ver → ∃ u, execWith p (.b58dec e d ver') t = .next u
          ∧ Unchanged t u ∧ FailedWith .versionMismatch u

/-- A single flipped bit in the decoded form of an encoded string makes decoding fail with
`ChecksumMismatch`, whatever version is expected, unless the flip is before the last 4 bytes and the
checksum of the changed bytes is the old one (R229), for every choice of the hash functions. -/
def Obligations.FlippedBitFailsTheChecksum : Prop :=
  ∀ (h : HashFunctions) (c : Configuration) (ver expected : Byte) (payload : List Byte) (pos bit : Nat),
    let good := (ver :: payload) ++ checksum4 h (ver :: payload)
    let bad := good.set pos (good.getD pos 0 ^^^ ((1 : Byte) <<< bit))
    pos < good.length → bit < 8 →
    b58CheckDecode h c expected (b58Raw c bad) = .error .checksumMismatch
      ∨ (pos < good.length - 4
          ∧ checksum4 h (bad.take (good.length - 4)) = checksum4 h (good.take (good.length - 4)))

/-- "every payload of up to 182 bytes (buffer of up to 187 bytes) fits" (R210): B58ENC of such a payload
succeeds. -/
def Obligations.ShortPayloadsFit : Prop :=
  ∀ (d a : BReg) (ver : Byte) (s : State), s.bufLen a ≤ 182 →
    ∃ t, exec (.b58enc d a ver) s = .next t ∧ Succeeded t

/-- "A string of `n` characters decodes to at most `n` bytes", so a decoded payload has at most `LMAX - 5`
bytes (R227). -/
def Obligations.DecodingNeverLengthens : Prop :=
  (∀ (c : Configuration) (str : List Byte), (b58RawDecode c str).length ≤ str.length)
    ∧ ∀ (h : HashFunctions) (ver : Byte) (a : BReg) (s : State) (payload : List Byte),
      b58CheckDecode h s.config ver (s.buf a) = .ok payload → payload.length ≤ Config.lmax - 5

/-! ## System (46_system_and_host_access.md) -/

/-- CLR (R40, R241): every register file, `HMSG` and `SITER` hold their reset values, the configuration is
not touched, and `STATUS` reads 0x00000002. -/
def Obligations.ClearResult : Prop :=
  ∀ s : State, encode .clr = 0x7F000000
    ∧ ∃ t, exec .clr s = .next t
      ∧ (∀ i, t.nVal i = 0) ∧ (∀ j, t.point j = .infinity)
      ∧ (∀ k, t.bufLen k = 0 ∧ ∀ i, t.bufData k i = 0) ∧ (∀ a, t.mem.read a = 0)
      ∧ t.hmsg = [] ∧ t.siter = 0 ∧ t.config = s.config
      ∧ SameWorking (State.resetWith s.config) t ∧ SameOutside s t ∧ Succeeded t

/-! ## Errors and completion (60_exceptions.md, 70_reset_and_hazards.md) -/

/-- Progress (R360): every step answers a next state, and the step of a busy block whose host does nothing
completes the command. So does the machine of any model arguments (R8, R9), of which `exec` and `step`
are the instance that R8 gives. -/
def Obligations.EveryStepCompletes : Prop :=
  (∀ s : State, ∃ t, step s = .next t)
    ∧ (∀ (s : State) (w : Word), s.phase = .busy w → s.script = [] →
      ∃ t, step s = .next t ∧ t.phase = .idle ∧ t.status.done = true ∧ t.status.busy = false)
    ∧ (∀ (p : Parameters) (s : State), ∃ t, stepWith p s = .next t)
    ∧ (∀ (p : Parameters) (s : State) (w : Word), s.phase = .busy w → s.script = [] →
      ∃ t, stepWith p s = .next t ∧ t.phase = .idle ∧ t.status.done = true ∧ t.status.busy = false)
    ∧ (∀ (i : Instr) (s : State), execWith hardware i s = exec i s)
    ∧ (∀ s : State, stepWith hardware s = step s)
    ∧ hardware.lmax = 256 ∧ hardware.toHashFunctions = hashes

/-- Error completion (R318): `DONE` and `ERR` are set, `BUSY` is cleared, the block is idle, no n-register,
q-register or b-buffer is written, and `HMSG` and `SITER` are unchanged, except that SAMPLE and SAMPLED
ending in `DerivationExhausted` leave `HMSG` empty and `SITER` = 0xFFFFFFFF. -/
def Obligations.FailedCommandsWriteNoDestination : Prop :=
  ∀ (i : Instr) (s t : State), exec i s = .next t → t.status.errcode ≠ 0 →
    t.status.err = true ∧ t.status.done = true ∧ t.status.busy = false ∧ t.phase = .idle
      ∧ t.n = s.n ∧ t.q = s.q ∧ t.blen = s.blen ∧ t.mem = s.mem ∧ t.config = s.config
      ∧ SameOutside s t
      ∧ (if t.status.errcode = 0x0B then
          t.hmsg = [] ∧ t.siter = 0xFFFFFFFF ∧ ((∃ d a, i = .sample d a) ∨ ∃ d a b, i = .sampled d a b)
        else t.hmsg = s.hmsg ∧ t.siter = s.siter)

/-- Which command can raise which code (R314): no command reports a code that the table does not give it. -/
def Obligations.CommandsRaiseOnlyTheirCodes : Prop :=
  ∀ (i : Instr) (s t : State), exec i s = .next t →
    t.status.errcode = 0x00 ∨ ∃ e ∈ raisable i, t.status.errcode = errByte e

/-- No command changes a register file, `HMSG` or `SITER` that the table of R20 does not name it a writer
of, and none changes the configuration. -/
def Obligations.CommandsWriteOnlyTheirRegisters : Prop :=
  ∀ (i : Instr) (s t : State), exec i s = .next t →
    t.config = s.config ∧ SameOutside s t
      ∧ (writesN i = false → t.n = s.n) ∧ (writesQ i = false → t.q = s.q)
      ∧ (writesB i = false → t.blen = s.blen ∧ t.mem = s.mem)
      ∧ (writesHmsg i = false → t.hmsg = s.hmsg) ∧ (writesSiter i = false → t.siter = s.siter)

/-- `BUSY` is 1 exactly when `PHASE` is `Busy(w)`, `ERR` exactly when `ERRCODE` is not 0, a running command
shows neither `DONE` nor an error, and no code above 0x0B is produced: every step keeps it so (R29,
R38, R311, R317, R318). -/
def Obligations.StatusStaysCoherent : Prop :=
  ∀ s t : State, s.statusAgrees = true → step s = .next t → t.statusAgrees = true

/-- Every step keeps the stored bytes in their canonical form, inside the `DATA` windows. The form is the
model's own representation (log entry 7). For any model arguments every step keeps it too, and with it
every `LEN` in [0, LMAX] (R25). -/
def Obligations.StoredBytesStayCanonical : Prop :=
  (∀ s t : State, s.mem.wf = true → step s = .next t → t.mem.wf = true)
    ∧ ∀ (p : Parameters) (s t : State), s.mem.wf = true → s.lengthsFit p → stepWith p s = .next t →
      t.mem.wf = true ∧ t.lengthsFit p

/-- The state after reset, with any configuration, meets the invariants, and has the values of R40 and
R350. -/
def Obligations.ResetMeetsTheInvariants : Prop :=
  ∀ c : Configuration, ∀ s : State, s = State.resetWith c →
    s.statusAgrees = true ∧ s.mem.wf = true ∧ s.pointsOnCurve = true ∧ s.pointsInGroup
      ∧ (∀ p : Parameters, s.lengthsFit p)
      ∧ (∀ i, s.nVal i = 0) ∧ (∀ j, s.point j = .infinity)
      ∧ (∀ k, s.bufLen k = 0 ∧ ∀ i, s.bufData k i = 0)
      ∧ s.hmsg = [] ∧ s.siter = 0 ∧ statusWord s.status = 0 ∧ s.phase = .idle ∧ s.config = c

/-! ## The host port (20_memory.md, 46_system_and_host_access.md) -/

/-- The address map (R64): every mapped word has its address, aligned and 16 bits wide, at which the map
finds it, and no other address leads to it. -/
def Obligations.AddressMapIsExact : Prop :=
  (∀ r : HostReg, regAddr r < 2 ^ 16 ∧ regAddr r % 4 = 0
      ∧ regAt (BitVec.ofNat 16 (regAddr r)) = some r)
    ∧ ∀ (a : Addr) (r : HostReg), regAt a = some r → regAddr r = a.toNat

/-- Responses (R62, R64, R65, R246, R320): a read gets `BusError` exactly outside the mapped words, a write
exactly where R65 and R246 do not allow it (a length above `LMAX` for any `LMAX` of R8), an access of
another width always, and `BusError` changes no state. That all 64 data words of a buffer stay writable
for an `LMAX` below 256 is the model's choice (log entry 14); on this hardware `LMAX` is 256. -/
def Obligations.BusErrorExactlyWhereTheMapSays : Prop :=
  (∀ (a : Addr) (s : State), hostRead a s = .busError ↔ ¬mappedAddress a.toNat)
    ∧ (∀ (p : Parameters) (a : Addr) (v : Word) (s : State),
      (hostWrite p a v s).2 = .busError ↔ ¬writableAddress p.lmax a.toNat v)
    ∧ (∀ (p : Parameters) (a : Addr) (s : State), (transact p (.nonWord a) s).2 = .busError)
    ∧ ∀ (p : Parameters) (x : Txn) (s : State),
      (transact p x s).2 = .busError → (transact p x s).1 = s

/-- After an accepted write to a word other than `CMD`, a read of that word returns the value written and
a read of every other address returns what it returned before (R71); reads change no state (R69). What
the words are: word `t` of `N[i]` is bits `255 - 32*t` to `224 - 32*t` of `n[i]`, `B[k].LEN` is the
length, and word `t` of `B[k].DATA` has bytes `4*t` to `4*t + 3`, the first in bits 31:24 (R66, R248).
What a write does: it replaces those 32 bits of `n[i]` and no other, sets the length and leaves `DATA`,
or stores those four bytes and no other (R245, R246, R247); everything else is as before. Where a clause is
for every `LMAX`, that the data words past a smaller one are stored and read back, as the first and the
last clause say, is the model's choice (log entry 14); on this hardware `LMAX` is 256. -/
def Obligations.ReadReturnsTheLastWrite : Prop :=
  (∀ (p : Parameters) (a : Addr) (v : Word) (s : State), s.mem.wf = true → a ≠ 0x0000 →
      (hostWrite p a v s).2 = .ok →
      ∀ b : Addr, hostRead b (hostWrite p a v s).1 = if b = a then .data v else hostRead b s)
    ∧ (∀ (p : Parameters) (b : Addr) (s : State), (transact p (.read b) s).1 = s)
    ∧ (∀ (s : State) (i : NReg) (t : Fin 8), ∃ w : Word,
      hostRead (BitVec.ofNat 16 (0x0400 + 0x20 * i.val + 4 * t.val)) s = .data w
        ∧ w.toNat = s.nVal i / 2 ^ (224 - 32 * t.val) % 2 ^ 32)
    ∧ (∀ (s : State) (k : BReg), ∃ w : Word,
      hostRead (BitVec.ofNat 16 (0x1000 + 0x200 * k.val)) s = .data w ∧ w.toNat = s.bufLen k)
    ∧ (∀ (s : State) (k : BReg) (t : Fin 64), ∃ w : Word,
      hostRead (BitVec.ofNat 16 (0x1000 + 0x200 * k.val + 0x004 + 4 * t.val)) s = .data w
        ∧ ∀ j : Fin 4, w.extractLsb' (24 - 8 * j.val) 8 = s.bufData k (4 * t.val + j.val))
    ∧ (∀ (p : Parameters) (s : State) (i : NReg) (t : Fin 8) (v : Word), ∃ s',
      hostWrite p (BitVec.ofNat 16 (0x0400 + 0x20 * i.val + 4 * t.val)) v s = (s', .ok)
        ∧ (∀ u : Fin 8, s'.nVal i / 2 ^ (224 - 32 * u.val) % 2 ^ 32
            = if u = t then v.toNat else s.nVal i / 2 ^ (224 - 32 * u.val) % 2 ^ 32)
        ∧ OnlyN i s s' ∧ s'.status = s.status ∧ s'.phase = s.phase)
    ∧ (∀ (p : Parameters) (s : State) (k : BReg) (v : Word), v.toNat ≤ p.lmax → ∃ s',
      hostWrite p (BitVec.ofNat 16 (0x1000 + 0x200 * k.val)) v s = (s', .ok)
        ∧ s'.bufLen k = v.toNat ∧ s'.mem = s.mem
        ∧ OnlyB 0 k s s' ∧ s'.status = s.status ∧ s'.phase = s.phase)
    ∧ ∀ (p : Parameters) (s : State) (k : BReg) (t : Fin 64) (v : Word), s.mem.wf = true → ∃ s',
      hostWrite p (BitVec.ofNat 16 (0x1000 + 0x200 * k.val + 0x004 + 4 * t.val)) v s = (s', .ok)
        ∧ (∀ j : Fin 4, s'.bufData k (4 * t.val + j.val) = v.extractLsb' (24 - 8 * j.val) 8)
        ∧ (∀ a, ¬(dataAddr k (4 * t.val) ≤ a ∧ a < dataAddr k (4 * t.val) + 4) →
            s'.mem.read a = s.mem.read a)
        ∧ s'.blen = s.blen ∧ OnlyB 256 k s s' ∧ s'.status = s.status ∧ s'.phase = s.phase

/-- The layout of `STATUS` (R29): `BUSY`, `DONE`, `ERR` in bits 0, 1, 2, `ERRCODE` in bits 15:8, and the
reserved bits 7:3 and 31:16 read as 0. -/
def Obligations.StatusRegisterLayout : Prop :=
  ∀ s : State, ∃ w : Word, hostRead 0x0004 s = .data w
    ∧ w.getLsbD 0 = s.status.busy ∧ w.getLsbD 1 = s.status.done ∧ w.getLsbD 2 = s.status.err
    ∧ w.extractLsb' 3 5 = 0 ∧ w.extractLsb' 8 8 = s.status.errcode ∧ w.extractLsb' 16 16 = 0

/-- What the other read-only registers read: `CMD` 0, `SITER`, `HLEN` = `len(HMSG) mod 2^32`, the version
bytes, the alphabet with its two bytes 0, the constants and the point registers most significant word
first, `INF` as 1 with `X` = `Y` = 0 (R23, R32 to R34, R36 to R38, R66). -/
def Obligations.ReadOnlyRegistersReadBack : Prop :=
  ∀ s : State,
    hostRead 0x0000 s = .data 0 ∧ hostRead 0x0008 s = .data s.siter
      ∧ (∃ w : Word, hostRead 0x000C s = .data w ∧ w.toNat = s.hmsg.length % 2 ^ 32)
      ∧ (∃ w : Word, hostRead 0x023C s = .data w ∧ w.extractLsb' 24 8 = s.config.seedVersion
          ∧ w.extractLsb' 16 8 = s.config.accountVersion ∧ w.extractLsb' 0 16 = 0)
      ∧ (∀ (j : Fin 15) (i : Fin 4), ∃ w : Word,
          hostRead (BitVec.ofNat 16 (0x0200 + 4 * j.val)) s = .data w
            ∧ wordByte w i = s.config.alphabet.toList.getD (4 * j.val + i.val) 0)
      ∧ (∀ c : Fin 7, ∃ ws : Fin 8 → Word,
          (∀ t, hostRead (BitVec.ofNat 16 (0x0100 + 0x20 * c.val + 4 * t.val)) s = .data (ws t))
            ∧ (List.finRange 8).foldl (fun v t => 2 ^ 32 * v + (ws t).toNat) 0
              = [Config.P, Config.A, Config.B, Config.GX, Config.GY, Config.N, Config.H].getD c.val 0)
      ∧ ∀ j : QReg, ∃ xs ys : Fin 8 → Word,
          (∀ t, hostRead (BitVec.ofNat 16 (0x0800 + 0x80 * j.val + 4 * t.val)) s = .data (xs t))
            ∧ (∀ t, hostRead (BitVec.ofNat 16 (0x0820 + 0x80 * j.val + 4 * t.val)) s = .data (ys t))
            ∧ (match s.point j with
              | .infinity => hostRead (BitVec.ofNat 16 (0x0840 + 0x80 * j.val)) s = .data 1
                  ∧ (∀ t, xs t = 0) ∧ ∀ t, ys t = 0
              | .affine x y => hostRead (BitVec.ofNat 16 (0x0840 + 0x80 * j.val)) s = .data 0
                  ∧ (List.finRange 8).foldl (fun v t => 2 ^ 32 * v + (xs t).toNat) 0 = x.val
                  ∧ (List.finRange 8).foldl (fun v t => 2 ^ 32 * v + (ys t).toNat) 0 = y.val)

/-- A host write of `w` to `CMD` (R38): on an idle block it is accepted, in one step: `PHASE` becomes
`Busy(w)`, `STATUS` reads 0x00000001 and no other state of the block changes; on a busy block it stalls:
the block changes nothing in that step and the port holds the write. A read of `CMD` returns 0. The
script, the held transaction and the responses are the model's form of the port (log entries 3 to 5). -/
def Obligations.CommandWriteIsAcceptedOrStalls : Prop :=
  ∀ (s : State) (w : Word) (rest : List Event), s.held = none →
    s.script = .txn (.write 0x0000 w) :: rest →
    (s.phase = .idle → ∃ t, step s = .next t ∧ t.phase = .busy w ∧ statusWord t.status = 0x00000001
        ∧ SameWorking s t ∧ t.held = none ∧ t.script = rest ∧ t.responses = s.responses ++ [.ok])
      ∧ (∀ v, s.phase = .busy v →
          step s = .next { s with held := some (.write 0x0000 w), script := rest })
      ∧ hostRead 0x0000 s = .data 0

/-- An idle block whose port holds nothing carries out the host's transaction, whatever it is, and gives
its response (R61, R65, R71). While `PHASE` is `Busy(w)`, a read of `STATUS` is answered at once with
0x00000001 and changes nothing, and every other transaction is held; a held transaction takes effect in
the first step after completion, on the state after completion (R68), whatever the host does next, unless
reset is asserted. The premise that `STATUS` and `PHASE` agree is the invariant of StatusStaysCoherent.
The script, the held transaction and the responses are the model's form of the port (log entries 3 to
5). -/
def Obligations.BusyPortHoldsTransactions : Prop :=
  (∀ (s : State) (x : Txn) (rest : List Event), s.phase = .idle → s.held = none →
      s.script = .txn x :: rest →
      ∃ t, step s = .next t ∧ t.script = rest ∧ t.held = none
        ∧ t.responses = s.responses ++ [(transact hardware x s).2] ∧ t.lost = s.lost
        ∧ SameWorking (transact hardware x s).1 t ∧ t.phase = (transact hardware x s).1.phase
        ∧ t.status = (transact hardware x s).1.status)
    ∧ (∀ (s : State) (w : Word) (x : Txn) (rest : List Event), s.statusAgrees = true →
      s.phase = .busy w → s.held = none → s.script = .txn x :: rest →
      (x = .read 0x0004 → step s
          = .next { s with script := rest, responses := s.responses ++ [.data 0x00000001] })
        ∧ (x ≠ .read 0x0004 → step s = .next { s with script := rest, held := some x }))
    ∧ (∀ (s : State) (w : Word) (x : Txn), s.phase = .busy w → s.held = some x →
      (∀ c rest, s.script ≠ .reset c :: rest) →
      ∃ t, step s = .next t ∧ t.phase = .idle ∧ t.held = some x ∧ t.responses = s.responses
        ∧ t.lost = s.lost
        ∧ t.script = (match s.script with | .wait :: rest => rest | events => events))
    ∧ ∀ (s : State) (x : Txn), s.phase = .idle → s.held = some x →
      (∀ c rest, s.script ≠ .reset c :: rest) →
      ∃ t, step s = .next t ∧ t.held = none ∧ t.script = s.script ∧ t.lost = s.lost
        ∧ t.responses = s.responses ++ [(transact hardware x s).2]
        ∧ SameWorking (transact hardware x s).1 t ∧ t.phase = (transact hardware x s).1.phase
        ∧ t.status = (transact hardware x s).1.status

/-- Reset (R350, R351, R352), whatever the block is doing: every piece of the block's state has its reset
value, the configuration is the one on the inputs, a running command has had no effect, and a held
transaction is lost. The script, the held transaction and the responses, which reset leaves to the host,
are the model's (log entries 3 to 6). -/
def Obligations.ResetAbandonsEverything : Prop :=
  ∀ (s : State) (c : Configuration) (rest : List Event), s.script = .reset c :: rest →
    ∃ t, step s = .next t ∧ SameWorking (State.resetWith c) t ∧ t.config = c ∧ t.phase = .idle
      ∧ statusWord t.status = 0 ∧ t.held = none ∧ t.script = rest
      ∧ (s.held = none → t.responses = s.responses)

/-- The configuration changes only at reset (R33, R34, R352): no other step changes it. Reset is an event of
the script, the model's form of the reset input (log entry 3). -/
def Obligations.ConfigurationChangesOnlyAtReset : Prop :=
  ∀ s t : State, (∀ c rest, s.script ≠ .reset c :: rest) → step s = .next t → t.config = s.config

/-! ## Host sequences (47_host_sequences.md) -/

/-- The last steps of the derivation (R262 steps 4 and 5, R264): MODADD makes `D = (perAccountScalar +
privateGen) mod N`, which is below `N`; if `D` is 0 the COMPRESS ends with `PointAtInfinity`, so a host
that checks every `ERRCODE` never returns a zero key; and if COMPRESS succeeds, `b2` is the compressed
form of the point SMULG made of `D`. -/
def Obligations.ZeroKeyNeverPasses : Prop :=
  ∀ s : State, s.mem.wf = true →
    ∃ t u v : State, exec (.modadd 3 1 0 .orderN 0) s = .next t ∧ exec (.smulg 1 3) t = .next u
      ∧ exec (.compress 2 1) u = .next v
      ∧ t.nVal 3 = (s.nVal 1 + s.nVal 0) % Config.N ∧ t.nVal 3 < Config.N
      ∧ u.point 1 = scalarBaseMul (t.nVal 3)
      ∧ (t.nVal 3 = 0 → FailedWith .pointAtInfinity v ∧ v.buf 2 = s.buf 2)
      ∧ (v.status.errcode = 0 → 0 < v.nVal 3 ∧ v.nVal 3 = t.nVal 3
          ∧ ∃ x y, scalarBaseMul (v.nVal 3) = .affine x y ∧ v.buf 2 = compressPoint x y)

/-- "an empty string to `FromSecret` returns `EmptyInput` (or equivalent) error and a null wallet", without
touching the block (R266), for all model arguments. -/
def Obligations.EmptySecretIsRefused : Prop :=
  ∀ (p : Parameters) (s : State), (fromSecret p []).run.run s = (.error .emptyInput, s)

/-- An address that `GetAddress` made is a valid address (R269, R270, R274): for every `RIPEMD160`, whose
results have 20 bytes, and for all model arguments, `IsValidAddress` of the string is true in the state it
leaves. -/
def Obligations.WalletAddressIsValid : Prop :=
  ∀ (p : Parameters) (ripemd160 : List Byte → Vector Byte 20) (w : Wallet) (s t : State)
    (address : List Byte),
    s.mem.wf = true → w.accountVersion = s.config.accountVersion →
    (getAddress p ripemd160 w).run.run s = (.ok address, t) → isValidAddress p address t = true
end

