-- ==== Sys2Proof/Laws/Bytes.lean ====
section
/-! SUPPORT. Byte sequences and integers (spec/00_scope.md R13), and the words of a 256-bit value
(spec/20_memory.md R66, spec/46_system_and_host_access.md R245). -/

namespace Sys2Proof.Machine

@[simp] theorem be_nil : be [] = 0 := rfl

/-- `BE(s ++ [x]) = 256 * BE(s) + x` (R13). -/
theorem be_concat (s : List Byte) (x : Byte) : be (s ++ [x]) = 256 * be s + x.toNat := by
  simp [be]

theorem be_lt (s : List Byte) : be s < 256 ^ s.length := by
  induction s using List.reverseRecOn with
  | nil => simp
  | append_singleton s x ih =>
    rw [be_concat, List.length_append, List.length_singleton, Nat.pow_succ]
    have := x.isLt
    omega

/-- `BEbytes_k(v)` is the sequence of length `k` whose value is `v` (R13). -/
theorem be_beBytes (k v : Nat) (h : v < 256 ^ k) : be (beBytes k v) = v := by
  induction k generalizing v with
  | zero => simp [beBytes]; omega
  | succ k ih =>
    rw [Nat.pow_succ] at h
    rw [beBytes, be_concat, ih (v / 256) (by omega), BitVec.toNat_ofNat]
    omega

/-- `MinBE(v)` has the value `v` (R13). -/
theorem be_minBeFuel (fuel v : Nat) (h : v ≤ fuel) : be (minBeFuel fuel v) = v := by
  induction fuel generalizing v with
  | zero => simp [minBeFuel]; omega
  | succ fuel ih =>
    rw [minBeFuel]
    split
    · simp [*]
    · rw [be_concat, ih (v / 256) (by omega), BitVec.toNat_ofNat]
      omega

theorem be_minBe (v : Nat) : be (minBe v) = v := be_minBeFuel v v (Nat.le_refl v)

/-- A host write of a word reads back (R245, R248). -/
theorem bigWord_setBigWord_self (v : Big) (t : Fin 8) (x : Word) :
    bigWord (setBigWord v t x) t = x := by
  refine BitVec.eq_of_getLsbD_eq fun i hi => ?_
  have ht := t.isLt
  simp only [bigWord, setBigWord, BitVec.getLsbD_extractLsb', BitVec.getLsbD_or, BitVec.getLsbD_and,
    BitVec.getLsbD_not, BitVec.getLsbD_shiftLeft, BitVec.getLsbD_setWidth]
  have h1 : 224 - 32 * t.val + i < 256 := by omega
  have h2 : ¬(224 - 32 * t.val + i < 224 - 32 * t.val) := by omega
  have h3 : 224 - 32 * t.val + i - (224 - 32 * t.val) = i := by omega
  have h4 : BitVec.getLsbD (0xFFFFFFFF : Big) i = true := by
    interval_cases i <;> rfl
  rw [h3, h4]
  simp [hi, h1, show i < 256 by omega]

/-- "and leaves the other 224 bits unchanged" (R245). -/
theorem bigWord_setBigWord_of_ne (v : Big) {t u : Fin 8} (x : Word) (h : u ≠ t) :
    bigWord (setBigWord v t x) u = bigWord v u := by
  refine BitVec.eq_of_getLsbD_eq fun i hi => ?_
  have ht := t.isLt
  have hu := u.isLt
  have hne := Fin.val_ne_of_ne h
  simp only [bigWord, setBigWord, BitVec.getLsbD_extractLsb', BitVec.getLsbD_or, BitVec.getLsbD_and,
    BitVec.getLsbD_not, BitVec.getLsbD_shiftLeft, BitVec.getLsbD_setWidth]
  have h1 : 224 - 32 * u.val + i < 256 := by omega
  by_cases hlt : 224 - 32 * u.val + i < 224 - 32 * t.val
  · simp [hi, h1, hlt]
  · have h32 : 32 ≤ 224 - 32 * u.val + i - (224 - 32 * t.val) := by omega
    have h4 : BitVec.getLsbD (0xFFFFFFFF : Big) (224 - 32 * u.val + i - (224 - 32 * t.val)) = false :=
      Nat.testBit_lt_two_pow (lt_of_lt_of_le (by decide : (0xFFFFFFFF : Nat) < 2 ^ 32)
        (Nat.pow_le_pow_right (by decide) h32))
    have h5 : x.getLsbD (224 - 32 * u.val + i - (224 - 32 * t.val)) = false :=
      BitVec.getLsbD_of_ge x _ h32
    rw [h4, h5]
    simp [hi, h1, hlt]

end Sys2Proof.Machine
end

