-- ==== Sys2Proof/Laws/Encoding.lean ====
section
/-! SUPPORT. Reading the fields of a command word written from its fields, masking such a word, and
reading an index back from its field (spec/30_encoding.md R91, R92, R101). -/

namespace Sys2Proof

section
variable (op : BitVec 8) (d a b m : BitVec 4) (imm : BitVec 8)

@[simp] theorem fieldOp_commandWord : fieldOp (commandWord op d a b m imm) = op := by
  refine BitVec.eq_of_getLsbD_eq fun i hi => ?_
  simp only [fieldOp, commandWord, BitVec.getLsbD_extractLsb', BitVec.getLsbD_append]
  interval_cases i <;> simp

@[simp] theorem fieldD_commandWord : fieldD (commandWord op d a b m imm) = d := by
  refine BitVec.eq_of_getLsbD_eq fun i hi => ?_
  simp only [fieldD, commandWord, BitVec.getLsbD_extractLsb', BitVec.getLsbD_append]
  interval_cases i <;> simp

@[simp] theorem fieldA_commandWord : fieldA (commandWord op d a b m imm) = a := by
  refine BitVec.eq_of_getLsbD_eq fun i hi => ?_
  simp only [fieldA, commandWord, BitVec.getLsbD_extractLsb', BitVec.getLsbD_append]
  interval_cases i <;> simp

@[simp] theorem fieldB_commandWord : fieldB (commandWord op d a b m imm) = b := by
  refine BitVec.eq_of_getLsbD_eq fun i hi => ?_
  simp only [fieldB, commandWord, BitVec.getLsbD_extractLsb', BitVec.getLsbD_append]
  interval_cases i <;> simp

@[simp] theorem fieldM_commandWord : fieldM (commandWord op d a b m imm) = m := by
  refine BitVec.eq_of_getLsbD_eq fun i hi => ?_
  simp only [fieldM, commandWord, BitVec.getLsbD_extractLsb', BitVec.getLsbD_append]
  interval_cases i <;> simp

@[simp] theorem fieldImm_commandWord : fieldImm (commandWord op d a b m imm) = imm := by
  refine BitVec.eq_of_getLsbD_eq fun i hi => ?_
  simp only [fieldImm, commandWord, BitVec.getLsbD_extractLsb', BitVec.getLsbD_append]
  interval_cases i <;> simp

/-- Masking a command word masks its fields one by one. -/
theorem commandWord_and (op' : BitVec 8) (d' a' b' m' : BitVec 4) (imm' : BitVec 8) :
    commandWord op d a b m imm &&& commandWord op' d' a' b' m' imm'
      = commandWord (op &&& op') (d &&& d') (a &&& a') (b &&& b') (m &&& m') (imm &&& imm') := by
  refine BitVec.eq_of_getLsbD_eq fun i hi => ?_
  simp only [commandWord, BitVec.getLsbD_and, BitVec.getLsbD_append]
  interval_cases i <;> simp

end

/-- A word is the command word of its own fields: no bit is outside the six fields (R91). -/
theorem commandWord_fields (w : Word) :
    commandWord (fieldOp w) (fieldD w) (fieldA w) (fieldB w) (fieldM w) (fieldImm w) = w := by
  refine BitVec.eq_of_getLsbD_eq fun i hi => ?_
  simp only [commandWord, fieldOp, fieldD, fieldA, fieldB, fieldM, fieldImm,
    BitVec.getLsbD_extractLsb', BitVec.getLsbD_append]
  interval_cases i <;> simp

@[simp] theorem nIndex_indexField (i : NReg) : nIndex (indexField i) = .ok i := by
  decide +revert

@[simp] theorem qIndex_indexField (i : QReg) : qIndex (indexField i) = .ok i := by
  decide +revert

@[simp] theorem bIndex_indexField (i : BReg) : bIndex (indexField i) = .ok i := by
  decide +revert

/-- An index that is in range is the field it was read from. -/
theorem indexField_of_nIndex {f : BitVec 4} {i : NReg} (h : nIndex f = .ok i) : indexField i = f := by
  decide +revert

theorem indexField_of_qIndex {f : BitVec 4} {i : QReg} (h : qIndex f = .ok i) : indexField i = f := by
  decide +revert

theorem indexField_of_bIndex {f : BitVec 4} {i : BReg} (h : bIndex f = .ok i) : indexField i = f := by
  decide +revert

/-- A modulus select that agrees with `m` is read back from its code. -/
theorem modSelectOf_modSelectByte {ms : ModSelect} {m : NReg} (h : ms.agrees m = true) :
    modSelectOf (modSelectByte ms) m = .ok ms := by
  cases ms <;> decide +revert

@[simp] theorem truncSelectOf_truncSelectByte (tr : TruncSelect) :
    truncSelectOf (truncSelectByte tr) = .ok tr := by
  cases tr <;> rfl

/-- Every opcode of the table is recognised (R94 step 1). -/
@[simp] theorem opcodeOf_opcodeByte (o : Opcode) : opcodeOf (opcodeByte o) = some o := by
  cases o <;> rfl

/-- A recognised byte is the opcode's byte. -/
theorem opcodeByte_of_opcodeOf {v : BitVec 8} {o : Opcode} (h : opcodeOf v = some o) :
    opcodeByte o = v := by
  simpa using List.find?_some h

end Sys2Proof
end

