-- ==== Sys2Proof/Laws/State.lean ====
section
/-! SUPPORT. One lemma for each field of the state under each named update, true by definition, and
what a register file reads after a register is written. -/

namespace Sys2Proof.Machine

/-! ## `setN` -/

@[simp] theorem State.setN_n (s : State) (i : NReg) (v : Big) :
    (s.setN i v).n = s.n.set i.val v := rfl
@[simp] theorem State.setN_q (s : State) (i : NReg) (v : Big) : (s.setN i v).q = s.q := rfl
@[simp] theorem State.setN_blen (s : State) (i : NReg) (v : Big) : (s.setN i v).blen = s.blen := rfl
@[simp] theorem State.setN_mem (s : State) (i : NReg) (v : Big) : (s.setN i v).mem = s.mem := rfl
@[simp] theorem State.setN_hmsg (s : State) (i : NReg) (v : Big) : (s.setN i v).hmsg = s.hmsg := rfl
@[simp] theorem State.setN_siter (s : State) (i : NReg) (v : Big) :
    (s.setN i v).siter = s.siter := rfl
@[simp] theorem State.setN_status (s : State) (i : NReg) (v : Big) :
    (s.setN i v).status = s.status := rfl
@[simp] theorem State.setN_phase (s : State) (i : NReg) (v : Big) :
    (s.setN i v).phase = s.phase := rfl
@[simp] theorem State.setN_config (s : State) (i : NReg) (v : Big) :
    (s.setN i v).config = s.config := rfl
@[simp] theorem State.setN_held (s : State) (i : NReg) (v : Big) : (s.setN i v).held = s.held := rfl
@[simp] theorem State.setN_script (s : State) (i : NReg) (v : Big) :
    (s.setN i v).script = s.script := rfl
@[simp] theorem State.setN_responses (s : State) (i : NReg) (v : Big) :
    (s.setN i v).responses = s.responses := rfl
@[simp] theorem State.setN_lost (s : State) (i : NReg) (v : Big) : (s.setN i v).lost = s.lost := rfl

/-! ## `setNVal` -/

@[simp] theorem State.setNVal_n (s : State) (i : NReg) (v : Nat) :
    (s.setNVal i v).n = s.n.set i.val (BitVec.ofNat 256 v) := rfl
@[simp] theorem State.setNVal_q (s : State) (i : NReg) (v : Nat) : (s.setNVal i v).q = s.q := rfl
@[simp] theorem State.setNVal_blen (s : State) (i : NReg) (v : Nat) :
    (s.setNVal i v).blen = s.blen := rfl
@[simp] theorem State.setNVal_mem (s : State) (i : NReg) (v : Nat) :
    (s.setNVal i v).mem = s.mem := rfl
@[simp] theorem State.setNVal_hmsg (s : State) (i : NReg) (v : Nat) :
    (s.setNVal i v).hmsg = s.hmsg := rfl
@[simp] theorem State.setNVal_siter (s : State) (i : NReg) (v : Nat) :
    (s.setNVal i v).siter = s.siter := rfl
@[simp] theorem State.setNVal_status (s : State) (i : NReg) (v : Nat) :
    (s.setNVal i v).status = s.status := rfl
@[simp] theorem State.setNVal_phase (s : State) (i : NReg) (v : Nat) :
    (s.setNVal i v).phase = s.phase := rfl
@[simp] theorem State.setNVal_config (s : State) (i : NReg) (v : Nat) :
    (s.setNVal i v).config = s.config := rfl
@[simp] theorem State.setNVal_held (s : State) (i : NReg) (v : Nat) :
    (s.setNVal i v).held = s.held := rfl
@[simp] theorem State.setNVal_script (s : State) (i : NReg) (v : Nat) :
    (s.setNVal i v).script = s.script := rfl
@[simp] theorem State.setNVal_responses (s : State) (i : NReg) (v : Nat) :
    (s.setNVal i v).responses = s.responses := rfl
@[simp] theorem State.setNVal_lost (s : State) (i : NReg) (v : Nat) :
    (s.setNVal i v).lost = s.lost := rfl

/-! ## `setPoint` -/

@[simp] theorem State.setPoint_n (s : State) (j : QReg) (p : Point) :
    (s.setPoint j p).n = s.n := rfl
@[simp] theorem State.setPoint_q (s : State) (j : QReg) (p : Point) :
    (s.setPoint j p).q = s.q.set j.val p := rfl
@[simp] theorem State.setPoint_blen (s : State) (j : QReg) (p : Point) :
    (s.setPoint j p).blen = s.blen := rfl
@[simp] theorem State.setPoint_mem (s : State) (j : QReg) (p : Point) :
    (s.setPoint j p).mem = s.mem := rfl
@[simp] theorem State.setPoint_hmsg (s : State) (j : QReg) (p : Point) :
    (s.setPoint j p).hmsg = s.hmsg := rfl
@[simp] theorem State.setPoint_siter (s : State) (j : QReg) (p : Point) :
    (s.setPoint j p).siter = s.siter := rfl
@[simp] theorem State.setPoint_status (s : State) (j : QReg) (p : Point) :
    (s.setPoint j p).status = s.status := rfl
@[simp] theorem State.setPoint_phase (s : State) (j : QReg) (p : Point) :
    (s.setPoint j p).phase = s.phase := rfl
@[simp] theorem State.setPoint_config (s : State) (j : QReg) (p : Point) :
    (s.setPoint j p).config = s.config := rfl
@[simp] theorem State.setPoint_held (s : State) (j : QReg) (p : Point) :
    (s.setPoint j p).held = s.held := rfl
@[simp] theorem State.setPoint_script (s : State) (j : QReg) (p : Point) :
    (s.setPoint j p).script = s.script := rfl
@[simp] theorem State.setPoint_responses (s : State) (j : QReg) (p : Point) :
    (s.setPoint j p).responses = s.responses := rfl
@[simp] theorem State.setPoint_lost (s : State) (j : QReg) (p : Point) :
    (s.setPoint j p).lost = s.lost := rfl

/-! ## `setBufLen` -/

@[simp] theorem State.setBufLen_n (s : State) (k : BReg) (v : Nat) :
    (s.setBufLen k v).n = s.n := rfl
@[simp] theorem State.setBufLen_q (s : State) (k : BReg) (v : Nat) :
    (s.setBufLen k v).q = s.q := rfl
@[simp] theorem State.setBufLen_mem (s : State) (k : BReg) (v : Nat) :
    (s.setBufLen k v).mem = s.mem := rfl
@[simp] theorem State.setBufLen_hmsg (s : State) (k : BReg) (v : Nat) :
    (s.setBufLen k v).hmsg = s.hmsg := rfl
@[simp] theorem State.setBufLen_siter (s : State) (k : BReg) (v : Nat) :
    (s.setBufLen k v).siter = s.siter := rfl
@[simp] theorem State.setBufLen_status (s : State) (k : BReg) (v : Nat) :
    (s.setBufLen k v).status = s.status := rfl
@[simp] theorem State.setBufLen_phase (s : State) (k : BReg) (v : Nat) :
    (s.setBufLen k v).phase = s.phase := rfl
@[simp] theorem State.setBufLen_config (s : State) (k : BReg) (v : Nat) :
    (s.setBufLen k v).config = s.config := rfl
@[simp] theorem State.setBufLen_held (s : State) (k : BReg) (v : Nat) :
    (s.setBufLen k v).held = s.held := rfl
@[simp] theorem State.setBufLen_script (s : State) (k : BReg) (v : Nat) :
    (s.setBufLen k v).script = s.script := rfl
@[simp] theorem State.setBufLen_responses (s : State) (k : BReg) (v : Nat) :
    (s.setBufLen k v).responses = s.responses := rfl
@[simp] theorem State.setBufLen_lost (s : State) (k : BReg) (v : Nat) :
    (s.setBufLen k v).lost = s.lost := rfl

/-! ## `setBufData` -/

@[simp] theorem State.setBufData_n (s : State) (k : BReg) (i : Nat) (bs : List Byte) :
    (s.setBufData k i bs).n = s.n := rfl
@[simp] theorem State.setBufData_q (s : State) (k : BReg) (i : Nat) (bs : List Byte) :
    (s.setBufData k i bs).q = s.q := rfl
@[simp] theorem State.setBufData_blen (s : State) (k : BReg) (i : Nat) (bs : List Byte) :
    (s.setBufData k i bs).blen = s.blen := rfl
@[simp] theorem State.setBufData_mem (s : State) (k : BReg) (i : Nat) (bs : List Byte) :
    (s.setBufData k i bs).mem = s.mem.writeAll (dataAddr k i) bs := rfl
@[simp] theorem State.setBufData_hmsg (s : State) (k : BReg) (i : Nat) (bs : List Byte) :
    (s.setBufData k i bs).hmsg = s.hmsg := rfl
@[simp] theorem State.setBufData_siter (s : State) (k : BReg) (i : Nat) (bs : List Byte) :
    (s.setBufData k i bs).siter = s.siter := rfl
@[simp] theorem State.setBufData_status (s : State) (k : BReg) (i : Nat) (bs : List Byte) :
    (s.setBufData k i bs).status = s.status := rfl
@[simp] theorem State.setBufData_phase (s : State) (k : BReg) (i : Nat) (bs : List Byte) :
    (s.setBufData k i bs).phase = s.phase := rfl
@[simp] theorem State.setBufData_config (s : State) (k : BReg) (i : Nat) (bs : List Byte) :
    (s.setBufData k i bs).config = s.config := rfl
@[simp] theorem State.setBufData_held (s : State) (k : BReg) (i : Nat) (bs : List Byte) :
    (s.setBufData k i bs).held = s.held := rfl
@[simp] theorem State.setBufData_script (s : State) (k : BReg) (i : Nat) (bs : List Byte) :
    (s.setBufData k i bs).script = s.script := rfl
@[simp] theorem State.setBufData_responses (s : State) (k : BReg) (i : Nat) (bs : List Byte) :
    (s.setBufData k i bs).responses = s.responses := rfl
@[simp] theorem State.setBufData_lost (s : State) (k : BReg) (i : Nat) (bs : List Byte) :
    (s.setBufData k i bs).lost = s.lost := rfl

/-! ## `setBuf` -/

@[simp] theorem State.setBuf_n (s : State) (cap : Nat) (k : BReg) (bs : List Byte) :
    (s.setBuf cap k bs).n = s.n := rfl
@[simp] theorem State.setBuf_q (s : State) (cap : Nat) (k : BReg) (bs : List Byte) :
    (s.setBuf cap k bs).q = s.q := rfl
@[simp] theorem State.setBuf_mem (s : State) (cap : Nat) (k : BReg) (bs : List Byte) :
    (s.setBuf cap k bs).mem = s.mem.writeAll (dataAddr k 0) (padToCapacity cap bs) := rfl
@[simp] theorem State.setBuf_hmsg (s : State) (cap : Nat) (k : BReg) (bs : List Byte) :
    (s.setBuf cap k bs).hmsg = s.hmsg := rfl
@[simp] theorem State.setBuf_siter (s : State) (cap : Nat) (k : BReg) (bs : List Byte) :
    (s.setBuf cap k bs).siter = s.siter := rfl
@[simp] theorem State.setBuf_status (s : State) (cap : Nat) (k : BReg) (bs : List Byte) :
    (s.setBuf cap k bs).status = s.status := rfl
@[simp] theorem State.setBuf_phase (s : State) (cap : Nat) (k : BReg) (bs : List Byte) :
    (s.setBuf cap k bs).phase = s.phase := rfl
@[simp] theorem State.setBuf_config (s : State) (cap : Nat) (k : BReg) (bs : List Byte) :
    (s.setBuf cap k bs).config = s.config := rfl
@[simp] theorem State.setBuf_held (s : State) (cap : Nat) (k : BReg) (bs : List Byte) :
    (s.setBuf cap k bs).held = s.held := rfl
@[simp] theorem State.setBuf_script (s : State) (cap : Nat) (k : BReg) (bs : List Byte) :
    (s.setBuf cap k bs).script = s.script := rfl
@[simp] theorem State.setBuf_responses (s : State) (cap : Nat) (k : BReg) (bs : List Byte) :
    (s.setBuf cap k bs).responses = s.responses := rfl
@[simp] theorem State.setBuf_lost (s : State) (cap : Nat) (k : BReg) (bs : List Byte) :
    (s.setBuf cap k bs).lost = s.lost := rfl

/-! ## `setHmsg` -/

@[simp] theorem State.setHmsg_n (s : State) (m : List Byte) : (s.setHmsg m).n = s.n := rfl
@[simp] theorem State.setHmsg_q (s : State) (m : List Byte) : (s.setHmsg m).q = s.q := rfl
@[simp] theorem State.setHmsg_blen (s : State) (m : List Byte) : (s.setHmsg m).blen = s.blen := rfl
@[simp] theorem State.setHmsg_mem (s : State) (m : List Byte) : (s.setHmsg m).mem = s.mem := rfl
@[simp] theorem State.setHmsg_hmsg (s : State) (m : List Byte) : (s.setHmsg m).hmsg = m := rfl
@[simp] theorem State.setHmsg_siter (s : State) (m : List Byte) :
    (s.setHmsg m).siter = s.siter := rfl
@[simp] theorem State.setHmsg_status (s : State) (m : List Byte) :
    (s.setHmsg m).status = s.status := rfl
@[simp] theorem State.setHmsg_phase (s : State) (m : List Byte) :
    (s.setHmsg m).phase = s.phase := rfl
@[simp] theorem State.setHmsg_config (s : State) (m : List Byte) :
    (s.setHmsg m).config = s.config := rfl
@[simp] theorem State.setHmsg_held (s : State) (m : List Byte) : (s.setHmsg m).held = s.held := rfl
@[simp] theorem State.setHmsg_script (s : State) (m : List Byte) :
    (s.setHmsg m).script = s.script := rfl
@[simp] theorem State.setHmsg_responses (s : State) (m : List Byte) :
    (s.setHmsg m).responses = s.responses := rfl
@[simp] theorem State.setHmsg_lost (s : State) (m : List Byte) : (s.setHmsg m).lost = s.lost := rfl

/-! ## `setSiter` -/

@[simp] theorem State.setSiter_n (s : State) (v : Word) : (s.setSiter v).n = s.n := rfl
@[simp] theorem State.setSiter_q (s : State) (v : Word) : (s.setSiter v).q = s.q := rfl
@[simp] theorem State.setSiter_blen (s : State) (v : Word) : (s.setSiter v).blen = s.blen := rfl
@[simp] theorem State.setSiter_mem (s : State) (v : Word) : (s.setSiter v).mem = s.mem := rfl
@[simp] theorem State.setSiter_hmsg (s : State) (v : Word) : (s.setSiter v).hmsg = s.hmsg := rfl
@[simp] theorem State.setSiter_siter (s : State) (v : Word) : (s.setSiter v).siter = v := rfl
@[simp] theorem State.setSiter_status (s : State) (v : Word) :
    (s.setSiter v).status = s.status := rfl
@[simp] theorem State.setSiter_phase (s : State) (v : Word) : (s.setSiter v).phase = s.phase := rfl
@[simp] theorem State.setSiter_config (s : State) (v : Word) :
    (s.setSiter v).config = s.config := rfl
@[simp] theorem State.setSiter_held (s : State) (v : Word) : (s.setSiter v).held = s.held := rfl
@[simp] theorem State.setSiter_script (s : State) (v : Word) :
    (s.setSiter v).script = s.script := rfl
@[simp] theorem State.setSiter_responses (s : State) (v : Word) :
    (s.setSiter v).responses = s.responses := rfl
@[simp] theorem State.setSiter_lost (s : State) (v : Word) : (s.setSiter v).lost = s.lost := rfl

/-! ## `clearWorking` -/

@[simp] theorem State.clearWorking_n (s : State) : (s.clearWorking).n = Vector.replicate 8 0 := rfl
@[simp] theorem State.clearWorking_q (s : State) :
    (s.clearWorking).q = Vector.replicate 4 .infinity := rfl
@[simp] theorem State.clearWorking_mem (s : State) : (s.clearWorking).mem = [] := rfl
@[simp] theorem State.clearWorking_hmsg (s : State) : (s.clearWorking).hmsg = [] := rfl
@[simp] theorem State.clearWorking_siter (s : State) : (s.clearWorking).siter = 0 := rfl
@[simp] theorem State.clearWorking_status (s : State) : (s.clearWorking).status = s.status := rfl
@[simp] theorem State.clearWorking_phase (s : State) : (s.clearWorking).phase = s.phase := rfl
@[simp] theorem State.clearWorking_config (s : State) : (s.clearWorking).config = s.config := rfl
@[simp] theorem State.clearWorking_held (s : State) : (s.clearWorking).held = s.held := rfl
@[simp] theorem State.clearWorking_script (s : State) : (s.clearWorking).script = s.script := rfl
@[simp] theorem State.clearWorking_responses (s : State) :
    (s.clearWorking).responses = s.responses := rfl
@[simp] theorem State.clearWorking_lost (s : State) : (s.clearWorking).lost = s.lost := rfl

/-! ## `completeWith` -/

@[simp] theorem completeWith_n (e : ErrCode) (s : State) : (completeWith e s).n = s.n := rfl
@[simp] theorem completeWith_q (e : ErrCode) (s : State) : (completeWith e s).q = s.q := rfl
@[simp] theorem completeWith_blen (e : ErrCode) (s : State) :
    (completeWith e s).blen = s.blen := rfl
@[simp] theorem completeWith_mem (e : ErrCode) (s : State) : (completeWith e s).mem = s.mem := rfl
@[simp] theorem completeWith_hmsg (e : ErrCode) (s : State) :
    (completeWith e s).hmsg = s.hmsg := rfl
@[simp] theorem completeWith_siter (e : ErrCode) (s : State) :
    (completeWith e s).siter = s.siter := rfl
@[simp] theorem completeWith_status (e : ErrCode) (s : State) :
    (completeWith e s).status = statusCompleted e := rfl
@[simp] theorem completeWith_phase (e : ErrCode) (s : State) :
    (completeWith e s).phase = .idle := rfl
@[simp] theorem completeWith_config (e : ErrCode) (s : State) :
    (completeWith e s).config = s.config := rfl
@[simp] theorem completeWith_held (e : ErrCode) (s : State) :
    (completeWith e s).held = s.held := rfl
@[simp] theorem completeWith_script (e : ErrCode) (s : State) :
    (completeWith e s).script = s.script := rfl
@[simp] theorem completeWith_responses (e : ErrCode) (s : State) :
    (completeWith e s).responses = s.responses := rfl
@[simp] theorem completeWith_lost (e : ErrCode) (s : State) :
    (completeWith e s).lost = s.lost := rfl

/-! ## `acceptCommand` -/

@[simp] theorem acceptCommand_n (w : Word) (s : State) : (acceptCommand w s).n = s.n := rfl
@[simp] theorem acceptCommand_q (w : Word) (s : State) : (acceptCommand w s).q = s.q := rfl
@[simp] theorem acceptCommand_blen (w : Word) (s : State) : (acceptCommand w s).blen = s.blen := rfl
@[simp] theorem acceptCommand_mem (w : Word) (s : State) : (acceptCommand w s).mem = s.mem := rfl
@[simp] theorem acceptCommand_hmsg (w : Word) (s : State) : (acceptCommand w s).hmsg = s.hmsg := rfl
@[simp] theorem acceptCommand_siter (w : Word) (s : State) :
    (acceptCommand w s).siter = s.siter := rfl
@[simp] theorem acceptCommand_status (w : Word) (s : State) :
    (acceptCommand w s).status = statusAccepted := rfl
@[simp] theorem acceptCommand_phase (w : Word) (s : State) :
    (acceptCommand w s).phase = .busy w := rfl
@[simp] theorem acceptCommand_config (w : Word) (s : State) :
    (acceptCommand w s).config = s.config := rfl
@[simp] theorem acceptCommand_held (w : Word) (s : State) : (acceptCommand w s).held = s.held := rfl
@[simp] theorem acceptCommand_script (w : Word) (s : State) :
    (acceptCommand w s).script = s.script := rfl
@[simp] theorem acceptCommand_responses (w : Word) (s : State) :
    (acceptCommand w s).responses = s.responses := rfl
@[simp] theorem acceptCommand_lost (w : Word) (s : State) : (acceptCommand w s).lost = s.lost := rfl

/-! ## Reading a register file after a write -/

theorem State.nVal_lt (s : State) (i : NReg) : s.nVal i < 2 ^ 256 := s.n[i.val].isLt

@[simp] theorem State.nVal_setN_self (s : State) (i : NReg) (v : Big) :
    (s.setN i v).nVal i = v.toNat := by
  simp [State.nVal]

theorem State.nVal_setN_of_ne (s : State) {i j : NReg} (v : Big) (h : j ≠ i) :
    (s.setN i v).nVal j = s.nVal j := by
  simp [State.nVal, Vector.getElem_set_ne, Fin.val_ne_of_ne h.symm]

theorem State.nVal_setNVal_self (s : State) (i : NReg) {v : Nat} (h : v < 2 ^ 256) :
    (s.setNVal i v).nVal i = v := by
  rw [State.setNVal, State.nVal_setN_self, BitVec.toNat_ofNat, Nat.mod_eq_of_lt h]

@[simp] theorem State.point_setPoint_self (s : State) (j : QReg) (p : Point) :
    (s.setPoint j p).point j = p := by
  simp [State.point]

theorem State.point_setPoint_of_ne (s : State) {i j : QReg} (p : Point) (h : j ≠ i) :
    (s.setPoint i p).point j = s.point j := by
  simp [State.point, Vector.getElem_set_ne, Fin.val_ne_of_ne h.symm]

@[simp] theorem State.bufLen_setBufLen_self (s : State) (k : BReg) (v : Nat) :
    (s.setBufLen k v).bufLen k = min v Config.bufBytes := by
  simp [State.bufLen, State.setBufLen]

theorem State.bufLen_setBufLen_of_ne (s : State) {k j : BReg} (v : Nat) (h : j ≠ k) :
    (s.setBufLen k v).bufLen j = s.bufLen j := by
  simp [State.bufLen, State.setBufLen, Vector.getElem_set_ne, Fin.val_ne_of_ne h.symm]

theorem State.bufLen_le (s : State) (k : BReg) : s.bufLen k ≤ Config.bufBytes :=
  Nat.le_of_lt_succ s.blen[k.val].isLt

@[simp] theorem State.length_buf (s : State) (k : BReg) : (s.buf k).length = s.bufLen k := by
  simp [State.buf]

end Sys2Proof.Machine
end

