-- ==== Sys2Proof/Laws/Memory.lean ====
section
/-! SUPPORT. The stored bytes: a read after a write, and that every operation keeps the canonical
form. -/

namespace Sys2Proof.Machine

/-- The addresses rise strictly. -/
abbrev Memory.Sorted (m : Memory) : Prop := m.Pairwise fun c d => c.1 < d.1

theorem Memory.wf_iff (m : Memory) :
    m.wf = true ↔ m.Sorted ∧ ∀ c ∈ m, isDataAddr c.1 = true ∧ c.2 ≠ 0 := by
  simp [Memory.wf, Memory.Sorted]

theorem Memory.Sorted.of_wf {m : Memory} (h : m.wf = true) : m.Sorted := ((m.wf_iff).1 h).1

/-- A byte below every listed address reads 0. -/
theorem Memory.read_eq_zero_of_lt (m : Memory) (x : Nat) (h : ∀ c ∈ m, x < c.1) : m.read x = 0 := by
  induction m with
  | nil => rfl
  | cons c rest ih =>
    obtain ⟨a, v⟩ := c
    have ha : x < a := h (a, v) (by simp)
    rw [Memory.read, if_neg (by omega)]
    exact ih fun d hd => h d (by simp [hd])

theorem Memory.read_consByte {rest : Memory} {x : Nat} (h : rest.read x = 0) (v : Byte) (y : Nat) :
    (Memory.consByte x v rest).read y = if y = x then v else rest.read y := by
  rw [Memory.consByte]
  split
  · rename_i hv
    split
    · rename_i hy
      rw [hy, h, hv]
    · rfl
  · rw [Memory.read]
    split
    · rename_i hy
      rw [if_pos hy.symm]
    · rename_i hy
      rw [if_neg fun e => hy e.symm]

theorem Memory.mem_consByte {x : Nat} {v : Byte} {rest : Memory} {c : Host.Cell}
    (h : c ∈ Memory.consByte x v rest) : c ∈ rest ∨ (c = (x, v) ∧ v ≠ 0) := by
  rw [Memory.consByte] at h
  split at h
  · exact .inl h
  · rename_i hv
    rcases List.mem_cons.1 h with h | h
    · exact .inr ⟨h, hv⟩
    · exact .inl h

theorem Memory.consByte_sorted {rest : Memory} (hm : rest.Sorted) {x : Nat}
    (hx : ∀ c ∈ rest, x < c.1) (v : Byte) : Memory.Sorted (Memory.consByte x v rest) := by
  rw [Memory.consByte]
  split
  · exact hm
  · exact List.pairwise_cons.2 ⟨hx, hm⟩

/-- A read after a write: the byte written, and every other byte as before. -/
theorem Memory.read_write {m : Memory} (hm : m.Sorted) (x : Nat) (v : Byte) (y : Nat) :
    (m.write x v).read y = if y = x then v else m.read y := by
  induction m with
  | nil => exact Memory.read_consByte rfl v y
  | cons c rest ih =>
    obtain ⟨a, b⟩ := c
    obtain ⟨hlt, hrest⟩ := List.pairwise_cons.1 hm
    rw [Memory.write]
    split
    · rename_i hxa
      refine Memory.read_consByte (Memory.read_eq_zero_of_lt _ x fun d hd => ?_) v y
      rcases List.mem_cons.1 hd with rfl | hd
      · exact hxa
      · exact lt_trans hxa (hlt d hd)
    · split
      · rename_i hxa
        rw [Memory.read_consByte (Memory.read_eq_zero_of_lt _ x fun d hd => hxa ▸ hlt d hd)]
        rw [Memory.read]
        split
        · rfl
        · rename_i hy
          rw [if_neg fun e => hy (hxa.trans e).symm]
      · rename_i hne
        rw [Memory.read, Memory.read]
        split
        · rename_i hay
          rw [if_neg fun e => hne (e.symm.trans hay.symm)]
        · exact ih hrest

theorem Memory.mem_write {m : Memory} {x : Nat} {v : Byte} {c : Host.Cell}
    (h : c ∈ m.write x v) : c ∈ m ∨ (c = (x, v) ∧ v ≠ 0) := by
  induction m with
  | nil => exact Memory.mem_consByte h
  | cons d rest ih =>
    obtain ⟨a, b⟩ := d
    rw [Memory.write] at h
    split at h
    · exact Memory.mem_consByte h
    · split at h
      · exact (Memory.mem_consByte h).imp (List.mem_cons_of_mem _) id
      · rcases List.mem_cons.1 h with h | h
        · exact .inl (h ▸ List.mem_cons_self)
        · exact (ih h).imp (List.mem_cons_of_mem _) id

theorem Memory.write_sorted {m : Memory} (hm : m.Sorted) (x : Nat) (v : Byte) :
    Memory.Sorted (m.write x v) := by
  induction m with
  | nil => exact Memory.consByte_sorted hm (by simp) v
  | cons c rest ih =>
    obtain ⟨a, b⟩ := c
    obtain ⟨hlt, hrest⟩ := List.pairwise_cons.1 hm
    rw [Memory.write]
    split
    · rename_i hxa
      refine Memory.consByte_sorted hm (fun d hd => ?_) v
      rcases List.mem_cons.1 hd with rfl | hd
      · exact hxa
      · exact lt_trans hxa (hlt d hd)
    · split
      · rename_i hxa
        exact Memory.consByte_sorted hrest (fun d hd => hxa ▸ hlt d hd) v
      · refine List.pairwise_cons.2 ⟨fun d hd => ?_, ih hrest⟩
        rcases Memory.mem_write hd with hd | ⟨rfl, _⟩
        · exact hlt d hd
        · show a < x
          omega

/-- A write at the address of a `DATA` byte keeps the canonical form. -/
theorem Memory.write_wf {m : Memory} (hm : m.wf = true) {x : Nat} (hx : isDataAddr x = true)
    (v : Byte) : (m.write x v).wf = true := by
  rw [Memory.wf_iff] at hm ⊢
  refine ⟨Memory.write_sorted hm.1 x v, fun c hc => ?_⟩
  rcases Memory.mem_write hc with hc | ⟨rfl, hv⟩
  · exact hm.2 c hc
  · exact ⟨hx, hv⟩

theorem Memory.writeAll_sorted {m : Memory} (hm : m.Sorted) (base : Nat) (vs : List Byte) :
    Memory.Sorted (m.writeAll base vs) := by
  induction vs generalizing m base with
  | nil => exact hm
  | cons v vs ih => exact ih (Memory.write_sorted hm base v) (base + 1)

/-- Storing a byte sequence inside a `DATA` window keeps the canonical form. -/
theorem Memory.writeAll_wf {m : Memory} (hm : m.wf = true) (base : Nat) (vs : List Byte)
    (hd : ∀ i < vs.length, isDataAddr (base + i) = true) : (m.writeAll base vs).wf = true := by
  induction vs generalizing m base with
  | nil => exact hm
  | cons v vs ih =>
    refine ih (Memory.write_wf hm (hd 0 (by simp)) v) (base + 1) fun i hi => ?_
    have := hd (i + 1) (by simpa using hi)
    rwa [show base + 1 + i = base + (i + 1) by omega]

/-- A read after storing a byte sequence: its byte inside, and every other byte as before. -/
theorem Memory.read_writeAll {m : Memory} (hm : m.Sorted) (base : Nat) (vs : List Byte) (y : Nat) :
    (m.writeAll base vs).read y
      = if base ≤ y ∧ y < base + vs.length then vs.getD (y - base) 0 else m.read y := by
  induction vs generalizing m base with
  | nil =>
    have : ¬(base ≤ y ∧ y < base + ([] : List Byte).length) := by simp
    rw [if_neg this]
    rfl
  | cons v vs ih =>
    rw [Memory.writeAll, ih (Memory.write_sorted hm base v), Memory.read_write hm]
    rcases Nat.lt_trichotomy y base with h | h | h
    · rw [if_neg (by omega), if_neg (by omega), if_neg (by omega)]
    · subst h
      rw [if_neg (by omega), if_pos rfl, if_pos (by simp)]
      simp
    · by_cases hy : y < base + 1 + vs.length
      · rw [if_pos (by omega), if_pos (by simp; omega)]
        rw [show y - base = (y - (base + 1)) + 1 by omega, List.getD_cons_succ]
      · rw [if_neg (by omega), if_neg (by omega), if_neg (by simp; omega)]

/-! ## The windows of the buffers -/

/-- Every byte of a buffer has an address of a `DATA` window (R64). -/
theorem isDataAddr_dataAddr (k : BReg) {i : Nat} (hi : i < Config.bufBytes) :
    isDataAddr (dataAddr k i) = true := by
  have hk := k.isLt
  unfold Config.bufBytes at hi
  rw [isDataAddr, decide_eq_true_eq]
  simp only [dataAddr]
  omega

theorem dataAddr_add (k : BReg) (i j : Nat) : dataAddr k i + j = dataAddr k (i + j) := by
  simp only [dataAddr]
  omega

/-- Different buffers have disjoint windows (R64). -/
theorem dataAddr_outside {k j : BReg} (h : j ≠ k) {i : Nat} (hi : i < Config.bufBytes) :
    ¬(dataAddr k 0 ≤ dataAddr j i ∧ dataAddr j i < dataAddr k 0 + Config.bufBytes) := by
  have hne := Fin.val_ne_of_ne h
  unfold Config.bufBytes at hi ⊢
  simp only [dataAddr]
  omega

/-! ## What `setBufData` and `setBuf` do -/

theorem State.setBufData_wf {s : State} (hm : s.mem.wf = true) (k : BReg) (i : Nat)
    (bs : List Byte) (h : i + bs.length ≤ Config.bufBytes) : (s.setBufData k i bs).mem.wf = true := by
  refine Memory.writeAll_wf hm _ _ fun j hj => ?_
  rw [dataAddr_add]
  exact isDataAddr_dataAddr k (by omega)

@[simp] theorem length_padToCapacity (cap : Nat) (bs : List Byte) :
    (padToCapacity cap bs).length = cap := by
  simp only [padToCapacity, List.length_append, List.length_take, List.length_replicate]
  omega

theorem State.setBuf_wf {s : State} (hm : s.mem.wf = true) {cap : Nat} (hc : cap ≤ Config.bufBytes)
    (k : BReg) (bs : List Byte) : (s.setBuf cap k bs).mem.wf = true :=
  State.setBufData_wf hm k 0 (padToCapacity cap bs) (by simpa using hc)

theorem getD_padToCapacity {cap : Nat} {bs : List Byte} (h : bs.length ≤ cap) (i : Nat) :
    (padToCapacity cap bs).getD i 0 = bs.getD i 0 := by
  rw [padToCapacity, List.take_of_length_le h]
  by_cases hi : i < bs.length
  · rw [List.getD_append _ _ _ _ hi]
  · rw [List.getD_append_right _ _ _ _ (by omega)]
    rw [List.getD_eq_default bs 0 (not_lt.1 hi), List.getD_eq_getElem?_getD, List.getElem?_replicate]
    split <;> rfl

/-- `DATA` after `b[k] <- bs`: the bytes, then 0 up to the capacity (R26). -/
theorem State.bufData_setBuf_self {s : State} (hm : s.mem.wf = true) {cap : Nat} (k : BReg)
    {bs : List Byte} (h : bs.length ≤ cap) {i : Nat} (hi : i < cap) :
    (s.setBuf cap k bs).bufData k i = bs.getD i 0 := by
  rw [State.bufData, State.setBuf_mem, Memory.read_writeAll (Memory.Sorted.of_wf hm),
    length_padToCapacity, if_pos (by simp only [dataAddr]; omega)]
  rw [show dataAddr k i - dataAddr k 0 = i by simp only [dataAddr]; omega, getD_padToCapacity h]

theorem State.bufLen_setBuf_self (s : State) (cap : Nat) (k : BReg) {bs : List Byte}
    (h : bs.length ≤ Config.bufBytes) : (s.setBuf cap k bs).bufLen k = bs.length := by
  rw [State.setBuf, State.bufLen_setBufLen_self, Nat.min_eq_left h]

/-- The value of a buffer after `b[k] <- bs` (R14, R26). -/
theorem State.buf_setBuf_self {s : State} (hm : s.mem.wf = true) {cap : Nat}
    (hc : cap ≤ Config.bufBytes) (k : BReg) {bs : List Byte} (h : bs.length ≤ cap) :
    (s.setBuf cap k bs).buf k = bs := by
  rw [State.buf, State.bufLen_setBuf_self s cap k (h.trans hc)]
  refine List.ext_getElem (by simp) fun i hi hi' => ?_
  simp only [List.getElem_map, List.getElem_range]
  rw [State.bufData_setBuf_self hm k h (lt_of_lt_of_le hi' h)]
  simp [List.getD_eq_getElem?_getD, hi']

/-- A byte outside the window of buffer `k` is as before (R26). -/
theorem State.read_setBuf_outside {s : State} (hm : s.mem.wf = true) (cap : Nat) (k : BReg)
    (bs : List Byte) {a : Nat} (ha : ¬(dataAddr k 0 ≤ a ∧ a < dataAddr k 0 + cap)) :
    (s.setBuf cap k bs).mem.read a = s.mem.read a := by
  rw [State.setBuf_mem, Memory.read_writeAll (Memory.Sorted.of_wf hm), length_padToCapacity,
    if_neg ha]

/-- The other buffers are as before. -/
theorem State.buf_setBuf_of_ne {s : State} (hm : s.mem.wf = true) {cap : Nat}
    (hc : cap ≤ Config.bufBytes) {k j : BReg} (bs : List Byte) (h : j ≠ k) :
    (s.setBuf cap k bs).buf j = s.buf j := by
  have hlen : (s.setBuf cap k bs).bufLen j = s.bufLen j := by
    rw [State.setBuf, State.bufLen_setBufLen_of_ne _ _ h]
    rfl
  rw [State.buf, State.buf, hlen]
  refine List.map_congr_left fun i hi => ?_
  have hi' : i < Config.bufBytes := lt_of_lt_of_le (List.mem_range.1 hi) (s.bufLen_le j)
  exact State.read_setBuf_outside hm cap k bs fun ⟨h0, h1⟩ =>
    dataAddr_outside h hi' ⟨h0, by omega⟩

end Sys2Proof.Machine
end

