-- ==== Sys2Proof/Laws/Ops.lean ====
section
/-! SUPPORT. What each shared operation can do, said once: if it answers a next state, then which one.
Later proofs cite these lemmas and do not unfold the operations. -/

namespace Sys2Proof.Machine

/-! ## Completion (R317, R318) -/

@[simp] theorem finish_eq (s : State) : finish s = .next (completeWith .ok s) := rfl

@[simp] theorem raise_eq (e : ErrCode) (s : State) : raise e s = .next (completeWith e s) := rfl

/-- The whole register after completion with code `e`: 0x00000002 for success, 0x00000N06 for code N
(R29, R317, R318). -/
theorem statusWord_completed (e : ErrCode) :
    statusWord (statusCompleted e)
      = (if e = .ok then 0x00000002 else (errByte e).setWidth 32 <<< 8 ||| 0x00000006 : Word) := by
  cases e <;> rfl

@[simp] theorem statusWord_accepted : statusWord statusAccepted = 0x00000001 := rfl

/-! ## Operand forms (R121, R174, R194) -/

/-- A modular command either ends with `ModulusZero` or runs its body on a nonzero modulus. -/
theorem withModulus_next {ms : ModSelect} {m : NReg} {s t : State} {body : Nat → Result}
    (h : withModulus ms m s body = .next t) :
    (modulus ms m s = 0 ∧ t = completeWith .modulusZero s)
      ∨ (modulus ms m s ≠ 0 ∧ body (modulus ms m s) = .next t) := by
  rw [withModulus] at h
  split at h
  · rename_i h0
    injection h with h
    exact .inl ⟨h0, h.symm⟩
  · rename_i h0
    exact .inr ⟨h0, h⟩

/-- A command with a 32-bit operand either ends with `OperandRange` or runs its body on a value below
2^32. -/
theorem withU32_next {i : NReg} {s t : State} {body : Nat → Result}
    (h : withU32 i s body = .next t) :
    (2 ^ 32 ≤ s.nVal i ∧ t = completeWith .operandRange s)
      ∨ (s.nVal i < 2 ^ 32 ∧ body (s.nVal i) = .next t) := by
  rw [withU32] at h
  split at h
  · rename_i h0
    injection h with h
    exact .inl ⟨h0, h.symm⟩
  · rename_i h0
    exact .inr ⟨not_le.1 h0, h⟩

/-- A sampler command ends with `DerivationExhausted` and no register written, or delivers the found
candidate and its counter; `HMSG` is empty either way (R193, R195). -/
theorem deliverSample_next {d : NReg} {r : Option (Nat × Nat)} {s t : State}
    (h : deliverSample d r s = .next t) :
    (r = none ∧ t = completeWith .derivationExhausted ((s.setHmsg []).setSiter 0xFFFFFFFF))
      ∨ ∃ c i, r = some (c, i)
        ∧ t = completeWith .ok (((s.setHmsg []).setSiter (BitVec.ofNat 32 i)).setNVal d c) := by
  cases r with
  | none =>
    injection h with h
    exact .inl ⟨rfl, h.symm⟩
  | some p =>
    obtain ⟨c, i⟩ := p
    injection h with h
    exact .inr ⟨c, i, rfl, h.symm⟩

/-! ## The port (R65) -/

/-- A host write accepts a command, stores into an n-register, a buffer length or a buffer's data, or
changes nothing and answers `BusError`. -/
theorem hostWrite_cases (p : Parameters) (a : Addr) (v : Word) (s : State) :
    (regAt a = some .cmd ∧ hostWrite p a v s = (acceptCommand v s, .ok))
      ∨ (∃ i t, regAt a = some (.nWord i t)
          ∧ hostWrite p a v s = (s.setN i (setBigWord s.n[i.val] t v), .ok))
      ∨ (∃ k, regAt a = some (.bufLen k) ∧ v.toNat ≤ p.lmax
          ∧ hostWrite p a v s = (s.setBufLen k v.toNat, .ok))
      ∨ (∃ k t, regAt a = some (.bufData k t)
          ∧ hostWrite p a v s = (s.setBufData k (4 * t.val) (wordBytes v), .ok))
      ∨ hostWrite p a v s = (s, .busError) := by
  unfold hostWrite
  split
  · exact .inl ⟨‹_›, rfl⟩
  · exact .inr (.inl ⟨_, _, ‹_›, rfl⟩)
  · split
    · exact .inr (.inr (.inr (.inr rfl)))
    · exact .inr (.inr (.inl ⟨_, ‹_›, not_lt.1 ‹_›, rfl⟩))
  · exact .inr (.inr (.inr (.inl ⟨_, _, ‹_›, rfl⟩)))
  · exact .inr (.inr (.inr (.inr rfl)))

/-- A transaction is a host write, or changes nothing (R69). -/
theorem transact_cases (p : Parameters) (t : Txn) (s : State) :
    (∃ a v, t = .write a v ∧ (transact p t s).1 = (hostWrite p a v s).1) ∨ (transact p t s).1 = s := by
  cases t with
  | read a => exact .inr rfl
  | write a v => exact .inl ⟨a, v, rfl, rfl⟩
  | nonWord a => exact .inr rfl

/-! ## The step (R28, R68, R350) -/

/-- Executing a word executes the decoded command, or ends with `IllegalCommand`. -/
theorem runWordBy_next {run : Instr → State → Result} {w : Word} {s t : State}
    (h : runWordBy run w s = .next t) :
    (∃ i, decode w = .ok i ∧ run i s = .next t)
      ∨ ((∀ i, decode w ≠ .ok i) ∧ t = completeWith .illegalCommand s) := by
  rw [runWordBy] at h
  split at h
  · exact .inl ⟨_, ‹_›, h⟩
  · rename_i e he
    injection h with h
    exact .inr ⟨fun i hi => by simp [he] at hi, h.symm⟩

/-- The block's own step executes the word of a busy block, and leaves an idle block as it is. -/
theorem blockStepBy_next {run : Instr → State → Result} {s t : State}
    (h : blockStepBy run s = .next t) :
    (∃ w, s.phase = .busy w ∧ runWordBy run w s = .next t) ∨ (s.phase = .idle ∧ t = s) := by
  rw [blockStepBy] at h
  split at h
  · exact .inl ⟨_, ‹_›, h⟩
  · injection h with h
    exact .inr ⟨‹_›, h.symm⟩

/-- Everything a step can do: reset, a transaction (a held one or the host's next), or the block's own
step with the script as it was or shortened. -/
theorem advanceBy_next {p : Parameters} {run : Instr → State → Result} {s t : State}
    (h : advanceBy p run s = .next t) :
    (∃ c rest, s.script = .reset c :: rest ∧ t = resetBlock c { s with script := rest })
      ∨ (∃ x, s.held = some x ∧ s.phase = .idle ∧ t = answer p x { s with held := none })
      ∨ (∃ x rest, s.script = .txn x :: rest ∧ s.held = none
          ∧ t = issueTxn p x { s with script := rest })
      ∨ (∃ rest, s.script = .wait :: rest ∧ blockStepBy run { s with script := rest } = .next t)
      ∨ blockStepBy run s = .next t := by
  unfold advanceBy at h
  split at h
  · injection h with h
    exact .inl ⟨_, _, ‹_›, h.symm⟩
  · injection h with h
    exact .inr (.inl ⟨_, ‹_›, ‹_›, h.symm⟩)
  · exact .inr (.inr (.inr (.inl ⟨_, ‹_›, h⟩)))
  · exact .inr (.inr (.inr (.inr h)))
  · injection h with h
    exact .inr (.inr (.inl ⟨_, _, ‹_›, ‹_›, h.symm⟩))
  · exact .inr (.inr (.inr (.inr h)))

/-! ## The model arguments (R8, R9) -/

/-- The machine with the values of R8 executes commands as `exec` does. -/
theorem execWith_hardware (i : Instr) (s : State) : execWith hardware i s = exec i s := by
  cases i <;> rfl

/-- The machine with the values of R8 steps as `step` does. -/
theorem stepWith_hardware (s : State) : stepWith hardware s = step s := by
  rw [stepWith, step, show execWith hardware = exec from funext₂ execWith_hardware]

end Sys2Proof.Machine
end

