-- ==== Sys2Proof/Laws/PerInstr.lean ====
section
/-! SUPPORT. Statements for all instructions, made one instruction at a time: the word of a well-formed
instruction is accepted by its row of spec/opcode_table.json (spec/30_encoding.md R101). -/

namespace Sys2Proof.Laws.EncodeMatchesTable

/-- The encoding of `i` meets the mask, the pattern and the constraint of its row. -/
def Statement (i : Instr) : Prop := i.wellFormed = true → (tableRow i).accepts (encode i) = true

/-- A masked index field of an n-register is 0: its upper bit is (R92). -/
theorem n_and (i : NReg) : indexField i &&& (0x8 : BitVec 4) = 0 := by decide +revert

/-- A masked index field of a q-register or a b-buffer is 0: its upper two bits are (R92). -/
theorem q_and (i : Fin 4) : indexField i &&& (0xC : BitVec 4) = 0 := by decide +revert

/-- The code of a modulus select meets the mask and the constraint of the modular rows. -/
theorem modular_ok (op : BitVec 8) (d a b : BitVec 4) (ms : ModSelect) (m : NReg)
    (h : ms.agrees m = true) :
    modularConstraint (commandWord op d a b (indexField m) (modSelectByte ms)) = true := by
  simp only [modularConstraint, fieldImm_commandWord, fieldM_commandWord]
  cases ms <;> revert h <;> decide +revert

theorem ms_and (ms : ModSelect) : modSelectByte ms &&& (0xFC : BitVec 8) = 0 := by cases ms <;> rfl

theorem tr_and (tr : TruncSelect) : truncSelectByte tr &&& (0xFC : BitVec 8) = 0 := by cases tr <;> rfl

theorem accepts_of (r : TableRow) (w mask : Word) (hm : r.mask = mask) (hw : w &&& mask = r.pattern)
    (hc : r.constraint w = true) : r.accepts w = true := by
  simp [TableRow.accepts, hm, hw, hc]

theorem modadd (d a b : NReg) (ms : ModSelect) (m : NReg) : Statement (.modadd d a b ms m) :=
  fun h => accepts_of _ _ (commandWord 0xFF 0x8 0x8 0x8 0x8 0xFC) rfl
    (by rw [encode, commandWord_and, n_and, n_and, n_and, n_and, ms_and]; rfl) (modular_ok _ _ _ _ ms m h)

theorem modmul (d a b : NReg) (ms : ModSelect) (m : NReg) : Statement (.modmul d a b ms m) :=
  fun h => accepts_of _ _ (commandWord 0xFF 0x8 0x8 0x8 0x8 0xFC) rfl
    (by rw [encode, commandWord_and, n_and, n_and, n_and, n_and, ms_and]; rfl) (modular_ok _ _ _ _ ms m h)

theorem modred (d a : NReg) (ms : ModSelect) (m : NReg) : Statement (.modred d a ms m) :=
  fun h => accepts_of _ _ (commandWord 0xFF 0x8 0x8 0xF 0x8 0xFC) rfl
    (by rw [encode, commandWord_and, n_and, n_and, n_and, ms_and]; rfl) (modular_ok _ _ _ _ ms m h)

theorem modinv (d a : NReg) (ms : ModSelect) (m : NReg) : Statement (.modinv d a ms m) :=
  fun h => accepts_of _ _ (commandWord 0xFF 0x8 0x8 0xF 0x8 0xFC) rfl
    (by rw [encode, commandWord_and, n_and, n_and, n_and, ms_and]; rfl) (modular_ok _ _ _ _ ms m h)

theorem pdbl (d a : QReg) : Statement (.pdbl d a) :=
  fun _ => accepts_of _ _ (commandWord 0xFF 0xC 0xC 0xF 0xF 0xFF) rfl
    (by rw [encode, commandWord_and, q_and, q_and]; rfl) rfl

theorem padd (d a b : QReg) : Statement (.padd d a b) :=
  fun _ => accepts_of _ _ (commandWord 0xFF 0xC 0xC 0xC 0xF 0xFF) rfl
    (by rw [encode, commandWord_and, q_and, q_and, q_and]; rfl) rfl

theorem smulg (d : QReg) (a : NReg) : Statement (.smulg d a) :=
  fun _ => accepts_of _ _ (commandWord 0xFF 0xC 0x8 0xF 0xF 0xFF) rfl
    (by rw [encode, commandWord_and, q_and, n_and]; rfl) rfl

theorem compress (d : BReg) (a : QReg) : Statement (.compress d a) :=
  fun _ => accepts_of _ _ (commandWord 0xFF 0xC 0xC 0xF 0xF 0xFF) rfl
    (by rw [encode, commandWord_and, q_and, q_and]; rfl) rfl

theorem hreset : Statement .hreset := fun _ => by decide

theorem hadd (a : BReg) : Statement (.hadd a) :=
  fun _ => accepts_of _ _ (commandWord 0xFF 0xF 0xC 0xF 0xF 0xFF) rfl
    (by rw [encode, commandWord_and, q_and]; rfl) rfl

theorem hadd32 (a : NReg) : Statement (.hadd32 a) :=
  fun _ => accepts_of _ _ (commandWord 0xFF 0xF 0x8 0xF 0xF 0xFF) rfl
    (by rw [encode, commandWord_and, n_and]; rfl) rfl

theorem hfin (d : BReg) (tr : TruncSelect) : Statement (.hfin d tr) :=
  fun _ => accepts_of _ _ (commandWord 0xFF 0xC 0xF 0xF 0xF 0xFC) rfl
    (by rw [encode, commandWord_and, q_and, tr_and]; rfl)
    (by show truncConstraint _ = true; rw [encode, truncConstraint, fieldImm_commandWord]; cases tr <;> rfl)

theorem sample (d : NReg) (a : BReg) : Statement (.sample d a) :=
  fun _ => accepts_of _ _ (commandWord 0xFF 0x8 0xC 0xF 0xF 0xFF) rfl
    (by rw [encode, commandWord_and, n_and, q_and]; rfl) rfl

theorem sampled (d : NReg) (a : BReg) (b : NReg) : Statement (.sampled d a b) :=
  fun _ => accepts_of _ _ (commandWord 0xFF 0x8 0xC 0x8 0xF 0xFF) rfl
    (by rw [encode, commandWord_and, n_and, q_and, n_and]; rfl) rfl

theorem b58enc (d a : BReg) (ver : Byte) : Statement (.b58enc d a ver) :=
  fun _ => accepts_of _ _ (commandWord 0xFF 0xC 0xC 0xF 0xF 0x00) rfl
    (by rw [encode, commandWord_and, q_and, q_and, show ver &&& 0 = 0 from BitVec.and_zero]; rfl) rfl

theorem b58dec (d a : BReg) (ver : Byte) : Statement (.b58dec d a ver) :=
  fun _ => accepts_of _ _ (commandWord 0xFF 0xC 0xC 0xF 0xF 0x00) rfl
    (by rw [encode, commandWord_and, q_and, q_and, show ver &&& 0 = 0 from BitVec.and_zero]; rfl) rfl

theorem clr : Statement .clr := fun _ => by decide

end Sys2Proof.Laws.EncodeMatchesTable
end

