-- ==== Sys2Proof/Tests/Slice0.lean ====
section
/-! SUPPORT. The model's own tests: words and values of spec/ (30_encoding.md section 3, 48_hash_primitives.md
R301, the vectors V100 to V734 of 95_test_vectors.md), the refused terms of WellFormed, and for every
statement with hypotheses a state and operands that meet them. -/

namespace Sys2Proof.Tests

open Sys2Proof Sys2Proof.Machine

-- One theorem after the other: a hundred kernel evaluations at once ask for too many threads.
set_option Elab.async false

/-! ## Small states and one-step checks -/

/-- The reset state with some n-registers loaded. -/
def nums (l : List (NReg × Nat)) : State := l.foldl (fun s p => s.setNVal p.1 p.2) State.reset

/-- The state with `bs` loaded in buffer `k`, as a host loads it. -/
def load (k : BReg) (bs : List Byte) (s : State) : State :=
  (s.setBufData k 0 bs).setBufLen k bs.length

/-- The state in which `w` was accepted (R38). -/
def busyWith (w : Word) (s : State) : State := acceptCommand w s

/-- The answer is a next state that passes `p`. -/
def check (r : Result) (p : State → Bool) : Bool :=
  match r with
  | .next t => p t
  | .fault _ => false
  | .refused _ => false

theorem next_of_check {r : Result} {p : State → Bool} (h : check r p = true) :
    ∃ t, r = .next t ∧ p t = true := by
  cases r with
  | next t => exact ⟨t, rfl, h⟩
  | fault _ => cases h
  | refused _ => cases h

/-- `STATUS` of a command's next state. -/
def endsWith (w : Word) (t : State) : Bool := statusWord t.status == w

/-- The example secret of 95_test_vectors.md V1, as octets. -/
def secret : List Byte := beBytes 29 0x736E73597176324673594C75696245395447486447357835563551636E

/-- The string of V502 and V604, `jW6hb6`, as octets. -/
def shortAddress : List Byte := [0x6A, 0x57, 0x36, 0x68, 0x62, 0x36]

/-- 2^256 - 1, the `M` of 95_test_vectors.md. -/
def M : Nat := 2 ^ 256 - 1

/-! ## WellFormed refuses what has no encoding (R93 a) -/

theorem test_ill_formed_modadd : (Instr.modadd 0 0 0 .primeP 1).wellFormed = false := by decide
theorem test_ill_formed_modmul : (Instr.modmul 0 0 0 .orderN 7).wellFormed = false := by decide
theorem test_ill_formed_modred : (Instr.modred 0 0 .primeP 7).wellFormed = false := by decide
theorem test_ill_formed_modinv : (Instr.modinv 0 0 .orderN 1).wellFormed = false := by decide
theorem test_well_formed_register : (Instr.modadd 7 7 7 .register 7).wellFormed = true := by decide

/-! ## Decoding: words written from the table of R99 and the vectors of section 2.7 -/

theorem test_decode_modadd : decode 0x01201702 = .ok (.modadd 2 0 1 .register 7) := by decide
theorem test_decode_modmul : decode 0x02330000 = .ok (.modmul 3 3 0 .primeP 0) := by decide
theorem test_decode_modred : decode 0x03200001 = .ok (.modred 2 0 .orderN 0) := by decide
theorem test_decode_modinv : decode 0x04250702 = .ok (.modinv 2 5 .register 7) := by decide
theorem test_decode_pdbl : decode 0x10230000 = .ok (.pdbl 2 3) := by decide
theorem test_decode_padd : decode 0x11201000 = .ok (.padd 2 0 1) := by decide
theorem test_decode_smulg : decode 0x12370000 = .ok (.smulg 3 7) := by decide
theorem test_decode_compress : decode 0x13210000 = .ok (.compress 2 1) := by decide
theorem test_decode_hreset : decode 0x20000000 = .ok .hreset := by decide
theorem test_decode_hadd : decode 0x21030000 = .ok (.hadd 3) := by decide
theorem test_decode_hadd32 : decode 0x22050000 = .ok (.hadd32 5) := by decide
theorem test_decode_hfin : decode 0x23300002 = .ok (.hfin 3 .first16) := by decide
theorem test_decode_sample : decode 0x30610000 = .ok (.sample 6 1) := by decide
theorem test_decode_sampled : decode 0x31112000 = .ok (.sampled 1 1 2) := by decide
theorem test_decode_b58enc : decode 0x40330000 = .ok (.b58enc 3 3 0) := by decide
theorem test_decode_b58dec : decode 0x41310021 = .ok (.b58dec 3 1 33) := by decide
theorem test_decode_clr : decode 0x7F000000 = .ok .clr := by decide

/-- V700 to V710: every one is illegal. -/
theorem test_illegal_words : ([0x00000000, 0xFFFFFFFF, 0x12400000, 0x12080000, 0x10000001, 0x01000003,
    0x01000100, 0x23000003, 0x7F000001, 0x05000000, 0x20100000] : List Word).all
      (fun w => (decode w).isOk == false) = true := by decide

/-- The ends of the unassigned opcode ranges of R97. -/
theorem test_unassigned_opcodes : ([0x05, 0x0F, 0x14, 0x1F, 0x24, 0x2F, 0x32, 0x3F, 0x42, 0x7E, 0x80,
    0xFF] : List (BitVec 8)).all
      (fun op => (decode (commandWord op 0 0 0 0 0)).isOk == false) = true := by decide

/-- The host's question on a table word. -/
theorem test_decode_table_word : decodeTableWord 32 0x12310000 = some (.smulg 3 1) := by decide

/-! ## The hash functions (R301) -/

theorem test_sha512_abc : be (hashes.sha512 [0x61, 0x62, 0x63]) =
    0xDDAF35A193617ABACC417349AE20413112E6FA4E89A97EA20A9EEEE64B55D39A2192992A274FC1A836BA3C23A3FEEBBD454D4423643CE80E2A9AC94FA54CA49F := by
  decide +kernel
theorem test_sha256_abc : be (hashes.sha256 [0x61, 0x62, 0x63]) =
    0xBA7816BF8F01CFEA414140DE5DAE2223B00361A396177A9CB410FF61F20015AD := by decide +kernel
theorem test_sha256_empty : be (hashes.sha256 []) =
    0xE3B0C44298FC1C149AFBF4C8996FB92427AE41E4649B934CA495991B7852B855 := by decide +kernel
theorem test_sha256_twice : be (hashes.sha256 (hashes.sha256 [0])) =
    0x1406E05881E299367766D313E26C05564EC91BF721D31726BD6E46E60689539A := by decide +kernel

/-! ## One step of each command -/

/-- V102. -/
theorem test_modadd_not_truncated : check (exec (.modadd 2 0 1 .primeP 0) (nums [(0, M), (1, M)]))
    (fun t => t.nVal 2 == 0x2000007A0 && endsWith 0x00000002 t) = true := by decide +kernel
/-- V108. -/
theorem test_modadd_zero_modulus : check (exec (.modadd 2 0 1 .register 7) (nums [(0, 5), (2, 9)]))
    (fun t => t.nVal 2 == 9 && endsWith 0x00000206 t) = true := by decide +kernel
/-- V112. -/
theorem test_modmul_not_truncated : check (exec (.modmul 2 0 1 .orderN 0) (nums [(0, M), (1, M)]))
    (fun t => t.nVal 2 == 0x9D671CD581C69BC5E697F5E45BCD07C3E972508F6D0E38F00911AF2E084453C3) = true := by
  decide +kernel
/-- V116, with all operands the destination's own class. -/
theorem test_modmul_register : check (exec (.modmul 2 0 1 .register 7) (nums [(0, 12), (1, 12), (7, 58)]))
    (fun t => t.nVal 2 == 28) = true := by decide +kernel
/-- V121. -/
theorem test_modred_order : check (exec (.modred 2 0 .orderN 0) (nums [(0, M)]))
    (fun t => t.nVal 2 == 0x14551231950B75FC4402DA1732FC9BEBE) = true := by decide +kernel
/-- V123. -/
theorem test_modred_copies : check (exec (.modred 2 0 .primeP 0) (nums [(0, Config.N)]))
    (fun t => t.nVal 2 == Config.N) = true := by decide +kernel
/-- V130. -/
theorem test_modinv_two : check (exec (.modinv 2 0 .primeP 0) (nums [(0, 2)]))
    (fun t => t.nVal 2 == 0x7FFFFFFFFFFFFFFFFFFFFFFFFFFFFFFFFFFFFFFFFFFFFFFFFFFFFFFF7FFFFE18) = true := by
  decide +kernel
/-- V142. -/
theorem test_modinv_not_invertible : check (exec (.modinv 2 0 .register 7) (nums [(0, 2), (2, 9), (7, 58)]))
    (fun t => t.nVal 2 == 9 && endsWith 0x00000306 t) = true := by decide +kernel

/-- The state with `G` in `q0`. -/
def withG : State := State.reset.setPoint 0 generator

/-- The example of R145. -/
theorem test_pdbl_generator : check (exec (.pdbl 1 0) withG) (fun t => pointX (t.point 1) ==
      0xC6047F9441ED7D6D3045406E95C07CD85C778E4B8CEF3CA7ABAC09B95C709EE5
    && pointY (t.point 1) ==
      0x1AE168FEA63DC339A3C58419466CEAEEF7F632653266D0E1236431A950CFE52A) = true := by decide +kernel
/-- V223 and V221 in one: `G + (G + G)`. -/
theorem test_padd_three : check (exec (.padd 2 0 1) (withG.setPoint 1 (pointAdd generator generator)))
    (fun t => pointX (t.point 2) ==
        0xF9308A019258C31049344F85F89D5229B531C845836F99B08601F113BCE036F9
      && pointY (t.point 2) ==
        0x388F7B0F632DE8140FE337E62A37F3566500A99934C2231B6CB9FD7584B8E672) = true := by decide +kernel
/-- V224: a point and its negative. -/
theorem test_padd_negative : check (exec (.padd 0 0 1) (withG.setPoint 1 (pointNeg generator)))
    (fun t => t.point 0 == .infinity) = true := by decide +kernel
/-- V202. -/
theorem test_smulg_two : check (exec (.smulg 0 0) (nums [(0, 2)])) (fun t => pointX (t.point 0) ==
    0xC6047F9441ED7D6D3045406E95C07CD85C778E4B8CEF3CA7ABAC09B95C709EE5) = true := by decide +kernel
/-- V213. -/
theorem test_smulg_range : check (exec (.smulg 0 0) (nums [(0, Config.N)]))
    (fun t => t.point 0 == .infinity && endsWith 0x00000406 t) = true := by decide +kernel
/-- V230: the first byte and the length. -/
theorem test_compress_generator : check (exec (.compress 0 0) withG)
    (fun t => t.bufData 0 0 == 0x02 && t.bufData 0 1 == 0x79 && t.bufLen 0 == 33) = true := by
  decide +kernel
/-- V231. -/
theorem test_compress_infinity : check (exec (.compress 0 3) withG)
    (fun t => t.bufLen 0 == 0 && endsWith 0x00000506 t) = true := by decide +kernel

/-- The example of R172. -/
theorem test_hreset : check (exec .hreset (State.reset.setHmsg [1, 2])) (fun t => t.hmsg == []) = true := by
  decide +kernel
/-- V301. -/
theorem test_hadd_abc : check (exec (.hadd 0) (load 0 [0x61, 0x62, 0x63] State.reset))
    (fun t => t.hmsg == [0x61, 0x62, 0x63]) = true := by decide +kernel
/-- The example of R174. -/
theorem test_hadd32 : check (exec (.hadd32 0) (nums [(0, 0x01020304)]))
    (fun t => t.hmsg == [1, 2, 3, 4]) = true := by decide +kernel
/-- V305. -/
theorem test_hadd32_range : check (exec (.hadd32 0) (nums [(0, 2 ^ 32)]))
    (fun t => t.hmsg == [] && endsWith 0x00000606 t) = true := by decide +kernel
/-- V302, the last line. -/
theorem test_hfin_first16 : check (exec (.hfin 3 .first16) (State.reset.setHmsg [0x61, 0x62, 0x63]))
    (fun t => be (t.buf 3) == 0xDDAF35A193617ABACC417349AE204131) = true := by decide +kernel
/-- V402. -/
theorem test_sample_empty : check (exec (.sample 0 0) (State.reset.setHmsg [1]))
    (fun t => t.nVal 0 == 0xEC2D57691D9B2D40182AC565032054B7D784BA96B18BCB5BE0BB4E70E3FB041E
      && t.siter == 0 && t.hmsg == []) = true := by decide +kernel
/-- V403. -/
theorem test_sampled_empty : check (exec (.sampled 0 0 1) State.reset)
    (fun t => t.nVal 0 == 0x1B7409CCF0D5A34D3A77EAABFA9FE27427655BE9297127EE9522AA1BF4046D4F) = true := by
  decide +kernel
/-- V410. -/
theorem test_sampled_range : check (exec (.sampled 0 0 1) (nums [(0, 9), (1, 2 ^ 32)]))
    (fun t => t.nVal 0 == 9 && endsWith 0x00000606 t) = true := by decide +kernel

/-- `T` of V411. -/
def testHash : HashFunctions where
  sha256 _ := List.replicate 32 0
  sha512 m :=
    if m.drop (m.length - 4) = [0, 0, 0, 0] ∨ m.drop (m.length - 4) = [0, 0, 0, 1] then
      List.replicate 64 0xFF
    else List.replicate 31 0 ++ [5] ++ List.replicate 32 0
  sha256_length _ := by simp
  sha512_length m := by split <;> simp

/-- `T'` of V411. -/
def zeroHash : HashFunctions where
  sha256 _ := List.replicate 32 0
  sha512 _ := List.replicate 64 0
  sha256_length _ := by simp
  sha512_length _ := by simp

/-- V411: two rejected candidates, the third accepted. -/
theorem test_search_continues : scalarFromSeed testHash [1, 2] none = some (5, 2) := by decide +kernel

/-- The machine of V411: `T` for `SHA512`, and the least `LMAX` that R8 allows. -/
def testParameters : Parameters := { testHash with lmax := 64, lmax_ge := by decide, lmax_le := by decide }

/-- The machine with `T'` and the least `LMAX`. -/
def zeroParameters : Parameters := { zeroHash with lmax := 64, lmax_ge := by decide, lmax_le := by decide }

/-- V411 as a command. -/
theorem test_sample_continues : check (execWith testParameters (.sample 0 0) State.reset)
    (fun t => t.nVal 0 == 5 && t.siter == 2 && endsWith 0x00000002 t) = true := by decide +kernel

/-- V502. -/
theorem test_b58enc_empty : check (exec (.b58enc 1 0 0) State.reset) (fun t => t.buf 1 == shortAddress) =
    true := by decide +kernel
/-- V511. -/
theorem test_b58enc_overflow : check (exec (.b58enc 1 0 255)
      (load 0 (List.replicate 183 0xFF) State.reset))
    (fun t => t.bufLen 1 == 0 && endsWith 0x00000706 t) = true := by decide +kernel
/-- V601. -/
theorem test_b58dec_secret : check (exec (.b58dec 0 1 33) (load 1 secret State.reset))
    (fun t => t.bufLen 0 == 16 && be (t.buf 0) == 0xA89DCAC9C68BEBE4B856F1F2D2E61A43) = true := by
  decide +kernel
/-- V611: the checksum is tested before the version. -/
theorem test_b58dec_order : check (exec (.b58dec 0 1 0)
      (load 1 (secret.dropLast ++ [0x6D]) State.reset)) (endsWith 0x00000A06) = true := by decide +kernel
/-- V734. -/
theorem test_clr : check (exec .clr (nums [(0, 7)]))
    (fun t => t.nVal 0 == 0 && endsWith 0x00000002 t) = true := by decide +kernel

/-! ## The port and the step -/

/-- V720 to V726. -/
theorem test_port_refusals :
    (hostWrite hardware 0x0402 1 State.reset).2 = .busError ∧ (hostWrite hardware 0x0100 1 State.reset).2 = .busError
      ∧ (hostWrite hardware 0x0800 1 State.reset).2 = .busError ∧ (hostWrite hardware 0x1000 257 State.reset).2 = .busError
      ∧ (hostWrite hardware 0x1000 256 State.reset).2 = .ok ∧ (hostWrite hardware 0x0004 0 State.reset).2 = .busError
      ∧ hostRead 0x0844 State.reset = .busError ∧ hostRead 0x1104 State.reset = .busError
      ∧ hostRead 0x0000 State.reset = .data 0 := by decide +kernel
/-- V727 to V730. -/
theorem test_port_reads :
    hostRead 0x023C State.reset = .data 0x21000000 ∧ hostRead 0x0200 State.reset = .data 0x6A707368
      ∧ hostRead 0x0238 State.reset = .data 0x797A0000 ∧ hostRead 0x0100 State.reset = .data 0xFFFFFFFF
      ∧ hostRead 0x011C State.reset = .data 0xFFFFFC2F ∧ hostRead 0x0840 State.reset = .data 1 := by
  decide +kernel
/-- V731 to V733. -/
theorem test_port_writes :
    (hostWrite hardware 0x045C 7 State.reset).1.nVal 2 = 7
      ∧ (hostWrite hardware 0x0400 0x80000000 State.reset).1.nVal 0 = 2 ^ 255
      ∧ (hostWrite hardware 0x1000 3 (hostWrite hardware 0x1004 0x61626364 State.reset).1).1.buf 0 = [0x61, 0x62, 0x63] := by
  decide +kernel

/-- An ordinary write as a step (R245): word 7 of `n0`, answered `ok`. -/
theorem test_write_step : check (step { State.reset with script := [.txn (.write 0x041C 5)] })
    (fun t => t.nVal 0 == 5 && t.responses == [.ok] && t.script == []) = true := by decide +kernel

/-- The first command after reset: `SMULG q0, n0` on 0 gives `INF` and succeeds (R354). -/
theorem test_first_command : check (step (State.reset.withFetchWord 32 0x12000000))
    (fun t => endsWith 0x00000002 t && t.point 0 == .infinity) = true := by decide +kernel
/-- V700 as a step. -/
theorem test_illegal_step : check (step (State.reset.withFetchWord 32 0)) (endsWith 0x00000106) = true := by
  decide +kernel

/-! ## What the statements assume can be met

Each theorem names the statement it is for. -/

/-- DecodeOfEncodeIsTheInstruction: at the largest operands, and with `m` = 0. -/
theorem test_meets_encoding : (Instr.modinv 7 7 .register 7).wellFormed = true
    ∧ (Instr.modadd 7 7 7 .orderN 0).wellFormed = true ∧ (Instr.b58dec 3 3 255).wellFormed = true := by
  decide

/-- DecodedWordIsItsEncoding and DecoderAcceptsTheTablesWords. -/
theorem test_meets_decoding : decode 0x04770702 = .ok (.modinv 7 7 .register 7)
    ∧ rowModinv.accepts 0x04770702 = true := by decide

/-- BusyStepExecutesTheDecodedCommand: the ways the host can stand, on a busy and on an idle block. -/
theorem test_meets_busy_step :
    (busyWith 0x7F000000 State.reset).phase = .busy 0x7F000000 ∧ decode 0x7F000000 = .ok .clr
      ∧ (busyWith 0x7F000000 State.reset).script = []
      ∧ ({ busyWith 0x7F000000 State.reset with script := [.wait] } : State).script = .wait :: []
      ∧ ({ busyWith 0x7F000000 State.reset with held := some (.read 0), script := [.txn (.read 8)] } :
          State).held = some (.read 0)
      ∧ State.reset.phase = .idle ∧ State.reset.held = none ∧ State.reset.script = []
      ∧ ({ State.reset with script := [.wait] } : State).script = .wait :: [] := by decide

/-- IllegalWordEndsWithIllegalCommand. -/
theorem test_meets_illegal_word : (busyWith 0 State.reset).phase = .busy 0
    ∧ decode 0x00000000 = .error .unknownOpcode ∧ decode 0xFFFFFFFF = .error .unknownOpcode
    ∧ (fieldOp 0x05000000).toNat = 0x05 ∧ (fieldOp 0x0F000000).toNat = 0x0F
    ∧ (fieldOp 0xFF000000).toNat = 0xFF := by decide

/-- ModAddResult, ModMulResult, ModRedResult: a nonzero modulus at its least value, and a zero one. -/
theorem test_meets_modulus : modulus .register 7 (nums [(7, 1)]) ≠ 0 ∧ modulus .primeP 0 State.reset ≠ 0
    ∧ modulus .orderN 0 State.reset ≠ 0 ∧ modulus .register 7 State.reset = 0 := by decide +kernel

/-- ModInvResult: an invertible operand, also with modulus 1; an operand that is not; a zero modulus is
in the theorem before. -/
theorem test_meets_modinv :
    Nat.gcd ((nums [(0, 3), (7, 58)]).nVal 0) (modulus .register 7 (nums [(0, 3), (7, 58)])) = 1
      ∧ Nat.gcd ((nums [(7, 1)]).nVal 0) (modulus .register 7 (nums [(7, 1)])) = 1
      ∧ modulus .register 7 (nums [(0, 29), (7, 58)]) ≠ 0
      ∧ Nat.gcd ((nums [(0, 29), (7, 58)]).nVal 0) (modulus .register 7 (nums [(0, 29), (7, 58)])) ≠ 1 := by
  decide +kernel

/-- InverseIsTheUniqueSolution: V137, and modulus 1. -/
theorem test_meets_inverse : Nat.gcd 3 58 = 1 ∧ 39 < 58 ∧ (3 * 39) % 58 = 1 % 58 ∧ inv 3 58 = 39
    ∧ Nat.gcd 0 1 = 1 ∧ inv 0 1 = 0 := by decide +kernel

/-- ScalarBaseMultiplyResult: the last scalar in range and the first out of range. -/
theorem test_meets_scalar_range : (nums [(0, Config.N - 1)]).nVal 0 < Config.N
    ∧ Config.N ≤ (nums [(0, Config.N)]).nVal 0 := by decide +kernel

/-- CompressResult: a finite point, and `INF`. -/
theorem test_meets_compress : withG.mem.wf = true
    ∧ withG.point 0 = .affine ⟨Config.GX, by decide⟩ ⟨Config.GY, by decide⟩
    ∧ withG.point 1 = .infinity := by decide +kernel

/-- DoublingFollowsTheTangent: `y` = 0, and the least `y` that is not. -/
theorem test_meets_doubling : (toField 0).val = 0 ∧ (toField 1).val ≠ 0 := by decide +kernel

/-- AdditionFollowsTheChord: equal points, equal `x` only, different `x`. -/
theorem test_meets_addition : (toField 5 = toField 5 ∧ toField 7 = toField 7)
    ∧ (toField 5 = toField 5 ∧ toField 7 ≠ toField 8) ∧ toField 5 ≠ toField 6 := by decide +kernel

/-- DoubleAndAddIsTheScalarMultiple: both ends of the range. -/
theorem test_meets_double_and_add : 0 < 2 ^ 256 ∧ 2 ^ 256 - 1 < 2 ^ 256 := by decide

/-- PointsStayOnTheCurve, on a step that adds two finite points. -/
theorem test_meets_on_curve : (busyWith 0x11200000 withG).pointsOnCurve = true
    ∧ ∃ t, step (busyWith 0x11200000 withG) = .next t ∧ (t.point 2 != .infinity) = true :=
  ⟨by decide +kernel, next_of_check (by decide +kernel)⟩

/-- PointsStayInTheGroup, on the same step. -/
theorem test_meets_in_group : (busyWith 0x11200000 withG).pointsInGroup := by
  intro j
  fin_cases j
  · exact ⟨1, by decide, rfl⟩
  all_goals exact ⟨0, by decide, rfl⟩

/-- HashAddWordResult: the last value in range and the first out of range (V305, V306). -/
theorem test_meets_hash_word : (nums [(0, 2 ^ 32 - 1)]).nVal 0 < 2 ^ 32
    ∧ 2 ^ 32 ≤ (nums [(0, 2 ^ 32)]).nVal 0 := by decide +kernel

/-- The state of V308 with its concatenation in `b2`. -/
def splitState : State :=
  load 2 [0x61, 0x62, 0x63] (load 1 [0x63] (load 0 [0x61, 0x62] State.reset))

/-- SplitInputHashesAlike. -/
theorem test_meets_split : splitState.buf 2 = splitState.buf 0 ++ splitState.buf 1 := by decide +kernel

/-- AdapterRebuildsACandidate, HashFinishResult. -/
theorem test_meets_adapter : splitState.mem.wf = true ∧ splitState.nVal 1 < 2 ^ 32
    ∧ (nums [(1, 2 ^ 32 - 1)]).mem.wf = true ∧ (nums [(1, 2 ^ 32 - 1)]).nVal 1 < 2 ^ 32
    ∧ (nums [(1, 2 ^ 32 - 1)]).nVal 2 < 2 ^ 32 := by
  decide +kernel

/-- SampleResult and SampleWithDiscriminatorResult: the first candidate of V402 and of V403 is accepted,
at the least counter; and a discriminator out of range. -/
theorem test_meets_sample : accepts (candidate hashes (State.reset.buf 0) none 0) = true
    ∧ accepts (candidate hashes (State.reset.buf 0) (some (State.reset.nVal 1)) 0) = true
    ∧ State.reset.nVal 1 < 2 ^ 32 ∧ 2 ^ 32 ≤ (nums [(1, 2 ^ 32)]).nVal 1 := by decide +kernel

/-- The largest discriminator in range has an accepted first candidate too. -/
theorem test_meets_sample_largest :
    accepts (candidate hashes ((nums [(1, 2 ^ 32 - 1)]).buf 0)
      (some ((nums [(1, 2 ^ 32 - 1)]).nVal 1)) 0) = true := by decide +kernel

/-- ExhaustedSearchIsReported: `T'` of V411 rejects every candidate. -/
theorem test_meets_exhausted : ∀ i, i < 2 ^ 32 →
    accepts (candidate zeroHash (State.reset.buf 0) none i) = false := fun _ _ => rfl

/-- SearchFindsTheFirstCandidate: both answers occur, the first by V411. -/
theorem test_meets_search : scalarFromSeed testHash [] (some 3) = some (5, 2) := by decide +kernel

/-- SampledScalarIsLegal. -/
theorem test_meets_sampled_scalar : ∃ t, exec (.sample 0 0) State.reset = .next t
    ∧ (t.status.errcode == 0) = true := next_of_check (by decide +kernel)

/-- RawDecodingInvertsRawEncoding: a string over the alphabet. -/
theorem test_meets_alphabet : ∀ x ∈ shortAddress, ∃ dg, alphabetChar Config.swtc dg = x := by
  decide +kernel

/-- Base58EncodeResult: V502 fits, and V511 does not. -/
theorem test_meets_b58enc :
    State.reset.mem.wf = true
      ∧ (b58Raw Config.swtc ([0] ++ (hashes.sha256 (hashes.sha256 [0])).take 4)).length ≤ 256 := by
  decide +kernel

/-- Base58EncodeResult and ShortPayloadsFit at the boundary: V510 has 256 characters, one byte more has
257 (V511). -/
theorem test_meets_b58enc_boundary :
    (b58CheckEncode hashes Config.swtc 255 ((load 0 (List.replicate 182 0xFF) State.reset).buf 0)).length = 256
      ∧ (b58CheckEncode hashes Config.swtc 255
          ((load 0 (List.replicate 183 0xFF) State.reset).buf 0)).length = 257
      ∧ (load 0 (List.replicate 182 0xFF) State.reset).bufLen 0 ≤ 182 := by decide +kernel

/-- Base58EncodeResult for other model arguments: 64 characters fit `LMAX` = 64, and 65 do not. -/
theorem test_meets_b58enc_parameters :
    (b58CheckEncode zeroParameters.toHashFunctions Config.swtc 0
        ((State.reset.setBufLen 0 59).buf 0)).length = 64
      ∧ (b58CheckEncode zeroParameters.toHashFunctions Config.swtc 0
        ((State.reset.setBufLen 0 60).buf 0)).length = 65 ∧ zeroParameters.lmax = 64 := by decide +kernel

/-- Base58DecodeResult: a decoding of exactly 5 bytes whose checksum is right (V604). -/
theorem test_meets_b58dec : b58RawDecode Config.swtc shortAddress = [0, 0x14, 0x06, 0xE0, 0x58]
    ∧ (hashes.sha256 (hashes.sha256 [0])).take 4 = [0x14, 0x06, 0xE0, 0x58]
    ∧ (load 1 shortAddress State.reset).mem.wf = true
    ∧ (load 1 shortAddress State.reset).buf 1 = shortAddress := by decide +kernel

/-- Base58DecodeResult: a character outside the alphabet (V615), 4 decoded bytes (V613), a wrong checksum
(V614), a wrong version (V608), and success (V604). -/
theorem test_meets_b58dec_clauses :
    (∀ dg, alphabetChar Config.swtc dg ≠ 0x30)
      ∧ (b58RawDecode Config.swtc (List.replicate 4 0x6A)).length = 4
      ∧ b58CheckDecode hashes Config.swtc 0 (List.replicate 5 0x6A) = .error .checksumMismatch
      ∧ b58CheckDecode hashes Config.swtc 1 shortAddress = .error .versionMismatch
      ∧ b58CheckDecode hashes Config.swtc 0 shortAddress = .ok [] := by decide +kernel

/-- EncodedPayloadDecodes and DecodingNeverLengthens. -/
theorem test_meets_round_trip : State.reset.mem.wf = true
    ∧ ∃ t, exec (.b58enc 1 0 0) State.reset = .next t ∧ (t.status.errcode == 0) = true :=
  ⟨by decide +kernel, next_of_check (by decide +kernel)⟩

/-- EncodedPayloadDecodes for other model arguments. -/
theorem test_meets_round_trip_parameters :
    ∃ t, execWith zeroParameters (.b58enc 1 0 0) State.reset = .next t ∧ (t.status.errcode == 0) = true :=
  next_of_check (by decide +kernel)

/-- FlippedBitFailsTheChecksum: the first and the last bit of the 5 bytes of V502, with another version. -/
theorem test_meets_flip : 0 < (([0] : List Byte) ++ checksum4 hashes [0]).length
    ∧ 4 < (([0] : List Byte) ++ checksum4 hashes [0]).length ∧ 0 < 8 ∧ 7 < 8 := by decide +kernel

/-- FailedCommandsWriteNoDestination, CommandsRaiseOnlyTheirCodes, CommandsWriteOnlyTheirRegisters. -/
theorem test_meets_failed : ∃ t, exec (.smulg 0 0) (nums [(0, Config.N)]) = .next t
    ∧ (t.status.errcode == 0x04) = true := next_of_check (by decide +kernel)

/-- StatusStaysCoherent, StoredBytesStayCanonical, EveryStepCompletes: on a busy state. -/
theorem test_meets_invariants : (busyWith 0x20000000 splitState).statusAgrees = true
    ∧ (busyWith 0x20000000 splitState).mem.wf = true
    ∧ (busyWith 0x20000000 splitState).script = []
    ∧ ∃ t, step (busyWith 0x20000000 splitState) = .next t ∧ (t.phase == .idle) = true :=
  ⟨by decide +kernel, by decide +kernel, rfl, next_of_check (by decide +kernel)⟩

/-- StoredBytesStayCanonical and EveryStepCompletes for other model arguments. -/
theorem test_meets_lengths : (busyWith 0x20000000 splitState).lengthsFit zeroParameters
    ∧ ∃ t, stepWith zeroParameters (busyWith 0x20000000 splitState) = .next t
      ∧ (t.phase == .idle) = true :=
  ⟨by unfold State.lengthsFit; decide +kernel, next_of_check (by decide +kernel)⟩

/-- FailedCommandsWriteNoDestination: the code of exhaustion occurs on the common body of the samplers. -/
theorem test_meets_exhausted_code : ∃ t, deliverSample 0 none splitState = .next t
    ∧ (t.status.errcode == 0x0B && t.hmsg == []) = true := next_of_check (by decide +kernel)

/-- ReadReturnsTheLastWrite: the largest length for `LMAX` = 64 and for 256, and one more for 64. -/
theorem test_meets_length_write : (64 : Word).toNat ≤ zeroParameters.lmax
    ∧ (256 : Word).toNat ≤ hardware.lmax
    ∧ (hostWrite zeroParameters 0x1000 65 State.reset).2 = .busError := by decide +kernel

/-- ReadReturnsTheLastWrite: the first and last n-register word, the largest length, the first and last
data word. -/
theorem test_meets_port_write : splitState.mem.wf = true ∧ (0x0400 : Addr) ≠ 0x0000
    ∧ (hostWrite hardware 0x0400 1 splitState).2 = .ok ∧ (hostWrite hardware 0x04FC 1 splitState).2 = .ok
    ∧ (hostWrite hardware 0x1600 256 splitState).2 = .ok ∧ (hostWrite hardware 0x1004 1 splitState).2 = .ok
    ∧ (hostWrite hardware 0x1700 1 splitState).2 = .ok := by decide +kernel

/-- The state with one coming event. -/
def withEvent (e : Event) (s : State) : State := { s with script := [e] }

/-- CommandWriteIsAcceptedOrStalls: on the idle and on the busy block. -/
theorem test_meets_command_write :
    (withEvent (.txn (.write 0x0000 5)) State.reset).phase = .idle
      ∧ (withEvent (.txn (.write 0x0000 5)) State.reset).held = none
      ∧ (withEvent (.txn (.write 0x0000 5)) State.reset).script = .txn (.write 0x0000 5) :: []
      ∧ (withEvent (.txn (.write 0x0000 5)) (busyWith 9 State.reset)).phase = .busy 9
      ∧ (withEvent (.txn (.write 0x0000 5)) (busyWith 9 State.reset)).held = none := by decide

/-- BusyPortHoldsTransactions: a read of `STATUS`, another transaction, and a held one. -/
theorem test_meets_busy_port :
    (withEvent (.txn (.read 0x0004)) (busyWith 9 State.reset)).statusAgrees = true
      ∧ (withEvent (.txn (.read 0x0004)) (busyWith 9 State.reset)).phase = .busy 9
      ∧ (withEvent (.txn (.read 0x0004)) (busyWith 9 State.reset)).held = none
      ∧ (.read 0x0008 : Txn) ≠ .read 0x0004
      ∧ (withEvent (.txn (.write 0x0400 5)) State.reset).phase = .idle
      ∧ (withEvent (.txn (.write 0x0400 5)) State.reset).held = none
      ∧ ({ State.reset with held := some (.read 0x0008) } : State).phase = .idle
      ∧ ({ State.reset with held := some (.read 0x0008) } : State).script = []
      ∧ ({ busyWith 9 State.reset with held := some (.read 0x0008) } : State).phase = .busy 9 := by
  decide +kernel

/-- A held transaction and a host that goes on. -/
def heldState (s : State) : State :=
  { s with held := some (.read 0x0008), script := [.txn (.write 0x0400 5), .wait] }

/-- BusyPortHoldsTransactions, its last two clauses: the block completes while the port holds, and then the
held transaction is answered before the host's next one. -/
theorem test_meets_held_step :
    (∀ c rest, (heldState (busyWith 9 State.reset)).script ≠ .reset c :: rest)
      ∧ (∃ t, step (heldState (busyWith 9 State.reset)) = .next t
        ∧ (t.held == some (.read 0x0008) && t.script.length == 2) = true)
      ∧ ∃ t, step (heldState State.reset) = .next t
        ∧ (t.held == none && t.responses == [.data 0] && t.script.length == 2) = true :=
  ⟨nofun, next_of_check (by decide +kernel), next_of_check (by decide +kernel)⟩

/-- A wait on a busy block with a held transaction is taken from the script, and the block completes. -/
theorem test_meets_held_wait : ∃ t,
    step { heldState (busyWith 9 State.reset) with script := [.wait, .wait] } = .next t
      ∧ (t.phase == .idle && t.script == [.wait]) = true := next_of_check (by decide +kernel)

/-- ResetAbandonsEverything, with and without a held transaction, and ConfigurationChangesOnlyAtReset. -/
theorem test_meets_reset :
    (withEvent (.reset Config.swtc) (busyWith 9 State.reset)).script = .reset Config.swtc :: []
      ∧ (withEvent (.reset Config.swtc) (busyWith 9 State.reset)).held = none
      ∧ (∀ c rest, State.reset.script ≠ .reset c :: rest)
      ∧ ∃ t, step State.reset = .next t ∧ (t.phase == .idle) = true :=
  ⟨rfl, rfl, nofun, next_of_check (p := fun t => t.phase == .idle) (by decide +kernel)⟩

/-- ZeroKeyNeverPasses: scalars whose sum is `N`, and scalars whose sum is 2 with a COMPRESS that
succeeds. -/
theorem test_meets_zero_key : (nums [(0, Config.N - 1), (1, 1)]).mem.wf = true
    ∧ ((nums [(0, Config.N - 1), (1, 1)]).nVal 1 + (nums [(0, Config.N - 1), (1, 1)]).nVal 0) % Config.N = 0
    ∧ (nums [(0, 1), (1, 1)]).mem.wf = true
    ∧ ((nums [(0, 1), (1, 1)]).nVal 1 + (nums [(0, 1), (1, 1)]).nVal 0) % Config.N = 2
    ∧ (scalarBaseMul 2 != .infinity) = true := by decide +kernel

/-- A wallet for the next theorem; its key is not a point. -/
def someWallet : Wallet := ⟨⟨1, ⟨generator⟩⟩, List.replicate 33 2, secret, [], 0⟩

/-- WalletAddressIsValid: a digest function with which `GetAddress` succeeds. -/
theorem test_meets_wallet_address :
    State.reset.mem.wf = true ∧ someWallet.accountVersion = State.reset.config.accountVersion
      ∧ succeeds (getAddress hardware (fun _ => Vector.replicate 20 7) someWallet) State.reset = true :=
  ⟨by decide, rfl, by decide +kernel⟩

/-- The empty address string is not valid (R270, log entry 25). -/
theorem test_empty_address : isValidAddress hardware [] State.reset = false := by decide +kernel

end Sys2Proof.Tests
end

section
/-! SUPPORT. The field prime `P` is prime (spec/10_state.md R31,
spec/41_secp256k1_scalar_mult.md R142), by Lucas' test with the prime factors of `P - 1` and of the large
primes among them (a Pratt certificate). -/

namespace Sys2Proof.Machine

/-- `a ^ e mod n` by repeated squaring, for an exponent of at most `bits` bits. -/
def powMod (n a : Nat) : (bits : Nat) → (e : Nat) → Nat
  | 0, _ => 1 % n
  | bits + 1, e => powMod n a bits (e / 2) ^ 2 * a ^ (e % 2) % n

theorem powMod_eq (n a bits e : Nat) (he : e < 2 ^ bits) : powMod n a bits e = a ^ e % n := by
  induction bits generalizing e with
  | zero =>
    obtain rfl : e = 0 := by simpa using he
    simp [powMod]
  | succ bits ih =>
    have hsplit : a ^ e = (a ^ (e / 2)) ^ 2 * a ^ (e % 2) := by
      rw [← pow_mul, ← pow_add, Nat.div_add_mod']
    rw [powMod, ih (e / 2) (by omega), hsplit, Nat.mul_mod, ← Nat.pow_mod, ← Nat.mul_mod]

theorem powMod_eq_one_iff {p a e : Nat} (hp : 1 < p) (he : e < 2 ^ 256) :
    powMod p a 256 e = 1 ↔ (a : ZMod p) ^ e = 1 := by
  have hcast := ZMod.natCast_eq_natCast_iff' (a ^ e) 1 p
  rw [Nat.mod_eq_of_lt hp] at hcast
  rw [powMod_eq p a 256 e he, ← hcast, Nat.cast_pow, Nat.cast_one]

/-- `a` passes Lucas' test modulo `p`: `a ^ (p - 1)` is 1, and `a ^ ((p - 1) / q)` is not for the numbers
`q` of `fs`, among which are all prime factors of `p - 1` (none occurs more than four times). -/
def lucasCheck (p a : Nat) (fs : List Nat) : Bool :=
  decide (1 < p ∧ p < 2 ^ 256 ∧ p - 1 ∣ fs.prod ^ 4) && powMod p a 256 (p - 1) == 1
    && fs.all fun q => powMod p a 256 ((p - 1) / q) != 1

/-- Lucas' test with the prime factors of `p - 1` listed. -/
theorem prime_of_lucasCheck {p : Nat} (a : Nat) (fs : List Nat) (hfs : fs.Forall Nat.Prime)
    (h : lucasCheck p a fs = true) : p.Prime := by
  simp only [lucasCheck, Bool.and_eq_true, decide_eq_true_eq, beq_iff_eq, List.all_eq_true,
    bne_iff_ne] at h
  obtain ⟨⟨⟨hp, hlt, hdvd⟩, hone⟩, hne⟩ := h
  refine lucas_primality p a ((powMod_eq_one_iff hp (by omega)).1 hone) fun q hq hqp => ?_
  obtain ⟨r, hr, hqr⟩ := hq.prime.dvd_prod_iff.1 (hq.dvd_of_dvd_pow (hqp.trans hdvd))
  obtain rfl : q = r :=
    (Nat.prime_dvd_prime_iff_eq hq (List.forall_iff_forall_mem.1 hfs r hr)).1 hqr
  have hq_lt : (p - 1) / q < 2 ^ 256 := lt_of_le_of_lt (Nat.div_le_self _ _) (by omega)
  exact (powMod_eq_one_iff hp hq_lt).not.1 (hne q hr)

theorem prime_173378833005251801 : Nat.Prime 173378833005251801 :=
  prime_of_lucasCheck 6 [2, 5, 2621, 24809, 13331831] (by norm_num) (by decide +kernel)

theorem prime_22149492674086928081353 : Nat.Prime 22149492674086928081353 :=
  prime_of_lucasCheck 5 [2, 3, 5323, 173378833005251801]
    ⟨by norm_num, by norm_num, by norm_num, prime_173378833005251801⟩ (by decide +kernel)

theorem prime_132896956044521568488119 : Nat.Prime 132896956044521568488119 :=
  prime_of_lucasCheck 6 [2, 3, 22149492674086928081353]
    ⟨by norm_num, by norm_num, prime_22149492674086928081353⟩ (by decide +kernel)

theorem prime_255515944373312847190720520512484175977 :
    Nat.Prime 255515944373312847190720520512484175977 :=
  prime_of_lucasCheck 3 [2, 7, 11, 1627, 2657, 4423, 41201, 96557, 7240687, 107590001]
    (by norm_num) (by decide +kernel)

theorem prime_largest_factor_of_P_sub_one :
    Nat.Prime 205115282021455665897114700593932402728804164701536103180137503955397371 :=
  prime_of_lucasCheck 10 [2, 3, 5, 29, 31, 7723, 132896956044521568488119,
      255515944373312847190720520512484175977]
    ⟨by norm_num, by norm_num, by norm_num, by norm_num, by norm_num, by norm_num,
      prime_132896956044521568488119, prime_255515944373312847190720520512484175977⟩
    (by decide +kernel)

theorem prime_P : Config.P.Prime :=
  prime_of_lucasCheck 3 [2, 3, 7, 13441,
      205115282021455665897114700593932402728804164701536103180137503955397371]
    ⟨by norm_num, by norm_num, by norm_num, by norm_num, prime_largest_factor_of_P_sub_one⟩
    (by decide +kernel)

end Sys2Proof.Machine
end

section
/-! SUPPORT. The modular inverse of spec/40_big_int_modular_arith.md R127, and the machine's field elements as
elements of `ZMod P` (spec/41_secp256k1_scalar_mult.md R142). -/

namespace Sys2Proof.Machine

/-! ## The Euclidean algorithm (R127) -/

theorem euclid_zero (fuel r0 : Nat) (s0 s1 : Int) : euclid fuel r0 0 s0 s1 = s0 := by
  cases fuel <;> simp [euclid]

/-- The invariant of the loop is that each remainder is its coefficient times `a` modulo `m`; with fuel
enough the loop ends on the coefficient of the gcd. -/
theorem dvd_euclid_mul_sub_gcd (m a : Int) (fuel r0 r1 : Nat) (s0 s1 : Int) (hf : r1 ≤ fuel)
    (h0 : m ∣ s0 * a - r0) (h1 : m ∣ s1 * a - r1) :
    m ∣ euclid fuel r0 r1 s0 s1 * a - Nat.gcd r0 r1 := by
  induction fuel generalizing r0 r1 s0 s1 with
  | zero =>
    obtain rfl : r1 = 0 := by omega
    simpa [euclid] using h0
  | succ fuel ih =>
    rw [euclid]
    split
    · rename_i hr
      simpa [hr] using h0
    · rename_i hr
      have hrem : r0 - r0 / r1 * r1 = r0 % r1 := by
        rw [Nat.mod_eq_sub, Nat.mul_comm]
      have hlt : r0 % r1 < r1 := Nat.mod_lt _ (Nat.pos_of_ne_zero hr)
      have hcoeff : m ∣ (s0 - (r0 / r1 : Nat) * s1) * a - (r0 % r1 : Nat) := by
        rw [Int.natCast_mod, Int.emod_def, Int.natCast_div]
        have hsplit : (s0 - (r0 : Int) / r1 * s1) * a - (r0 - r1 * (r0 / r1))
            = s0 * a - r0 - (r0 / r1) * (s1 * a - r1) := by ring
        rw [hsplit]
        exact h0.sub (h1.mul_left _)
      rw [hrem, Nat.gcd_comm, Nat.gcd_rec, Nat.gcd_comm]
      exact ih r1 (r0 % r1) _ _ (by omega) h1 hcoeff

/-- `Inv(a, m)` times `a` is their gcd modulo `m` (R127). -/
theorem inv_mul_eq_gcd (a m : Nat) [NeZero m] :
    (inv a m : ZMod m) * a = (Nat.gcd a m : Nat) := by
  rcases eq_or_ne m 1 with rfl | hm
  · exact Subsingleton.elim _ _
  have hpos : (0 : Int) < m := by exact_mod_cast Nat.pos_of_ne_zero (NeZero.ne m)
  have hdvd := dvd_euclid_mul_sub_gcd m a m m (a % m) 0 1 (Nat.mod_lt _ (by omega)).le
    (by simp) (by rw [Int.natCast_mod, one_mul]; exact Int.dvd_self_sub_emod)
  rw [Nat.gcd_comm m, ← Nat.gcd_rec, Nat.gcd_comm m, ← ZMod.intCast_eq_intCast_iff_dvd_sub,
    eq_comm] at hdvd
  have hinv : ((inv a m : Nat) : ZMod m) = (euclid m m (a % m) 0 1 : Int) := by
    rw [inv, if_neg hm, ← Int.cast_natCast, Int.toNat_of_nonneg (Int.emod_nonneg _ hpos.ne'),
      ZMod.intCast_mod]
  rw [hinv]
  exact_mod_cast hdvd

theorem inv_zero (m : Nat) : inv 0 m = 0 := by
  simp [inv, euclid_zero]

/-! ## Field elements (R142) -/

theorem toField_cast (v : Int) : ((toField v).val : ZMod Config.P) = v := by
  have hP : (Config.P : Int) ≠ 0 := by decide
  rw [toField, ← Int.cast_natCast, Int.toNat_of_nonneg (Int.emod_nonneg _ hP), ZMod.intCast_mod]

theorem val_cast_inj (x y : Fin Config.P) : (x.val : ZMod Config.P) = y.val ↔ x = y := by
  rw [ZMod.natCast_eq_natCast_iff', Nat.mod_eq_of_lt x.isLt, Nat.mod_eq_of_lt y.isLt, Fin.ext_iff]

/-- The machine's form of an element of `ZMod P`. -/
def residue (x : ZMod Config.P) : Fin Config.P := toField x.cast

@[simp] theorem residue_cast (x : ZMod Config.P) : ((residue x).val : ZMod Config.P) = x := by
  rw [residue, toField_cast, ZMod.intCast_zmod_cast]

@[simp] theorem residue_val (x : Fin Config.P) : residue (x.val : ZMod Config.P) = x := by
  rw [← val_cast_inj, residue_cast]

theorem residue_inj (x y : ZMod Config.P) : residue x = residue y ↔ x = y := by
  rw [← val_cast_inj, residue_cast, residue_cast]

theorem toField_eq_residue (v : Int) : toField v = residue v := by
  rw [← val_cast_inj, toField_cast, residue_cast]

theorem natCast_ne_zero_of_lt {k : Nat} (hk : 0 < k) (hlt : k < Config.P) :
    (k : ZMod Config.P) ≠ 0 := fun h =>
  absurd (Nat.le_of_dvd hk ((ZMod.natCast_eq_zero_iff k _).1 h)) (not_le.2 hlt)

section
variable [Fact Config.P.Prime]

/-- `fieldInv` is the inverse of the field, and 0 for 0. -/
theorem fieldInv_cast (v : Int) : (fieldInv v : ZMod Config.P) = (v : ZMod Config.P)⁻¹ := by
  rw [← toField_cast v, fieldInv]
  rcases eq_or_ne ((toField v).val : ZMod Config.P) 0 with hv | hv
  · rw [← Nat.cast_zero, ← Fin.val_zero Config.P, val_cast_inj] at hv
    simp [hv, inv_zero]
  · have hgcd : Nat.gcd (toField v).val Config.P = 1 :=
      (ZMod.isUnit_iff_coprime _ _).1 hv.isUnit
    have hmul := inv_mul_eq_gcd (toField v).val Config.P
    rw [hgcd] at hmul
    refine eq_inv_of_mul_eq_one_left ?_
    exact_mod_cast hmul

theorem val_residue_eq_zero_iff (y : ZMod Config.P) : (residue y).val = 0 ↔ y = 0 := by
  rw [← Fin.val_zero Config.P, ← Fin.ext_iff, ← val_cast_inj, residue_cast, Fin.val_zero,
    Nat.cast_zero]

end

end Sys2Proof.Machine
end

section
/-! SUPPORT. The machine's points and their addition as the group of the curve that Mathlib defines
(spec/41_secp256k1_scalar_mult.md R141 to R147). The lemmas take the primality of `P` as a class
argument, which `prime_P` supplies. -/

namespace Sys2Proof.Machine

/-- The curve `y^2 = x^3 + A x + B` over the field of `P` elements (R7, R141). -/
abbrev curve : WeierstrassCurve.Affine (ZMod Config.P) := ⟨0, 0, 0, Config.A, Config.B⟩

theorem onCurve_affine_iff (x y : Fin Config.P) :
    (Point.affine x y).onCurve = true ↔ curve.Equation (x.val : ZMod Config.P) y.val := by
  have hcast := ZMod.natCast_eq_natCast_iff' (y.val * y.val)
    (x.val * x.val * x.val + Config.A * x.val + Config.B) Config.P
  rw [Point.onCurve, decide_eq_true_eq, ← hcast, WeierstrassCurve.Affine.equation_iff]
  push_cast
  ring_nf

theorem curve_negY (x y : ZMod Config.P) : curve.negY x y = -y := by
  simp [WeierstrassCurve.Affine.negY]

theorem curve_addX (x1 x2 lam : ZMod Config.P) : curve.addX x1 x2 lam = lam * lam - x1 - x2 := by
  rw [WeierstrassCurve.Affine.addX]
  ring

theorem curve_addY (x1 x2 y1 lam : ZMod Config.P) :
    curve.addY x1 x2 y1 lam = lam * (x1 - curve.addX x1 x2 lam) - y1 := by
  rw [WeierstrassCurve.Affine.addY, curve_negY, WeierstrassCurve.Affine.negAddY]
  ring

/-- The common end of the formulas of R144 is that of the curve's group law. -/
theorem chord_eq (lam x1 y1 x2 : Int) : chord lam x1 y1 x2 =
    .affine (residue (curve.addX x1 x2 lam)) (residue (curve.addY x1 x2 y1 lam)) := by
  simp only [chord, toField_eq_residue]
  push_cast [residue_cast]
  rw [curve_addY, curve_addX]

/-- The point of the machine that a point of the curve is. -/
def ofPoint : curve.Point → Point
  | .zero => .infinity
  | .some x y _ => .affine (residue x) (residue y)

theorem ofPoint_eq_infinity_iff (p : curve.Point) : ofPoint p = .infinity ↔ p = 0 := by
  cases p with
  | zero => exact iff_of_true rfl rfl
  | some x y hp => exact iff_of_false nofun (WeierstrassCurve.Affine.Point.some_ne_zero hp)

section
variable [Fact Config.P.Prime]

/-- The discriminant of the curve is `-16 * 27 * 7^2`. -/
theorem curve_Δ_ne_zero : curve.Δ ≠ 0 := by
  have hΔ : curve.Δ = -((21168 : Nat) : ZMod Config.P) := by
    simp only [WeierstrassCurve.Δ, WeierstrassCurve.b₂, WeierstrassCurve.b₄, WeierstrassCurve.b₆,
      WeierstrassCurve.b₈, Config.A, Config.B]
    push_cast
    ring
  rw [hΔ, neg_ne_zero]
  exact natCast_ne_zero_of_lt (by decide) (by decide)

theorem onCurve_iff_exists_ofPoint (t : Point) : t.onCurve = true ↔ ∃ p, ofPoint p = t := by
  constructor
  · intro h
    cases t with
    | infinity => exact ⟨.zero, rfl⟩
    | affine x y =>
      have heq := (onCurve_affine_iff x y).1 h
      refine ⟨.some _ _ ((curve.equation_iff_nonsingular_of_Δ_ne_zero curve_Δ_ne_zero).1 heq), ?_⟩
      simp only [ofPoint, residue_val]
  · rintro ⟨p, rfl⟩
    cases p with
    | zero => rfl
    | some x y hp =>
      rw [ofPoint, onCurve_affine_iff, residue_cast, residue_cast]
      exact hp.1

/-! ## The slopes of R144 -/

theorem eq_negY_self_iff (x y : ZMod Config.P) : y = curve.negY x y ↔ y = 0 := by
  have h2 : (2 : ZMod Config.P) ≠ 0 := by
    simpa using natCast_ne_zero_of_lt (k := 2) (by decide) (by decide)
  rw [curve_negY, eq_neg_iff_add_eq_zero, ← two_mul, mul_eq_zero, or_iff_right h2]

theorem tangentSlope_cast (x y : Int) (hy : (y : ZMod Config.P) ≠ 0) :
    (tangentSlope x y : ZMod Config.P) = curve.slope x x y y := by
  rw [curve.slope_of_Y_ne rfl ((eq_negY_self_iff _ _).not.2 hy), curve_negY, tangentSlope,
    Int.cast_natCast, toField_cast, Int.cast_mul, fieldInv_cast, div_eq_mul_inv]
  push_cast [Config.A]
  ring_nf

theorem chordSlope_cast (x1 y1 x2 y2 : Int) (hx : (x1 : ZMod Config.P) ≠ x2) :
    (chordSlope x1 y1 x2 y2 : ZMod Config.P) = curve.slope x1 x2 y1 y2 := by
  rw [curve.slope_of_X_ne hx, chordSlope, Int.cast_natCast, toField_cast, Int.cast_mul,
    fieldInv_cast, ← div_eq_mul_inv, Int.cast_sub, Int.cast_sub, ← neg_sub (y1 : ZMod Config.P),
    ← neg_sub (x1 : ZMod Config.P), neg_div_neg_eq]

/-! ## The group operations (R144) -/

/-- `Dbl` is doubling in the group of the curve. -/
theorem pointDbl_ofPoint (p : curve.Point) : pointDbl (ofPoint p) = ofPoint (p + p) := by
  cases p with
  | zero => rfl
  | some x y hp =>
    by_cases hy : y = 0
    · have hneg : y = curve.negY x y := (eq_negY_self_iff x y).2 hy
      rw [WeierstrassCurve.Affine.Point.add_self_of_Y_eq hneg, ofPoint, pointDbl,
        if_pos ((val_residue_eq_zero_iff y).2 hy)]
      rfl
    · have hneg : y ≠ curve.negY x y := (eq_negY_self_iff x y).not.2 hy
      have hslope := tangentSlope_cast (residue x).val (residue y).val (by simpa using hy)
      rw [WeierstrassCurve.Affine.Point.add_self_of_Y_ne hneg, ofPoint, pointDbl,
        if_neg ((val_residue_eq_zero_iff y).not.2 hy), chord_eq, hslope]
      simp only [Int.cast_natCast, residue_cast, ofPoint]

/-- `Add` is addition in the group of the curve. -/
theorem pointAdd_ofPoint (p q : curve.Point) :
    pointAdd (ofPoint p) (ofPoint q) = ofPoint (p + q) := by
  cases p with
  | zero => exact congrArg ofPoint (zero_add q).symm
  | some x1 y1 h1 =>
    cases q with
    | zero => rfl
    | some x2 y2 h2 =>
      rw [ofPoint, ofPoint, pointAdd]
      by_cases hx : x1 = x2
      · subst hx
        rw [if_pos rfl]
        by_cases hy : y1 = y2
        · subst hy
          rw [if_pos rfl]
          exact pointDbl_ofPoint (.some x1 y1 h1)
        · have hneg : y1 = curve.negY x1 y2 :=
            (curve.Y_eq_of_X_eq h1.1 h2.1 rfl).resolve_left hy
          rw [if_neg ((residue_inj _ _).not.2 hy),
            WeierstrassCurve.Affine.Point.add_of_Y_eq rfl hneg]
          rfl
      · have hslope := chordSlope_cast (residue x1).val (residue y1).val (residue x2).val
          (residue y2).val (by simpa using hx)
        rw [if_neg ((residue_inj _ _).not.2 hx), WeierstrassCurve.Affine.Point.add_of_X_ne hx,
          chord_eq, hslope]
        simp only [Int.cast_natCast, residue_cast, ofPoint]

/-! ## Scalar multiples (R143, R147) -/

theorem scalarMultiple_ofPoint (k : Nat) (p : curve.Point) :
    scalarMultiple k (ofPoint p) = ofPoint (k • p) := by
  induction k with
  | zero => rw [zero_nsmul]; rfl
  | succ k ih => rw [scalarMultiple, ih, pointAdd_ofPoint, succ_nsmul]

/-- The loop of R147 doubles once for each bit and adds `G` for each bit that is set. -/
theorem doubleAndAdd_ofPoint {g : curve.Point} (hg : ofPoint g = generator) (bits k : Nat)
    (acc : curve.Point) :
    doubleAndAdd bits k (ofPoint acc) = ofPoint (2 ^ bits • acc + (k % 2 ^ bits) • g) := by
  induction bits generalizing acc with
  | zero => simp [doubleAndAdd, Nat.mod_one]
  | succ bits ih =>
    have hmod : k % 2 ^ (bits + 1) = 2 ^ bits * (k.testBit bits).toNat + k % 2 ^ bits := by
      rw [Nat.mod_pow_succ, Nat.toNat_testBit, Nat.add_comm]
    rw [doubleAndAdd, pointDbl_ofPoint, ← hg, pointAdd_ofPoint, hmod, pow_succ]
    cases k.testBit bits with
    | false =>
      rw [if_neg Bool.false_ne_true, ih, Bool.toNat_false]
      congr 1
      module
    | true =>
      rw [if_pos rfl, ih, Bool.toNat_true]
      congr 1
      module

theorem exists_ofPoint_generator : ∃ g, ofPoint g = generator :=
  (onCurve_iff_exists_ofPoint generator).1 (by decide)

/-- `ScalarBaseMul(k) = k·G` (R147). -/
theorem scalarBaseMul_eq_scalarMultiple {k : Nat} (hk : k < 2 ^ 256) :
    scalarBaseMul k = scalarMultiple k generator := by
  obtain ⟨g, hg⟩ := exists_ofPoint_generator
  have hloop := doubleAndAdd_ofPoint hg 256 k 0
  rw [nsmul_zero, zero_add, Nat.mod_eq_of_lt hk, ← scalarMultiple_ofPoint, hg] at hloop
  exact hloop

end

end Sys2Proof.Machine
end

section
/-! SUPPORT. The order of `G` (spec/10_state.md R31 c), and the multiples of `G` as a set that the
group operations keep. -/

namespace Sys2Proof.Machine

/-- `-(G)`, as R31 c computes it. -/
theorem scalarBaseMul_N_sub_one : scalarBaseMul (Config.N - 1)
    = .affine ⟨Config.GX, by decide⟩ ⟨Config.P - Config.GY, by decide⟩ := by
  decide +kernel

theorem pointAdd_N_sub_one_generator :
    pointAdd (scalarBaseMul (Config.N - 1)) generator = .infinity := by
  rw [scalarBaseMul_N_sub_one]
  decide

/-- A multiple `k·G` with `k` below the group order; `INF` is `0·G` (R24, R143). -/
def IsMultiple (t : Point) : Prop := ∃ k, k < Config.N ∧ t = scalarMultiple k generator

section
variable [Fact Config.P.Prime]

theorem pointAdd_scalarMultiple (j k : Nat) :
    pointAdd (scalarMultiple j generator) (scalarMultiple k generator)
      = scalarMultiple (j + k) generator := by
  obtain ⟨g, hg⟩ := exists_ofPoint_generator
  simp only [← hg, scalarMultiple_ofPoint, pointAdd_ofPoint, add_nsmul]

theorem pointDbl_scalarMultiple (k : Nat) :
    pointDbl (scalarMultiple k generator) = scalarMultiple (k + k) generator := by
  obtain ⟨g, hg⟩ := exists_ofPoint_generator
  simp only [← hg, scalarMultiple_ofPoint, pointDbl_ofPoint, add_nsmul]

/-- `N·G = INF`, so a multiple of `G` depends on its scalar modulo `N` only. -/
theorem scalarMultiple_mod_N (k : Nat) :
    scalarMultiple (k % Config.N) generator = scalarMultiple k generator := by
  obtain ⟨g, hg⟩ := exists_ofPoint_generator
  have horder : Config.N • g = 0 := by
    have hadd := pointAdd_N_sub_one_generator
    rwa [scalarBaseMul_eq_scalarMultiple (by decide), ← hg, scalarMultiple_ofPoint,
      pointAdd_ofPoint, ofPoint_eq_infinity_iff, ← succ_nsmul] at hadd
  rw [← hg, scalarMultiple_ofPoint, scalarMultiple_ofPoint]
  conv_rhs => rw [← Nat.mod_add_div k Config.N, add_nsmul, mul_nsmul, horder, nsmul_zero, add_zero]

theorem isMultiple_scalarMultiple (k : Nat) : IsMultiple (scalarMultiple k generator) :=
  ⟨k % Config.N, Nat.mod_lt _ (by decide), (scalarMultiple_mod_N k).symm⟩

end

end Sys2Proof.Machine
end

section
/-! SUPPORT. What a command can write and how it ends, said once for every command and any model arguments
(spec/10_state.md R20, spec/60_exceptions.md R317, R318). -/

namespace Sys2Proof.Machine

/-! ## The lengths of delivered byte sequences -/

theorem length_minBeFuel_le (fuel v n : Nat) (h : v < 256 ^ n) : (minBeFuel fuel v).length ≤ n := by
  induction fuel generalizing v n with
  | zero => simp [minBeFuel]
  | succ fuel ih =>
    rw [minBeFuel]
    split
    · simp
    · cases n with
      | zero => omega
      | succ n => simpa using ih (v / 256) n (by rw [pow_succ] at h; omega)

theorem b58Value_lt (c : Configuration) (s : List Byte) : b58Value c s < 58 ^ s.length := by
  induction s using List.reverseRecOn with
  | nil => simp [b58Value]
  | append_singleton s x ih =>
    have hdigit : ((digitOf c x).map Fin.val).getD 0 < 58 := by
      cases digitOf c x with
      | none => simp
      | some dg => exact dg.isLt
    rw [b58Value] at ih
    rw [b58Value, List.foldl_append, List.length_append, List.length_singleton, pow_succ,
      List.foldl_cons, List.foldl_nil]
    omega

/-- Decoding never lengthens a string: a digit is less than a byte (R227). -/
theorem length_b58RawDecode_le (c : Configuration) (s : List Byte) :
    (b58RawDecode c s).length ≤ s.length := by
  have hlead : leadingCount (alphabetChar c 0) s ≤ s.length := (List.takeWhile_sublist _).length_le
  have hval := b58Value_lt c (s.drop (leadingCount (alphabetChar c 0) s))
  have hmin := length_minBeFuel_le (b58Value c (s.drop (leadingCount (alphabetChar c 0) s))) _ _
    (hval.trans_le (Nat.pow_le_pow_left (by decide : 58 ≤ 256) _))
  rw [List.length_drop] at hmin
  rw [b58RawDecode, List.length_append, List.length_replicate, minBe]
  omega

theorem length_b58CheckDecode_le {h : HashFunctions} {c : Configuration} {expected : Byte}
    {s payload : List Byte} (hd : b58CheckDecode h c expected s = .ok payload) :
    payload.length ≤ s.length := by
  unfold b58CheckDecode at hd
  dsimp only at hd
  split_ifs at hd
  injection hd with hd
  have hraw := length_b58RawDecode_le c s
  rw [← hd, List.length_drop, List.length_take]
  omega

@[simp] theorem length_compressPoint (x y : Fin Config.P) : (compressPoint x y).length = 33 := by
  simp [compressPoint]

theorem length_trunc_truncLength_le (tr : TruncSelect) (x : List Byte) :
    (trunc (truncLength tr) x).length ≤ 64 := by
  have htr : truncLength tr ≤ 64 := by cases tr <;> decide
  rw [trunc, List.length_take]
  omega

/-! ## The writes of a command -/

/-- `CommandEffect p i s u`: before `STATUS` and `PHASE` take the completion, the command `i` has made `u`
of `s`. One constructor for each way in which commands write, with premises that say which commands write
so (R20). -/
inductive CommandEffect (p : Parameters) (i : Instr) (s : State) : State → Prop
  /-- Error completion of every command but the samplers. -/
  | nothing : CommandEffect p i s s
  /-- A modular command. -/
  | number (hn : writesN i = true) (d : NReg) (v : Nat) : CommandEffect p i s (s.setNVal d v)
  /-- PDBL. -/
  | doubled (hq : writesQ i = true) (d a : QReg) :
      CommandEffect p i s (s.setPoint d (pointDbl (s.point a)))
  /-- PADD. -/
  | added (hq : writesQ i = true) (d a b : QReg) :
      CommandEffect p i s (s.setPoint d (pointAdd (s.point a) (s.point b)))
  /-- SMULG, of a scalar in range. -/
  | multiplied (hq : writesQ i = true) (d : QReg) (k : Nat) (hk : k < Config.N) :
      CommandEffect p i s (s.setPoint d (scalarBaseMul k))
  /-- A command that delivers bytes: they fit a buffer, or are no more than a buffer holds already. -/
  | bytes (hb : writesB i = true) (d : BReg) (bs : List Byte)
      (hlen : bs.length ≤ p.lmax ∨ ∃ a, bs.length ≤ s.bufLen a) :
      CommandEffect p i s (s.setBuf p.lmax d bs)
  /-- A command of the hash adapter. -/
  | message (hm : writesHmsg i = true) (m : List Byte) : CommandEffect p i s (s.setHmsg m)
  /-- A sampler that found no scalar. -/
  | exhausted (hm : writesHmsg i = true) (hi : writesSiter i = true) (w : Word) :
      CommandEffect p i s ((s.setHmsg []).setSiter w)
  /-- A sampler that found the scalar `v`. -/
  | sampled (hn : writesN i = true) (hm : writesHmsg i = true) (hi : writesSiter i = true)
      (w : Word) (d : NReg) (v : Nat) :
      CommandEffect p i s (((s.setHmsg []).setSiter w).setNVal d v)
  /-- CLR. -/
  | cleared (hi : i = .clr) : CommandEffect p i s s.clearWorking

/-- `t` is the completion of `i` on `s`: its writes, and then a code in `STATUS` and an idle block. -/
def CompletedBy (p : Parameters) (i : Instr) (s t : State) : Prop :=
  ∃ u e, CommandEffect p i s u ∧ t = completeWith e u

section
variable {p : Parameters} {i : Instr} {s t : State}

theorem CompletedBy.of_finish {u : State} (hu : CommandEffect p i s u) (h : finish u = .next t) :
    CompletedBy p i s t := by
  injection h with h
  exact ⟨u, .ok, hu, h.symm⟩

theorem CompletedBy.of_raise {e : ErrCode} (h : raise e s = .next t) : CompletedBy p i s t := by
  injection h with h
  exact ⟨s, e, .nothing, h.symm⟩

theorem CompletedBy.of_withModulus {ms : ModSelect} {m : NReg} {body : Nat → Result}
    (hbody : ∀ md, body md = .next t → CompletedBy p i s t)
    (h : withModulus ms m s body = .next t) : CompletedBy p i s t := by
  rcases withModulus_next h with ⟨-, rfl⟩ | ⟨-, h⟩
  · exact ⟨s, _, .nothing, rfl⟩
  · exact hbody _ h

theorem CompletedBy.of_withU32 {r : NReg} {body : Nat → Result}
    (hbody : ∀ v, body v = .next t → CompletedBy p i s t)
    (h : withU32 r s body = .next t) : CompletedBy p i s t := by
  rcases withU32_next h with ⟨-, rfl⟩ | ⟨-, h⟩
  · exact ⟨s, _, .nothing, rfl⟩
  · exact hbody _ h

theorem CompletedBy.of_sampleCommand (hn : writesN i = true) (hm : writesHmsg i = true)
    (hi : writesSiter i = true) {h : HashFunctions} {d : NReg} {a : BReg} {disc : Option Nat}
    (ht : sampleCommand h d a disc s = .next t) : CompletedBy p i s t := by
  rcases deliverSample_next ht with ⟨-, rfl⟩ | ⟨c, k, -, rfl⟩
  · exact ⟨_, _, .exhausted hm hi _, rfl⟩
  · exact ⟨_, _, .sampled hn hm hi _ d c, rfl⟩

/-- Everything a command can do: one of the writes of `CommandEffect`, and then its completion (R28, R317,
R318). -/
theorem execWith_next (h : execWith p i s = .next t) : CompletedBy p i s t := by
  cases i with
  | modadd d a b ms m => exact .of_withModulus (fun _ => .of_finish (.number rfl d _)) h
  | modmul d a b ms m => exact .of_withModulus (fun _ => .of_finish (.number rfl d _)) h
  | modred d a ms m => exact .of_withModulus (fun _ => .of_finish (.number rfl d _)) h
  | modinv d a ms m =>
    rw [execWith, execModinv] at h
    refine .of_withModulus (fun md hmd => ?_) h
    split at hmd
    · exact .of_raise hmd
    · exact .of_finish (.number rfl d _) hmd
  | pdbl d a => exact .of_finish (.doubled rfl d a) h
  | padd d a b => exact .of_finish (.added rfl d a b) h
  | smulg d a =>
    rw [execWith, execSmulg] at h
    split at h
    · exact .of_raise h
    · exact .of_finish (.multiplied rfl d _ (by omega)) h
  | compress d a =>
    rw [execWith, execCompressWith] at h
    split at h
    · exact .of_raise h
    · have hfit : 33 ≤ p.lmax := le_trans (by decide) p.lmax_ge
      exact .of_finish (.bytes rfl d _ (.inl ((length_compressPoint _ _).trans_le hfit))) h
  | hreset => exact .of_finish (.message rfl _) h
  | hadd a => exact .of_finish (.message rfl _) h
  | hadd32 a => exact .of_withU32 (fun _ => .of_finish (.message rfl _)) h
  | hfin d tr =>
    exact .of_finish (.bytes rfl d _ (.inl ((length_trunc_truncLength_le tr _).trans p.lmax_ge))) h
  | sample d a => exact .of_sampleCommand rfl rfl rfl h
  | sampled d a b => exact .of_withU32 (fun _ => .of_sampleCommand rfl rfl rfl) h
  | b58enc d a ver =>
    rw [execWith, execB58encWith] at h
    split at h
    · exact .of_raise h
    · exact .of_finish (.bytes rfl d _ (.inl (by omega))) h
  | b58dec d a ver =>
    rw [execWith, execB58decWith] at h
    split at h
    · exact .of_raise h
    · rename_i payload hd
      have hlen := length_b58CheckDecode_le hd
      rw [State.length_buf] at hlen
      exact .of_finish (.bytes rfl d _ (.inr ⟨a, hlen⟩)) h
  | clr => exact .of_finish (.cleared rfl) h

end

theorem exec_next {i : Instr} {s t : State} (h : exec i s = .next t) : CompletedBy hardware i s t :=
  execWith_next ((execWith_hardware i s).trans h)

end Sys2Proof.Machine
end

section
/-! SUPPORT. The step case by case, and the one argument behind every invariant of the block: what the
port, the commands and the illegal words keep, every step keeps that is not a reset (spec/10_state.md
R28, spec/20_memory.md R68, R71, spec/70_reset_and_hazards.md R350). -/

namespace Sys2Proof.Machine

/-! ## Equations of the step -/

section
variable {p : Parameters} {run : Instr → State → Result} {s : State}

theorem runWordBy_of_decode {w : Word} {i : Instr} (hi : decode w = .ok i) (s : State) :
    runWordBy run w s = run i s := by
  rw [runWordBy, hi]

theorem blockStepBy_of_busy {w : Word} (hp : s.phase = .busy w) :
    blockStepBy run s = runWordBy run w s := by
  rw [blockStepBy, hp]

theorem blockStepBy_of_idle (hp : s.phase = .idle) : blockStepBy run s = .next s := by
  rw [blockStepBy, hp]

/-- The host does nothing more, and the port has nothing that it could carry out. -/
theorem advanceBy_of_nil (hs : s.script = []) (hfree : s.held = none ∨ s.phase ≠ .idle) :
    advanceBy p run s = blockStepBy run s := by
  unfold advanceBy
  split <;> simp_all

/-- The host waits, and the port has nothing that it could carry out. -/
theorem advanceBy_of_wait {rest : List Event} (hs : s.script = .wait :: rest)
    (hfree : s.held = none ∨ s.phase ≠ .idle) :
    advanceBy p run s = blockStepBy run { s with script := rest } := by
  unfold advanceBy
  split <;> simp_all

/-- The port holds a transaction of a busy block, so the host's next one has to wait. -/
theorem advanceBy_of_held {x y : Txn} {rest : List Event} (hheld : s.held = some x)
    (hs : s.script = .txn y :: rest) (hp : s.phase ≠ .idle) :
    advanceBy p run s = blockStepBy run s := by
  unfold advanceBy
  split <;> simp_all

theorem advanceBy_of_txn {x : Txn} {rest : List Event} (hheld : s.held = none)
    (hs : s.script = .txn x :: rest) :
    advanceBy p run s = .next (issueTxn p x { s with script := rest }) := by
  unfold advanceBy
  split <;> simp_all

theorem issueTxn_of_idle (hp : s.phase = .idle) (x : Txn) : issueTxn p x s = answer p x s := by
  rw [issueTxn, hp]

theorem issueTxn_of_busy {v : Word} (hp : s.phase = .busy v) {x : Txn}
    (hx : isStatusRead x = false) : issueTxn p x s = { s with held := some x } := by
  rw [issueTxn, hp]
  exact if_neg (by simp [hx])

/-- A write of `CMD` that is carried out accepts the command (R38). -/
theorem answer_write_cmd (w : Word) :
    answer p (.write 0x0000 w) s = { acceptCommand w s with responses := s.responses ++ [.ok] } :=
  rfl

end

/-! ## Invariants -/

/-- `Inv` speaks of the block only, and host writes, commands and illegal words keep it. -/
structure KeptByBlock (p : Parameters) (run : Instr → State → Result) (Inv : State → Prop) :
    Prop where
  outside : ∀ (s : State) (held : Option Txn) (script : List Event) (responses : List Response)
    (lost : Nat), Inv s →
      Inv { s with held := held, script := script, responses := responses, lost := lost }
  hostWrite : ∀ (a : Addr) (v : Word) (s : State), Inv s → Inv (hostWrite p a v s).1
  run : ∀ (i : Instr) (s t : State), Inv s → run i s = .next t → Inv t
  illegal : ∀ s : State, Inv s → Inv (completeWith .illegalCommand s)

namespace KeptByBlock

variable {p : Parameters} {run : Instr → State → Result} {Inv : State → Prop}

theorem transact (h : KeptByBlock p run Inv) (x : Txn) {s : State} (hs : Inv s) :
    Inv (transact p x s).1 := by
  rcases transact_cases p x s with ⟨a, v, -, heq⟩ | heq
  · rw [heq]
    exact h.hostWrite a v s hs
  · rwa [heq]

theorem answer (h : KeptByBlock p run Inv) (x : Txn) {s : State} (hs : Inv s) :
    Inv (answer p x s) :=
  h.outside _ _ _ _ _ (h.transact x hs)

theorem issueTxn (h : KeptByBlock p run Inv) (x : Txn) {s : State} (hs : Inv s) :
    Inv (issueTxn p x s) := by
  unfold Machine.issueTxn
  split
  · exact h.answer x hs
  · split
    · exact h.answer x hs
    · exact h.outside s _ _ _ _ hs

theorem resetBlock (h : KeptByBlock p run Inv) {c : Configuration} (hc : Inv (State.resetWith c))
    (s : State) : Inv (resetBlock c s) :=
  h.outside _ none s.script _ _ hc

theorem blockStepBy (h : KeptByBlock p run Inv) {s t : State} (hs : Inv s)
    (ht : blockStepBy run s = .next t) : Inv t := by
  rcases blockStepBy_next ht with ⟨w, -, hw⟩ | ⟨-, rfl⟩
  · rcases runWordBy_next hw with ⟨i, -, hi⟩ | ⟨-, rfl⟩
    · exact h.run i s t hs hi
    · exact h.illegal s hs
  · exact hs

/-- A step keeps `Inv`, if a reset, where the step is one, establishes it. -/
theorem advanceBy (h : KeptByBlock p run Inv) {s t : State} (hs : Inv s)
    (hreset : ∀ c rest, s.script = .reset c :: rest → Inv (State.resetWith c))
    (ht : advanceBy p run s = .next t) : Inv t := by
  rcases advanceBy_next ht with ⟨c, rest, hc, rfl⟩ | ⟨x, -, -, rfl⟩ | ⟨x, rest, -, -, rfl⟩ |
    ⟨rest, -, hb⟩ | hb
  · exact h.resetBlock (hreset c rest hc) _
  · exact h.answer x (h.outside s none s.script s.responses s.lost hs)
  · exact h.issueTxn x (h.outside s s.held rest s.responses s.lost hs)
  · exact h.blockStepBy (h.outside s s.held rest s.responses s.lost hs) hb
  · exact h.blockStepBy hs hb

end KeptByBlock

end Sys2Proof.Machine
end

section
/-! THEOREMS. The invariants of the state (spec/10_state.md R24, R25, R29, R33), and who writes what (R20). -/

namespace Sys2Proof.Machine

/-! ## The point registers (R24, R150) -/

/-- A set of points with `INF` and every `k·G` that `Dbl` and `Add` do not leave: the commands make points
in no other way. -/
structure PointsClosed (Q : Point → Prop) : Prop where
  infinity : Q .infinity
  multiple : ∀ k, k < Config.N → Q (scalarBaseMul k)
  double : ∀ a, Q a → Q (pointDbl a)
  add : ∀ a b, Q a → Q b → Q (pointAdd a b)

theorem forall_point_setPoint {Q : Point → Prop} {s : State} (hs : ∀ j, Q (s.point j)) {d : QReg}
    {x : Point} (hx : Q x) (j : QReg) : Q ((s.setPoint d x).point j) := by
  by_cases hj : j = d
  · subst hj
    rwa [State.point_setPoint_self]
  · rw [State.point_setPoint_of_ne _ _ hj]
    exact hs j

theorem point_eq_infinity_of_q {s : State} (h : s.q = Vector.replicate 4 .infinity) (j : QReg) :
    s.point j = .infinity := by
  simp [State.point, h]

theorem hostWrite_q (p : Parameters) (a : Addr) (v : Word) (s : State) :
    (hostWrite p a v s).1.q = s.q := by
  rcases hostWrite_cases p a v s with ⟨-, h⟩ | ⟨i, t, -, h⟩ | ⟨k, -, -, h⟩ | ⟨k, t, -, h⟩ | h <;>
    rw [h] <;> rfl

theorem PointsClosed.keptByBlock {Q : Point → Prop} (hQ : PointsClosed Q) :
    KeptByBlock hardware exec (fun s => ∀ j, Q (s.point j)) where
  outside _ _ _ _ _ hs := hs
  hostWrite a v s hs j := by
    rw [State.point, hostWrite_q]
    exact hs j
  run i s t hs h := by
    obtain ⟨u, e, hu, rfl⟩ := exec_next h
    show ∀ j, Q (u.point j)
    cases hu with
    | doubled hq d a => exact forall_point_setPoint hs (hQ.double _ (hs a))
    | added hq d a b => exact forall_point_setPoint hs (hQ.add _ _ (hs a) (hs b))
    | multiplied hq d k hk => exact forall_point_setPoint hs (hQ.multiple k hk)
    | cleared hi => exact fun j => point_eq_infinity_of_q s.clearWorking_q j ▸ hQ.infinity
    | nothing | number | bytes | message | exhausted | sampled => exact hs
  illegal _ hs := hs

/-- Every step keeps the point registers inside a closed set. -/
theorem PointsClosed.step {Q : Point → Prop} (hQ : PointsClosed Q) {s t : State}
    (hs : ∀ j, Q (s.point j)) (h : step s = .next t) : ∀ j, Q (t.point j) :=
  hQ.keptByBlock.advanceBy hs
    (fun c _ _ j => point_eq_infinity_of_q (s := State.resetWith c) rfl j ▸ hQ.infinity) h

theorem pointsOnCurve_iff (s : State) :
    s.pointsOnCurve = true ↔ ∀ j : QReg, (s.point j).onCurve = true := by
  rw [State.pointsOnCurve, Vector.all_eq_true]
  exact ⟨fun h j => h j.val j.isLt, fun h i hi => h ⟨i, hi⟩⟩

theorem pointsClosed_onCurve : PointsClosed (fun t => t.onCurve = true) := by
  have : Fact Config.P.Prime := ⟨prime_P⟩
  refine ⟨rfl, fun k hk => ?_, fun a ha => ?_, fun a b ha hb => ?_⟩
  · obtain ⟨g, hg⟩ := exists_ofPoint_generator
    rw [scalarBaseMul_eq_scalarMultiple (hk.trans (by decide)), ← hg, scalarMultiple_ofPoint]
    exact (onCurve_iff_exists_ofPoint _).2 ⟨_, rfl⟩
  · obtain ⟨p, rfl⟩ := (onCurve_iff_exists_ofPoint a).1 ha
    exact (onCurve_iff_exists_ofPoint _).2 ⟨_, (pointDbl_ofPoint p).symm⟩
  · obtain ⟨p, rfl⟩ := (onCurve_iff_exists_ofPoint a).1 ha
    obtain ⟨q, rfl⟩ := (onCurve_iff_exists_ofPoint b).1 hb
    exact (onCurve_iff_exists_ofPoint _).2 ⟨_, (pointAdd_ofPoint p q).symm⟩

theorem pointsClosed_isMultiple : PointsClosed IsMultiple := by
  have : Fact Config.P.Prime := ⟨prime_P⟩
  refine ⟨⟨0, by decide, rfl⟩, fun k hk => ?_, ?_, ?_⟩
  · exact ⟨k, hk, scalarBaseMul_eq_scalarMultiple (hk.trans (by decide))⟩
  · rintro _ ⟨k, -, rfl⟩
    rw [pointDbl_scalarMultiple]
    exact isMultiple_scalarMultiple _
  · rintro _ _ ⟨j, -, rfl⟩ ⟨k, -, rfl⟩
    rw [pointAdd_scalarMultiple]
    exact isMultiple_scalarMultiple _

/-- Settles O21: the points of the curve are the group that Mathlib gives it, so they are closed. -/
theorem pointsStayOnTheCurve : Obligations.PointsStayOnTheCurve := by
  unfold Obligations.PointsStayOnTheCurve
  intro s t hs h
  rw [pointsOnCurve_iff] at hs ⊢
  exact pointsClosed_onCurve.step hs h

/-- Settles O22: the multiples of `G` are closed, because the group law holds and `N·G = INF`. -/
theorem pointsStayInTheGroup : Obligations.PointsStayInTheGroup := by
  unfold Obligations.PointsStayInTheGroup
  exact fun s t hs h => pointsClosed_isMultiple.step hs h

/-! ## `STATUS` and `PHASE` (R29, R38, R311) -/

theorem statusAgrees_completeWith (e : ErrCode) (s : State) :
    (completeWith e s).statusAgrees = true := by
  rw [State.statusAgrees, completeWith_status, completeWith_phase]
  cases e <;> rfl

theorem statusAgrees_acceptCommand (w : Word) (s : State) :
    (acceptCommand w s).statusAgrees = true := rfl

theorem statusAgrees_keptByBlock : KeptByBlock hardware exec (fun s => s.statusAgrees = true) where
  outside _ _ _ _ _ hs := hs
  hostWrite a v s hs := by
    rcases hostWrite_cases hardware a v s with ⟨-, h⟩ | ⟨i, t, -, h⟩ | ⟨k, -, -, h⟩ | ⟨k, t, -, h⟩ | h
    · rw [h]
      exact statusAgrees_acceptCommand v s
    all_goals
      rw [h]
      exact hs
  run i s t _ h := by
    obtain ⟨u, e, -, rfl⟩ := exec_next h
    exact statusAgrees_completeWith e u
  illegal s _ := statusAgrees_completeWith _ s

/-- Settles O46: `STATUS` and `PHASE` change together, at acceptance, at completion and at reset. -/
theorem statusStaysCoherent : Obligations.StatusStaysCoherent := by
  unfold Obligations.StatusStaysCoherent
  exact fun s t hs h => statusAgrees_keptByBlock.advanceBy hs (fun _ _ _ => rfl) h

/-! ## The stored bytes and their lengths (R25, R26) -/

theorem bufLen_eq_zero_of_blen {s : State}
    (h : s.blen = Vector.replicate 4 ⟨0, Nat.succ_pos _⟩) (k : BReg) : s.bufLen k = 0 := by
  simp [State.bufLen, h]

theorem lengthsFit_of_blen {s : State} (h : s.blen = Vector.replicate 4 ⟨0, Nat.succ_pos _⟩)
    (p : Parameters) : s.lengthsFit p :=
  fun k => (bufLen_eq_zero_of_blen h k).trans_le (Nat.zero_le _)

theorem lengthsFit_setBufLen {p : Parameters} {s : State} (hs : s.lengthsFit p) (k : BReg) {v : Nat}
    (hv : v ≤ p.lmax) : (s.setBufLen k v).lengthsFit p := by
  intro j
  by_cases hj : j = k
  · subst hj
    rw [State.bufLen_setBufLen_self]
    omega
  · rw [State.bufLen_setBufLen_of_ne _ _ hj]
    exact hs j

theorem lengthsFit_setBuf {p : Parameters} {s : State} (hs : s.lengthsFit p) (cap : Nat) (k : BReg)
    {bs : List Byte} (hlen : bs.length ≤ p.lmax) : (s.setBuf cap k bs).lengthsFit p :=
  lengthsFit_setBufLen (s := s.setBufData k 0 (padToCapacity cap bs)) hs k hlen

theorem bytesFit_keptByBlock (p : Parameters) :
    KeptByBlock p (execWith p) (fun s => s.mem.wf = true ∧ s.lengthsFit p) where
  outside _ _ _ _ _ hs := hs
  hostWrite a v s hs := by
    obtain ⟨hwf, hfit⟩ := hs
    rcases hostWrite_cases p a v s with ⟨-, h⟩ | ⟨i, t, -, h⟩ | ⟨k, -, hv, h⟩ | ⟨k, t, -, h⟩ | h <;>
      rw [h]
    · exact ⟨hwf, hfit⟩
    · exact ⟨hwf, hfit⟩
    · exact ⟨hwf, lengthsFit_setBufLen hfit k hv⟩
    · refine ⟨State.setBufData_wf hwf k _ _ ?_, hfit⟩
      have ht := t.isLt
      simp only [wordBytes, List.length_cons, List.length_nil, Config.bufBytes]
      omega
    · exact ⟨hwf, hfit⟩
  run i s t hs h := by
    obtain ⟨hwf, hfit⟩ := hs
    obtain ⟨u, e, hu, rfl⟩ := execWith_next h
    cases hu with
    | bytes hb d bs hlen =>
      have hle : bs.length ≤ p.lmax := hlen.elim id fun ⟨a, ha⟩ => ha.trans (hfit a)
      exact ⟨State.setBuf_wf hwf p.lmax_le d bs, lengthsFit_setBuf hfit p.lmax d hle⟩
    | cleared hi => exact ⟨rfl, lengthsFit_of_blen rfl p⟩
    | nothing | number | doubled | added | multiplied | message | exhausted | sampled =>
      exact ⟨hwf, hfit⟩
  illegal _ hs := hs

/-- Settles O47: every store is inside a `DATA` window, and every delivered sequence fits a buffer (R210,
R227). On this hardware the bound on `LEN` is that of its type. -/
theorem storedBytesStayCanonical : Obligations.StoredBytesStayCanonical := by
  unfold Obligations.StoredBytesStayCanonical
  have hany : ∀ (p : Parameters) (s t : State), s.mem.wf = true → s.lengthsFit p →
      stepWith p s = .next t → t.mem.wf = true ∧ t.lengthsFit p := fun p s t hwf hfit h =>
    (bytesFit_keptByBlock p).advanceBy ⟨hwf, hfit⟩ (fun _ _ _ => ⟨rfl, lengthsFit_of_blen rfl p⟩) h
  refine ⟨fun s t hwf h => ?_, hany⟩
  rw [← stepWith_hardware] at h
  exact (hany hardware s t hwf s.bufLen_le h).1

/-! ## Who writes what (R20), and the configuration (R33, R34) -/

/-- Settles O45, by the ways in which commands write. -/
theorem commandsWriteOnlyTheirRegisters : Obligations.CommandsWriteOnlyTheirRegisters := by
  unfold Obligations.CommandsWriteOnlyTheirRegisters
  intro i s t h
  obtain ⟨u, e, hu, rfl⟩ := exec_next h
  have houtside : SameOutside s (completeWith e u) := by
    cases hu <;> exact ⟨rfl, rfl, rfl, rfl⟩
  cases hu with
  | nothing => simp [houtside]
  | number hn d v => simp [houtside, hn]
  | doubled hq d a => simp [houtside, hq]
  | added hq d a b => simp [houtside, hq]
  | multiplied hq d k hk => simp [houtside, hq]
  | bytes hb d bs hlen => simp [houtside, hb]
  | message hm m => simp [houtside, hm]
  | exhausted hm hi w => simp [houtside, hm, hi]
  | sampled hn hm hi w d v => simp [houtside, hn, hm, hi]
  | cleared hi =>
    subst hi
    simp [houtside, writesN, writesQ, writesB, writesHmsg, writesSiter]

theorem hostWrite_config (p : Parameters) (a : Addr) (v : Word) (s : State) :
    (hostWrite p a v s).1.config = s.config := by
  rcases hostWrite_cases p a v s with ⟨-, h⟩ | ⟨i, t, -, h⟩ | ⟨k, -, -, h⟩ | ⟨k, t, -, h⟩ | h <;>
    rw [h] <;> rfl

theorem config_keptByBlock (c : Configuration) :
    KeptByBlock hardware exec (fun s => s.config = c) where
  outside _ _ _ _ _ hs := hs
  hostWrite a v s hs := (hostWrite_config hardware a v s).trans hs
  run i s t hs h := (commandsWriteOnlyTheirRegisters i s t h).1.trans hs
  illegal _ hs := hs

/-- Settles O57: what is left of a step without reset keeps every value of the configuration. -/
theorem configurationChangesOnlyAtReset : Obligations.ConfigurationChangesOnlyAtReset := by
  unfold Obligations.ConfigurationChangesOnlyAtReset
  exact fun s t hreset h =>
    (config_keptByBlock s.config).advanceBy rfl (fun c rest hc => absurd hc (hreset c rest)) h

/-! ## The reset state (R40, R350) -/

/-- Settles O48. -/
theorem resetMeetsTheInvariants : Obligations.ResetMeetsTheInvariants := by
  unfold Obligations.ResetMeetsTheInvariants
  rintro c s rfl
  have hpoint : ∀ j, (State.resetWith c).point j = .infinity := point_eq_infinity_of_q rfl
  have hcurve : (State.resetWith c).pointsOnCurve = true :=
    (pointsOnCurve_iff _).2 fun j => hpoint j ▸ rfl
  have hgroup : (State.resetWith c).pointsInGroup := fun j => ⟨0, by decide, hpoint j⟩
  have hnum : ∀ i, (State.resetWith c).nVal i = 0 := by simp [State.nVal, State.resetWith]
  have hstatus : statusWord (State.resetWith c).status = 0 := by
    show statusWord ⟨false, false, false, 0⟩ = 0
    decide
  exact ⟨rfl, rfl, hcurve, hgroup, lengthsFit_of_blen rfl, hnum, hpoint,
    fun k => ⟨bufLen_eq_zero_of_blen rfl k, fun _ => rfl⟩, rfl, rfl, hstatus, rfl, rfl⟩

/-! ## The constants (R31) -/

/-- Settles O20: (c) is `scalarBaseMul_N_sub_one`, evaluated once. -/
theorem constantsPassTheirChecks : Obligations.ConstantsPassTheirChecks := by
  unfold Obligations.ConstantsPassTheirChecks
  exact ⟨by decide, by decide, ⟨_, rfl, scalarBaseMul_N_sub_one⟩, pointAdd_N_sub_one_generator,
    by decide⟩

end Sys2Proof.Machine
end

section
/-! THEOREMS. The busy and the idle step (spec/10_state.md R28), the acceptance of a command (R38), and
what the read-only registers read (R23, R29, R32 to R37, spec/20_memory.md R64, R66). -/

namespace Sys2Proof.Machine

/-! ## The busy step, and the write of `CMD` -/

/-- Settles O5, by the equations of the step. -/
theorem busyStepExecutesTheDecodedCommand : Obligations.BusyStepExecutesTheDecodedCommand := by
  unfold Obligations.BusyStepExecutesTheDecodedCommand
  refine ⟨fun s w hp => ?_, fun s hp => ?_⟩
  · have hbusy : s.phase ≠ .idle := by simp [hp]
    have hrun : ∀ (i : Instr) (u : State), u.phase = .busy w → decode w = .ok i →
        blockStep u = exec i u := fun i u hu hi =>
      (blockStepBy_of_busy hu).trans (runWordBy_of_decode hi u)
    have hnil : s.script = [] → step s = blockStep s := fun h => advanceBy_of_nil h (.inr hbusy)
    have hwait : ∀ rest, s.script = .wait :: rest → step s = blockStep { s with script := rest } :=
      fun rest h => advanceBy_of_wait h (.inr hbusy)
    have hheld : ∀ x y rest, s.held = some x → s.script = .txn y :: rest → step s = blockStep s :=
      fun x y rest hx h => advanceBy_of_held hx h hbusy
    exact ⟨hnil, hwait, hheld, fun i hi => ⟨hrun i s hp hi, fun h => (hnil h).trans (hrun i s hp hi),
      fun rest h => (hwait rest h).trans (hrun i _ hp hi),
      fun x y rest hx h => (hheld x y rest hx h).trans (hrun i s hp hi)⟩⟩
  · exact ⟨blockStepBy_of_idle hp,
      fun hh h => (advanceBy_of_nil h (.inl hh)).trans (blockStepBy_of_idle hp),
      fun rest hh h => (advanceBy_of_wait h (.inl hh)).trans (blockStepBy_of_idle hp)⟩

/-! ## The map and the layouts -/

/-- The map finds every mapped word at its address (R64). -/
theorem regAt_regAddr (r : HostReg) : regAt (BitVec.ofNat 16 (regAddr r)) = some r := by
  cases r <;> decide +revert

theorem hostRead_regAddr (r : HostReg) (s : State) {a : Nat} (ha : a = regAddr r) :
    hostRead (BitVec.ofNat 16 a) s = .data (regValue r s) := by
  rw [hostRead, ha, regAt_regAddr]

/-- The three flags, then the error code from bit 8, and zeros elsewhere (R29). -/
theorem getLsbD_statusWord (t : Status) {j : Nat} (hj : j < 32) :
    (statusWord t).getLsbD j =
      if j = 0 then t.busy else if j = 1 then t.done else if j = 2 then t.err
      else decide (8 ≤ j ∧ j < 16) && t.errcode.getLsbD (j - 8) := by
  simp only [statusWord, BitVec.getLsbD_append]
  interval_cases j <;> simp

theorem wordByte_packWord (b : Fin 4 → Byte) (i : Fin 4) :
    wordByte (packWord (b 0) (b 1) (b 2) (b 3)) i = b i := by
  refine BitVec.eq_of_getLsbD_eq fun j hj => ?_
  simp only [wordByte, packWord, BitVec.getLsbD_extractLsb', BitVec.getLsbD_append]
  fin_cases i <;> interval_cases j <;> rfl

theorem extractLsb'_packWord_zero (b0 b1 : Byte) :
    (packWord b0 b1 0 0).extractLsb' 0 16 = (0 : BitVec 16) := by
  refine BitVec.eq_of_getLsbD_eq fun j hj => ?_
  simp only [packWord, BitVec.getLsbD_extractLsb', BitVec.getLsbD_append]
  interval_cases j <;> rfl

theorem toNat_bigWord (v : Big) (t : Fin 8) :
    (bigWord v t).toNat = v.toNat / 2 ^ (224 - 32 * t.val) % 2 ^ 32 := by
  rw [bigWord, BitVec.extractLsb'_toNat, Nat.shiftRight_eq_div_pow]

/-- The eight words of a 256-bit value, most significant first, make up the value (R66). -/
theorem foldl_bigWord (v : Big) :
    (List.finRange 8).foldl (fun a t => 2 ^ 32 * a + (bigWord v t).toNat) 0 = v.toNat := by
  have hv := v.isLt
  have hrange : List.finRange 8 = [0, 1, 2, 3, 4, 5, 6, 7] := by decide
  simp only [hrange, toNat_bigWord, List.foldl_cons, List.foldl_nil]
  norm_num
  omega

theorem bigWord_zero (t : Fin 8) : bigWord 0 t = 0 := by
  simp [bigWord]

/-- A coordinate fits its 256-bit field (R23). -/
theorem toNat_ofNat_coordinate (x : Fin Config.P) : (BitVec.ofNat 256 x.val).toNat = x.val := by
  rw [BitVec.toNat_ofNat, Nat.mod_eq_of_lt (x.isLt.trans (by decide))]

theorem alphabetByte_eq_getD (c : Configuration) (i : Nat) :
    alphabetByte c i = c.alphabet.toList.getD i 0 := by
  unfold alphabetByte alphabetChar
  split <;> simp_all

/-! ## The statements about the port -/

/-- Settles O54: the write is the host's next transaction, answered by an idle block and held by the port
of a busy one. -/
theorem commandWriteIsAcceptedOrStalls : Obligations.CommandWriteIsAcceptedOrStalls := by
  unfold Obligations.CommandWriteIsAcceptedOrStalls
  intro s w rest hheld hs
  have hstep : step s = .next (issueTxn hardware (.write 0x0000 w) { s with script := rest }) :=
    advanceBy_of_txn hheld hs
  refine ⟨fun hp => ?_, fun v hp => ?_, hostRead_regAddr .cmd s rfl⟩
  · rw [issueTxn_of_idle (s := { s with script := rest }) hp, answer_write_cmd] at hstep
    exact ⟨_, hstep, rfl, statusWord_accepted, ⟨rfl, rfl, rfl, rfl, rfl, rfl, rfl⟩, hheld, rfl, rfl⟩
  · rw [hstep, issueTxn_of_busy (s := { s with script := rest }) hp rfl]

/-- Settles O52, bit by bit. -/
theorem statusRegisterLayout : Obligations.StatusRegisterLayout := by
  unfold Obligations.StatusRegisterLayout
  intro s
  have hbit := fun j (hj : j < 32) => getLsbD_statusWord s.status hj
  refine ⟨statusWord s.status, hostRead_regAddr .status s rfl, hbit 0 (by decide),
    hbit 1 (by decide), hbit 2 (by decide), ?_, ?_, ?_⟩ <;>
    refine BitVec.eq_of_getLsbD_eq fun j hj => ?_ <;>
    rw [BitVec.getLsbD_extractLsb', hbit _ (by omega)] <;>
    interval_cases j <;> simp

/-- Settles O53: each read is the value of the word that the map has at the address, and the values are
read by the lemmas about the layouts. -/
theorem readOnlyRegistersReadBack : Obligations.ReadOnlyRegistersReadBack := by
  unfold Obligations.ReadOnlyRegistersReadBack
  intro s
  refine ⟨hostRead_regAddr .cmd s rfl, hostRead_regAddr .siter s rfl,
    ⟨_, hostRead_regAddr .hlen s rfl, BitVec.toNat_ofNat _ _⟩,
    ⟨_, hostRead_regAddr .versions s rfl, ?_, ?_, extractLsb'_packWord_zero _ _⟩,
    fun j i => ?_, fun c => ?_, fun j => ?_⟩
  · exact wordByte_packWord ![s.config.seedVersion, s.config.accountVersion, 0, 0] 0
  · exact wordByte_packWord ![s.config.seedVersion, s.config.accountVersion, 0, 0] 1
  · refine ⟨_, hostRead_regAddr (.alphabet j) s rfl, ?_⟩
    rw [← alphabetByte_eq_getD]
    exact wordByte_packWord (fun i => alphabetByte s.config (4 * j.val + i.val)) i
  · refine ⟨fun t => _, fun t => hostRead_regAddr (.constant c t) s rfl, ?_⟩
    simp only [regValue, foldl_bigWord]
    fin_cases c <;> decide
  · have hinf : hostRead (BitVec.ofNat 16 (0x0840 + 0x80 * j.val)) s
        = .data (pointInfWord (s.point j)) :=
      hostRead_regAddr (.pointInf j) s (by rw [regAddr]; omega)
    refine ⟨fun t => _, fun t => _, fun t => hostRead_regAddr (.pointX j t) s rfl,
      fun t => hostRead_regAddr (.pointY j t) s (by rw [regAddr]; omega), ?_⟩
    simp only [regValue]
    split
    · rename_i hq
      rw [hinf, hq]
      exact ⟨rfl, bigWord_zero, bigWord_zero⟩
    · rename_i x y hq
      rw [hinf, hq, foldl_bigWord, foldl_bigWord]
      exact ⟨rfl, toNat_ofNat_coordinate x, toNat_ofNat_coordinate y⟩

end Sys2Proof.Machine
end

section
/-! THEOREMS. The address map (spec/20_memory.md R62, R64), the responses of the port (R65, R246, R320), and
what its reads return and its writes store (R66, R69, R71, spec/46_system_and_host_access.md R245 to
R248). -/

namespace Sys2Proof.Machine

/-! ## The address map (R64) -/

theorem regAddr_lt (r : HostReg) : regAddr r < 2 ^ 16 := by
  cases r <;> simp only [regAddr] <;> omega

theorem regAddr_mod_four (r : HostReg) : regAddr r % 4 = 0 := by
  cases r <;> simp only [regAddr] <;> omega

/-- What the map has to have at the byte address `a`: the word whose address is `a`, and nothing exactly
where R62 and R64 leave `a` unmapped. -/
def MapsTo (a : Nat) : Option HostReg → Prop
  | none => ¬mappedAddress a
  | some r => regAddr r = a ∧ mappedAddress a

/-- The map range by range. -/
theorem mapsTo_regAtNat (a : Nat) : MapsTo a (regAtNat a) := by
  unfold regAtNat
  repeat' refine iteInduction (motive := MapsTo a) (fun _ => ?_) fun _ => ?_
  all_goals
    simp only [MapsTo, regAddr, mappedAddress, Fin.val_ofNat]
    omega

theorem regAddr_of_regAtNat {a : Nat} {r : HostReg} (h : regAtNat a = some r) : regAddr r = a := by
  have hmap := mapsTo_regAtNat a
  rw [h] at hmap
  exact hmap.1

theorem regAtNat_eq_none_iff (a : Nat) : regAtNat a = none ↔ ¬mappedAddress a := by
  have hmap := mapsTo_regAtNat a
  cases h : regAtNat a with
  | none =>
    rw [h] at hmap
    exact iff_of_true rfl hmap
  | some r =>
    rw [h] at hmap
    obtain ⟨-, hmapped⟩ := hmap
    exact iff_of_false nofun (not_not_intro hmapped)

theorem regAt_eq_some_iff (a : Addr) (r : HostReg) : regAt a = some r ↔ regAddr r = a.toNat := by
  refine ⟨regAddr_of_regAtNat, fun h => ?_⟩
  rw [← regAt_regAddr r, h, BitVec.ofNat_toNat, BitVec.setWidth_eq]

/-- No two addresses lead to the same word. -/
theorem addr_eq_of_regAt {a b : Addr} {r : HostReg} (ha : regAt a = some r) (hb : regAt b = some r) :
    b = a := by
  rw [regAt_eq_some_iff] at ha hb
  exact BitVec.eq_of_toNat_eq (hb.symm.trans ha)

/-- Settles O49. -/
theorem addressMapIsExact : Obligations.AddressMapIsExact := by
  unfold Obligations.AddressMapIsExact
  exact ⟨fun r => ⟨regAddr_lt r, regAddr_mod_four r, regAt_regAddr r⟩,
    fun a r => (regAt_eq_some_iff a r).1⟩

/-! ## Responses (R62, R65, R246, R320) -/

theorem hostRead_eq_busError_iff (a : Addr) (s : State) :
    hostRead a s = .busError ↔ regAt a = none := by
  unfold hostRead
  split <;> simp [*]

/-- The host may write `v` to the mapped word (R65, R246). -/
def HostReg.Accepts (lmax : Nat) (v : Word) : HostReg → Prop
  | .cmd | .nWord _ _ | .bufData _ _ => True
  | .bufLen _ => v.toNat ≤ lmax
  | _ => False

theorem writableAddress_regAddr_iff (lmax : Nat) (v : Word) (r : HostReg) :
    writableAddress lmax (regAddr r) v ↔ r.Accepts lmax v := by
  cases r <;> simp only [writableAddress, regAddr, HostReg.Accepts, iff_true, iff_false, true_and,
    true_or] <;> omega

theorem mappedAddress_of_writableAddress {lmax a : Nat} {v : Word} (h : writableAddress lmax a v) :
    mappedAddress a := by
  unfold writableAddress at h
  unfold mappedAddress
  omega

theorem hostWrite_of_regAt_none {p : Parameters} {a : Addr} (h : regAt a = none) (v : Word) (s : State) :
    hostWrite p a v s = (s, .busError) := by
  rw [hostWrite, h]

theorem hostWrite_eq_busError_iff {p : Parameters} {a : Addr} {r : HostReg} (h : regAt a = some r)
    (v : Word) (s : State) : (hostWrite p a v s).2 = .busError ↔ ¬r.Accepts p.lmax v := by
  rw [hostWrite, h]
  cases r with
  | bufLen k =>
    by_cases hv : p.lmax < v.toNat
    · simp [HostReg.Accepts, hv]
    · simp [HostReg.Accepts, hv, not_lt.1 hv]
  | _ => simp [HostReg.Accepts]

theorem hostWrite_of_busError {p : Parameters} {a : Addr} {v : Word} {s : State}
    (h : (hostWrite p a v s).2 = .busError) : (hostWrite p a v s).1 = s := by
  rcases hostWrite_cases p a v s with ⟨-, hw⟩ | ⟨i, t, -, hw⟩ | ⟨k, -, -, hw⟩ | ⟨k, t, -, hw⟩ | hw <;>
    rw [hw] at h ⊢ <;> cases h

/-- Settles O50: the ranges of R64 and R65 are those of the map, word by word. -/
theorem busErrorExactlyWhereTheMapSays : Obligations.BusErrorExactlyWhereTheMapSays := by
  unfold Obligations.BusErrorExactlyWhereTheMapSays
  refine ⟨fun a s => ?_, fun p a v s => ?_, fun p a s => rfl, fun p x s h => ?_⟩
  · exact (hostRead_eq_busError_iff a s).trans (regAtNat_eq_none_iff a.toNat)
  · cases hr : regAt a with
    | none =>
      have hunmapped := (regAtNat_eq_none_iff a.toNat).1 hr
      rw [hostWrite_of_regAt_none hr]
      exact iff_of_true rfl (mt mappedAddress_of_writableAddress hunmapped)
    | some r =>
      rw [hostWrite_eq_busError_iff hr, ← (regAt_eq_some_iff a r).1 hr, writableAddress_regAddr_iff]
  · cases x with
    | read a => rfl
    | nonWord a => rfl
    | write a v => exact hostWrite_of_busError h

/-! ## The bytes of a data word (R63) -/

/-- The four bytes of a word make up the word. -/
theorem packWord_wordByte (v : Word) :
    packWord (wordByte v 0) (wordByte v 1) (wordByte v 2) (wordByte v 3) = v := by
  refine BitVec.eq_of_getLsbD_eq fun j hj => ?_
  simp only [packWord, wordByte, BitVec.getLsbD_append, BitVec.getLsbD_extractLsb']
  interval_cases j <;> simp

@[simp] theorem length_wordBytes (v : Word) : (wordBytes v).length = 4 := rfl

theorem getD_wordBytes (v : Word) (j : Fin 4) : (wordBytes v).getD j.val 0 = wordByte v j := by
  fin_cases j <;> rfl

/-! ## Words after a write (R71, R245 to R247) -/

theorem regValue_setN_self (s : State) (i : NReg) (t : Fin 8) (v : Word) :
    regValue (.nWord i t) (s.setN i (setBigWord s.n[i.val] t v)) = v := by
  simp [regValue, bigWord_setBigWord_self]

theorem regValue_setN_of_ne (s : State) {i : NReg} {t : Fin 8} (v : Word) {r : HostReg}
    (hr : r ≠ .nWord i t) : regValue r (s.setN i (setBigWord s.n[i.val] t v)) = regValue r s := by
  cases r with
  | nWord j u =>
    rcases eq_or_ne j i with rfl | hj
    · have hu : u ≠ t := fun h => hr (h ▸ rfl)
      simp [regValue, bigWord_setBigWord_of_ne _ v hu]
    · simp [regValue, Vector.getElem_set_ne, Fin.val_ne_of_ne hj.symm]
  | _ => rfl

theorem regValue_setBufLen_self (s : State) (k : BReg) {v : Word} (hv : v.toNat ≤ Config.bufBytes) :
    regValue (.bufLen k) (s.setBufLen k v.toNat) = v := by
  rw [regValue, State.bufLen_setBufLen_self, Nat.min_eq_left hv, BitVec.ofNat_toNat,
    BitVec.setWidth_eq]

theorem regValue_setBufLen_of_ne (s : State) {k : BReg} (v : Nat) {r : HostReg}
    (hr : r ≠ .bufLen k) : regValue r (s.setBufLen k v) = regValue r s := by
  cases r with
  | bufLen j =>
    have hj : j ≠ k := fun h => hr (h ▸ rfl)
    rw [regValue, regValue, State.bufLen_setBufLen_of_ne s v hj]
  | _ => rfl

section
variable {s : State} (hm : s.mem.wf = true) (k : BReg) (t : Fin 64) (v : Word)
include hm

/-- A stored word changes its four bytes and no other (R247). -/
theorem read_storeWord_outside {a : Nat}
    (ha : ¬(dataAddr k (4 * t.val) ≤ a ∧ a < dataAddr k (4 * t.val) + 4)) :
    (s.setBufData k (4 * t.val) (wordBytes v)).mem.read a = s.mem.read a := by
  rw [State.setBufData_mem, Memory.read_writeAll (Memory.Sorted.of_wf hm), length_wordBytes,
    if_neg ha]

theorem bufData_storeWord_self (j : Fin 4) :
    (s.setBufData k (4 * t.val) (wordBytes v)).bufData k (4 * t.val + j.val) = wordByte v j := by
  rw [State.bufData, State.setBufData_mem, Memory.read_writeAll (Memory.Sorted.of_wf hm),
    length_wordBytes, ← dataAddr_add, if_pos (by omega), Nat.add_sub_cancel_left, getD_wordBytes]

theorem regValue_storeWord_self :
    regValue (.bufData k t) (s.setBufData k (4 * t.val) (wordBytes v)) = v := by
  have hbyte := bufData_storeWord_self hm k t v
  have hfirst : (s.setBufData k (4 * t.val) (wordBytes v)).bufData k (4 * t.val) = wordByte v 0 :=
    hbyte 0
  calc regValue (.bufData k t) (s.setBufData k (4 * t.val) (wordBytes v))
    _ = packWord (wordByte v 0) (wordByte v 1) (wordByte v 2) (wordByte v 3) := by
      rw [regValue, hfirst, ← hbyte 1, ← hbyte 2, ← hbyte 3]
      rfl
    _ = v := packWord_wordByte v

theorem regValue_storeWord_of_ne {r : HostReg} (hr : r ≠ .bufData k t) :
    regValue r (s.setBufData k (4 * t.val) (wordBytes v)) = regValue r s := by
  cases r with
  | bufData l u =>
    have hne : l.val ≠ k.val ∨ u.val ≠ t.val := by
      by_contra! h
      exact hr (by rw [Fin.ext h.1, Fin.ext h.2])
    have hbyte : ∀ j, 4 * u.val ≤ j → j < 4 * u.val + 4 →
        (s.setBufData k (4 * t.val) (wordBytes v)).bufData l j = s.bufData l j := fun j _ _ =>
      read_storeWord_outside hm k t v (by simp only [dataAddr]; omega)
    simp (disch := omega) only [regValue, hbyte]
  | _ => rfl

end

/-- If only the word at `a` differs, and is `v` now, then so do the reads. -/
theorem hostRead_of_regValue {a : Addr} {r : HostReg} (ha : regAt a = some r) {s s' : State} {v : Word}
    (hself : regValue r s' = v) (hother : ∀ x, x ≠ r → regValue x s' = regValue x s) (b : Addr) :
    hostRead b s' = if b = a then .data v else hostRead b s := by
  split
  · rename_i hb
    rw [hb, hostRead, ha]
    exact congrArg Response.data hself
  · rename_i hb
    rw [hostRead, hostRead]
    cases hx : regAt b with
    | none => rfl
    | some x =>
      have hne : x ≠ r := fun h => hb (addr_eq_of_regAt ha (h ▸ hx))
      exact congrArg Response.data (hother x hne)

/-- Every accepted write but that of a command is read back, and changes no other word (R71). -/
theorem hostRead_hostWrite {p : Parameters} {a : Addr} {v : Word} {s : State} (hm : s.mem.wf = true)
    (ha : a ≠ 0x0000) (hok : (hostWrite p a v s).2 = .ok) (b : Addr) :
    hostRead b (hostWrite p a v s).1 = if b = a then .data v else hostRead b s := by
  rcases hostWrite_cases p a v s with ⟨hr, -⟩ | ⟨i, t, hr, hw⟩ | ⟨k, hr, hv, hw⟩ | ⟨k, t, hr, hw⟩ | hw
  · exact absurd (addr_eq_of_regAt (r := .cmd) rfl hr) ha
  · rw [hw]
    exact hostRead_of_regValue hr (regValue_setN_self s i t v) (fun _ => regValue_setN_of_ne s v) b
  · rw [hw]
    exact hostRead_of_regValue hr (regValue_setBufLen_self s k (hv.trans p.lmax_le))
      (fun _ => regValue_setBufLen_of_ne s v.toNat) b
  · rw [hw]
    exact hostRead_of_regValue hr (regValue_storeWord_self hm k t v)
      (fun _ => regValue_storeWord_of_ne hm k t v) b
  · rw [hw] at hok
    cases hok

/-! ## The writes at their addresses (R245 to R247) -/

section
variable (p : Parameters) (v : Word) (s : State) {a : Nat}

theorem hostWrite_nWord (i : NReg) (t : Fin 8) (ha : a = regAddr (.nWord i t)) :
    hostWrite p (BitVec.ofNat 16 a) v s = (s.setN i (setBigWord s.n[i.val] t v), .ok) := by
  rw [hostWrite, ha, regAt_regAddr]

theorem hostWrite_bufLen (k : BReg) (ha : a = regAddr (.bufLen k)) (hv : v.toNat ≤ p.lmax) :
    hostWrite p (BitVec.ofNat 16 a) v s = (s.setBufLen k v.toNat, .ok) := by
  rw [hostWrite, ha, regAt_regAddr]
  exact if_neg (not_lt.2 hv)

theorem hostWrite_bufData (k : BReg) (t : Fin 64) (ha : a = regAddr (.bufData k t)) :
    hostWrite p (BitVec.ofNat 16 a) v s = (s.setBufData k (4 * t.val) (wordBytes v), .ok) := by
  rw [hostWrite, ha, regAt_regAddr]

end

theorem nVal_setBigWord_word (s : State) (i : NReg) (t u : Fin 8) (v : Word) :
    (s.setN i (setBigWord s.n[i.val] t v)).nVal i / 2 ^ (224 - 32 * u.val) % 2 ^ 32
      = if u = t then v.toNat else s.nVal i / 2 ^ (224 - 32 * u.val) % 2 ^ 32 := by
  rw [State.nVal_setN_self, ← toNat_bigWord]
  split
  · rename_i hu
    rw [hu, bigWord_setBigWord_self]
  · rename_i hu
    rw [bigWord_setBigWord_of_ne _ v hu, toNat_bigWord, State.nVal]

theorem onlyN_setN (s : State) (i : NReg) (v : Big) : OnlyN i s (s.setN i v) :=
  ⟨fun _ hj => State.nVal_setN_of_ne s v hj, rfl, rfl, rfl, rfl, rfl, rfl, rfl, rfl, rfl, rfl⟩

theorem onlyB_setBufLen (s : State) (k : BReg) (v : Nat) : OnlyB 0 k s (s.setBufLen k v) :=
  ⟨rfl, rfl, fun _ hj => State.bufLen_setBufLen_of_ne s v hj, fun _ _ => rfl, rfl, rfl, rfl, rfl, rfl,
    rfl, rfl⟩

theorem onlyB_storeWord {s : State} (hm : s.mem.wf = true) (k : BReg) (t : Fin 64) (v : Word) :
    OnlyB 256 k s (s.setBufData k (4 * t.val) (wordBytes v)) := by
  refine ⟨rfl, rfl, fun _ _ => rfl, fun a ha => read_storeWord_outside hm k t v fun hin => ha ?_, rfl,
    rfl, rfl, rfl, rfl, rfl, rfl⟩
  simp only [dataAddr] at hin ⊢
  omega

/-- Settles O51: each address is that of its word, and the word is read and written by the lemmas above. -/
theorem readReturnsTheLastWrite : Obligations.ReadReturnsTheLastWrite := by
  unfold Obligations.ReadReturnsTheLastWrite
  refine ⟨fun p a v s hm ha hok b => hostRead_hostWrite hm ha hok b, fun p b s => rfl,
    fun s i t => ⟨_, hostRead_regAddr (.nWord i t) s rfl, toNat_bigWord _ t⟩,
    fun s k => ⟨_, hostRead_regAddr (.bufLen k) s rfl, ?_⟩,
    fun s k t => ⟨_, hostRead_regAddr (.bufData k t) s rfl,
      wordByte_packWord fun j => s.bufData k (4 * t.val + j.val)⟩,
    fun p s i t v => ⟨_, hostWrite_nWord p v s i t rfl, fun u => nVal_setBigWord_word s i t u v,
      onlyN_setN s i _, rfl, rfl⟩,
    fun p s k v hv => ⟨_, hostWrite_bufLen p v s k rfl hv, ?_, rfl, onlyB_setBufLen s k _, rfl, rfl⟩,
    fun p s k t v hm => ⟨_, hostWrite_bufData p v s k t rfl, bufData_storeWord_self hm k t v,
      fun a ha => read_storeWord_outside hm k t v ha, rfl, onlyB_storeWord hm k t v, rfl, rfl⟩⟩
  · exact Nat.mod_eq_of_lt ((s.bufLen_le k).trans_lt (by decide))
  · rw [State.bufLen_setBufLen_self, Nat.min_eq_left (hv.trans p.lmax_le)]

end Sys2Proof.Machine
end

section
/-! THEOREMS. The port of an idle and of a busy block (spec/20_memory.md R61, R65, R68, R71). -/

namespace Sys2Proof.Machine

/-! ## Every command answers with a next state (R360) -/

section
variable {p : Parameters} {s : State}

theorem exists_next_withModulus {ms : ModSelect} {m : NReg} {body : Nat → Result}
    (hbody : ∀ md, ∃ t, body md = .next t) : ∃ t, withModulus ms m s body = .next t := by
  rw [withModulus]
  split
  · exact ⟨_, rfl⟩
  · exact hbody _

theorem exists_next_withU32 {r : NReg} {body : Nat → Result}
    (hbody : ∀ v, ∃ t, body v = .next t) : ∃ t, withU32 r s body = .next t := by
  rw [withU32]
  split
  · exact ⟨_, rfl⟩
  · exact hbody _

theorem exists_next_sampleCommand (h : HashFunctions) (d : NReg) (a : BReg) (disc : Option Nat) :
    ∃ t, sampleCommand h d a disc s = .next t := by
  rw [sampleCommand]
  cases scalarFromSeed h (s.buf a) disc <;> exact ⟨_, rfl⟩

theorem exists_next_execWith (i : Instr) : ∃ t, execWith p i s = .next t := by
  cases i with
  | modadd d a b ms m => exact exists_next_withModulus fun _ => ⟨_, rfl⟩
  | modmul d a b ms m => exact exists_next_withModulus fun _ => ⟨_, rfl⟩
  | modred d a ms m => exact exists_next_withModulus fun _ => ⟨_, rfl⟩
  | modinv d a ms m =>
    rw [execWith, execModinv]
    refine exists_next_withModulus fun md => ?_
    split <;> exact ⟨_, rfl⟩
  | smulg d a =>
    rw [execWith, execSmulg]
    split <;> exact ⟨_, rfl⟩
  | compress d a =>
    rw [execWith, execCompressWith]
    split <;> exact ⟨_, rfl⟩
  | hadd32 a => exact exists_next_withU32 fun _ => ⟨_, rfl⟩
  | sample d a => exact exists_next_sampleCommand _ d a none
  | sampled d a b => exact exists_next_withU32 fun disc => exists_next_sampleCommand _ d a (some disc)
  | b58enc d a ver =>
    rw [execWith, execB58encWith]
    split <;> exact ⟨_, rfl⟩
  | b58dec d a ver =>
    rw [execWith, execB58decWith]
    split <;> exact ⟨_, rfl⟩
  | pdbl | padd | hreset | hadd | hfin | clr => exact ⟨_, rfl⟩

end

/-- A busy block completes in its own step, legal word or not, and nothing outside it changes (R28,
R97). -/
theorem blockStep_of_busy {s : State} {w : Word} (hp : s.phase = .busy w) :
    ∃ t, blockStep s = .next t ∧ t.phase = .idle ∧ SameOutside s t := by
  rw [blockStep, blockStepBy_of_busy hp]
  cases hw : decode w with
  | error e =>
    rw [runWordBy, hw]
    exact ⟨_, rfl, rfl, rfl, rfl, rfl, rfl⟩
  | ok i =>
    obtain ⟨t, ht⟩ := exists_next_execWith (p := hardware) (s := s) i
    rw [execWith_hardware] at ht
    rw [runWordBy_of_decode hw, ht]
    obtain ⟨-, houtside, -⟩ := commandsWriteOnlyTheirRegisters i s t ht
    obtain ⟨u, e, -, rfl⟩ := exec_next ht
    exact ⟨_, rfl, rfl, houtside⟩

/-! ## A transaction carried out -/

theorem transact_sameOutside (p : Parameters) (x : Txn) (s : State) :
    SameOutside s (transact p x s).1 := by
  rcases transact_cases p x s with ⟨a, v, -, hx⟩ | hx <;> rw [hx]
  · rcases hostWrite_cases p a v s with ⟨-, h⟩ | ⟨i, t, -, h⟩ | ⟨k, -, -, h⟩ | ⟨k, t, -, h⟩ | h <;>
      rw [h] <;> exact ⟨rfl, rfl, rfl, rfl⟩
  · exact ⟨rfl, rfl, rfl, rfl⟩

/-- A transaction does not depend on what the port holds or on what the host does next. -/
theorem transact_outside (p : Parameters) (x : Txn) (s : State) (held : Option Txn)
    (script : List Event) :
    transact p x { s with held := held, script := script }
      = ({ (transact p x s).1 with held := held, script := script }, (transact p x s).2) := by
  cases x with
  | nonWord a => rfl
  | read a =>
    have hval : ∀ r, regValue r { s with held := held, script := script } = regValue r s := fun r => by
      cases r <;> rfl
    simp only [transact, hostRead, hval]
  | write a v =>
    simp only [transact, hostWrite]
    cases regAt a with
    | none => rfl
    | some r =>
      cases r with
      | bufLen k =>
        by_cases hv : p.lmax < v.toNat
        · simp only [if_pos hv]
        · simp only [if_neg hv]
          rfl
      | _ => rfl

/-- `t` is `s` after the transaction `x` was carried out and answered, with nothing held by the port and
`script` to come. -/
def CarriesOut (x : Txn) (script : List Event) (s t : State) : Prop :=
  t.script = script ∧ t.held = none ∧ t.responses = s.responses ++ [(transact hardware x s).2]
    ∧ t.lost = s.lost ∧ SameWorking (transact hardware x s).1 t
    ∧ t.phase = (transact hardware x s).1.phase ∧ t.status = (transact hardware x s).1.status

theorem carriesOut_answer (x : Txn) (script : List Event) (s : State) :
    CarriesOut x script s (answer hardware x { s with held := none, script := script }) := by
  obtain ⟨-, -, -, hlost⟩ := transact_sameOutside hardware x s
  rw [answer, transact_outside]
  exact ⟨rfl, rfl, rfl, hlost, ⟨rfl, rfl, rfl, rfl, rfl, rfl, rfl⟩, rfl, rfl⟩

/-! ## The step at the port -/

/-- The relations of `STATUS` and `PHASE` leave a busy block one value of `STATUS` (R38). -/
theorem status_of_busy {s : State} {w : Word} (hs : s.statusAgrees = true) (hp : s.phase = .busy w) :
    s.status = statusAccepted := by
  cases hst : s.status with
  | mk busy done err errcode =>
    simp only [State.statusAgrees, hst, hp, Phase.isBusy, Bool.and_eq_true, beq_iff_eq,
      Bool.not_eq_true', Bool.and_eq_false_iff, Bool.or_eq_false_iff] at hs
    obtain ⟨⟨⟨rfl, herr⟩, hdone⟩, -⟩ := hs
    obtain ⟨rfl, rfl⟩ := hdone.resolve_left nofun
    obtain rfl : errcode = 0 := bne_eq_false_iff_eq.1 herr.symm
    rfl

theorem issueTxn_of_statusRead {p : Parameters} {x : Txn} (hx : x = .read 0x0004) (s : State) :
    issueTxn p x s = answer p x s := by
  subst hx
  unfold issueTxn
  split <;> rfl

/-- A held transaction is carried out on the idle block, before anything but a reset. -/
theorem step_of_held_of_idle {s : State} {x : Txn} (hp : s.phase = .idle) (hx : s.held = some x)
    (hreset : ∀ c rest, s.script ≠ .reset c :: rest) :
    step s = .next (answer hardware x { s with held := none }) := by
  unfold step advanceBy
  split <;> simp_all

/-- The script after a step in which the host could do nothing but wait. -/
def afterWait : List Event → List Event
  | .wait :: rest => rest
  | events => events

/-- While the port holds a transaction of a busy block, only the block's own step is left, and a wait of
the host passes with it. -/
theorem step_of_held_of_busy {s : State} {w : Word} {x : Txn} (hp : s.phase = .busy w)
    (hx : s.held = some x) (hreset : ∀ c rest, s.script ≠ .reset c :: rest) :
    step s = blockStep { s with script := afterWait s.script } := by
  have hbusy : s.phase ≠ .idle := by simp [hp]
  cases hs : s.script with
  | nil =>
    have hsame : { s with script := [] } = s := by rw [← hs]
    exact (advanceBy_of_nil hs (.inr hbusy)).trans (congrArg blockStep hsame.symm)
  | cons e rest =>
    cases e with
    | reset c => exact absurd hs (hreset c rest)
    | wait => exact advanceBy_of_wait hs (.inr hbusy)
    | txn y =>
      have hsame : { s with script := .txn y :: rest } = s := by rw [← hs]
      exact (advanceBy_of_held hx hs hbusy).trans (congrArg blockStep hsame.symm)

/-- Settles O55: the four cases of the port, idle or busy and with or without a held transaction. -/
theorem busyPortHoldsTransactions : Obligations.BusyPortHoldsTransactions := by
  unfold Obligations.BusyPortHoldsTransactions
  refine ⟨fun s x rest hp hheld hs => ?_, fun s w x rest hagree hp hheld hs => ?_,
    fun s w x hp hx hreset => ?_, fun s x hp hx hreset => ?_⟩
  · have hstep : step s = .next (answer hardware x { s with held := none, script := rest }) := by
      rw [← hheld, ← issueTxn_of_idle (s := { s with script := rest }) hp]
      exact advanceBy_of_txn hheld hs
    exact ⟨_, hstep, carriesOut_answer x rest s⟩
  · have hstep : step s = .next (issueTxn hardware x { s with script := rest }) :=
      advanceBy_of_txn hheld hs
    refine ⟨fun hx => ?_, fun hx => ?_⟩
    · have hread : hostRead 0x0004 { s with script := rest } = .data 0x00000001 := by
        rw [← statusWord_accepted, ← status_of_busy hagree hp]
        exact hostRead_regAddr .status _ rfl
      rw [hstep, issueTxn_of_statusRead hx, answer, hx, transact, hread]
    · rw [hstep, issueTxn_of_busy (s := { s with script := rest }) hp (beq_false_of_ne hx)]
  · obtain ⟨t, ht, hidle, hheld, hscript, hresponses, hlost⟩ :=
      blockStep_of_busy (s := { s with script := afterWait s.script }) hp
    rw [step_of_held_of_busy hp hx hreset]
    exact ⟨t, ht, hidle, hheld.trans hx, hresponses, hlost, hscript⟩
  · obtain ⟨hscript, hheld, hresponses, hlost, hrest⟩ := carriesOut_answer x s.script s
    exact ⟨_, step_of_held_of_idle hp hx hreset, hheld, hscript, hlost, hresponses, hrest⟩

end Sys2Proof.Machine
end

section
/-! THEOREMS. The decoder and the encoder are inverse to each other on the legal words and the well-formed
instructions, the opcode table accepts the same words, and every other word ends with `IllegalCommand`
(spec/30_encoding.md R91 to R101). -/

namespace Sys2Proof

/-! ## The checks of R94, passed on what was encoded -/

@[simp] theorem ok_bind {α β : Type} (a : α) (k : α → Except Illegal β) :
    (Except.ok a >>= k) = k a := rfl

@[simp] theorem reserved_zero {k : Nat} : reserved 0#k = .ok () := if_pos rfl

/-- The opcode of an instruction (R96). -/
def Instr.opcode : Instr → Opcode
  | .modadd .. => .modadd
  | .modmul .. => .modmul
  | .modred .. => .modred
  | .modinv .. => .modinv
  | .pdbl .. => .pdbl
  | .padd .. => .padd
  | .smulg .. => .smulg
  | .compress .. => .compress
  | .hreset => .hreset
  | .hadd .. => .hadd
  | .hadd32 .. => .hadd32
  | .hfin .. => .hfin
  | .sample .. => .sample
  | .sampled .. => .sampled
  | .b58enc .. => .b58enc
  | .b58dec .. => .b58dec
  | .clr => .clr

@[simp] theorem fieldOp_encode (i : Instr) : fieldOp (encode i) = opcodeByte i.opcode := by
  cases i <;> exact fieldOp_commandWord ..

/-- Steps 2 to 4 of R94 accept the fields of a well-formed instruction and read them back. Only the
modular commands have a relation between fields to meet (R93 a). -/
theorem decodeFields_encode {i : Instr} (h : i.wellFormed = true) :
    decodeFields i.opcode (encode i) = .ok i := by
  cases i with
  | modadd | modmul | modred | modinv =>
    simp [encode, decodeFields, Instr.opcode, modSelectOf_modSelectByte h]
  | pdbl | padd | smulg | compress | hreset | hadd | hadd32 | hfin | sample | sampled | b58enc | b58dec
  | clr => simp [encode, decodeFields, Instr.opcode]

theorem decode_encode {i : Instr} (h : i.wellFormed = true) : decode (encode i) = .ok i := by
  rw [decode, fieldOp_encode, opcodeOf_opcodeByte]
  exact decodeFields_encode h

/-! ## The checks of R94, read backwards: what a word that passes them has in its fields -/

theorem bind_eq_ok {α β : Type} {x : Except Illegal α} {k : α → Except Illegal β} {b : β} :
    (x >>= k) = .ok b ↔ ∃ a, x = .ok a ∧ k a = .ok b := by
  cases x <;> simp [bind, Except.bind]

theorem reserved_eq_ok {n : Nat} {f : BitVec n} {u : Unit} : reserved f = .ok u ↔ 0 = f := by
  rw [reserved, eq_comm (a := 0)]
  split <;> simp_all

theorem nIndex_eq_ok {f : BitVec 4} {i : NReg} : nIndex f = .ok i ↔ indexField i = f :=
  ⟨indexField_of_nIndex, fun h => h ▸ nIndex_indexField i⟩

theorem qIndex_eq_ok {f : BitVec 4} {i : QReg} : qIndex f = .ok i ↔ indexField i = f :=
  ⟨indexField_of_qIndex, fun h => h ▸ qIndex_indexField i⟩

theorem bIndex_eq_ok {f : BitVec 4} {i : BReg} : bIndex f = .ok i ↔ indexField i = f :=
  ⟨indexField_of_bIndex, fun h => h ▸ bIndex_indexField i⟩

/-- A modulus select that is read agrees with `m`, and its code is the byte it was read from. -/
theorem modSelectOf_eq_ok {imm : BitVec 8} {m : NReg} {ms : ModSelect} :
    modSelectOf imm m = .ok ms ↔ ms.agrees m = true ∧ modSelectByte ms = imm := by
  refine ⟨fun h => ?_, fun ⟨hm, himm⟩ => himm ▸ modSelectOf_modSelectByte hm⟩
  unfold modSelectOf at h
  split_ifs at h with h2 hm h0 h1 <;> cases h <;> simp_all [ModSelect.agrees, modSelectByte]

theorem truncSelectOf_eq_ok {imm : BitVec 8} {tr : TruncSelect} :
    truncSelectOf imm = .ok tr ↔ truncSelectByte tr = imm := by
  refine ⟨fun h => ?_, fun h => h ▸ truncSelectOf_truncSelectByte tr⟩
  unfold truncSelectOf at h
  split_ifs at h <;> cases h <;> simp_all [truncSelectByte]

theorem commandWord_eq_of_fields {w : Word} {op : BitVec 8} {d a b m : BitVec 4} {imm : BitVec 8}
    (hop : op = fieldOp w) (hd : d = fieldD w) (ha : a = fieldA w) (hb : b = fieldB w) (hm : m = fieldM w)
    (himm : imm = fieldImm w) : commandWord op d a b m imm = w := by
  rw [hop, hd, ha, hb, hm, himm, commandWord_fields]

/-- A word that steps 2 to 4 of R94 accept has the fields of the instruction read from it. -/
theorem encode_of_decodeFields {o : Opcode} {w : Word} {i : Instr} (hop : opcodeByte o = fieldOp w)
    (h : decodeFields o w = .ok i) : i.wellFormed = true ∧ encode i = w := by
  cases o <;> simp only [decodeFields, bind_eq_ok, reserved_eq_ok, nIndex_eq_ok, qIndex_eq_ok,
    bIndex_eq_ok, modSelectOf_eq_ok, truncSelectOf_eq_ok, Except.ok.injEq, exists_and_left,
    exists_const] at h
  case modadd | modmul =>
    obtain ⟨d, hd, a, ha, b, hb, m, hm, ms, ⟨hms, himm⟩, rfl⟩ := h
    exact ⟨hms, commandWord_eq_of_fields hop hd ha hb hm himm⟩
  case modred | modinv =>
    obtain ⟨hb, d, hd, a, ha, m, hm, ms, ⟨hms, himm⟩, rfl⟩ := h
    exact ⟨hms, commandWord_eq_of_fields hop hd ha hb hm himm⟩
  case pdbl | smulg | compress | sample =>
    obtain ⟨hb, hm, himm, d, hd, a, ha, rfl⟩ := h
    exact ⟨rfl, commandWord_eq_of_fields hop hd ha hb hm himm⟩
  case padd | sampled =>
    obtain ⟨hm, himm, d, hd, a, ha, b, hb, rfl⟩ := h
    exact ⟨rfl, commandWord_eq_of_fields hop hd ha hb hm himm⟩
  case hreset | clr =>
    obtain ⟨hd, ha, hb, hm, himm, rfl⟩ := h
    exact ⟨rfl, commandWord_eq_of_fields hop hd ha hb hm himm⟩
  case hadd | hadd32 =>
    obtain ⟨hd, hb, hm, himm, a, ha, rfl⟩ := h
    exact ⟨rfl, commandWord_eq_of_fields hop hd ha hb hm himm⟩
  case hfin =>
    obtain ⟨ha, hb, hm, d, hd, tr, himm, rfl⟩ := h
    exact ⟨rfl, commandWord_eq_of_fields hop hd ha hb hm himm⟩
  case b58enc | b58dec =>
    obtain ⟨hb, hm, d, hd, a, ha, rfl⟩ := h
    exact ⟨rfl, commandWord_eq_of_fields hop hd ha hb hm rfl⟩

theorem opcode_of_decode {w : Word} {i : Instr} (h : decode w = .ok i) :
    ∃ o, opcodeByte o = fieldOp w ∧ decodeFields o w = .ok i := by
  rw [decode] at h
  split at h
  · cases h
  · exact ⟨_, opcodeByte_of_opcodeOf ‹_›, h⟩

/-- The legal words are the encodings of the well-formed instructions (R94). -/
theorem decode_eq_ok {w : Word} {i : Instr} : decode w = .ok i ↔ i.wellFormed = true ∧ encode i = w := by
  constructor
  · intro h
    obtain ⟨o, hop, hfields⟩ := opcode_of_decode h
    exact encode_of_decodeFields hop hfields
  · rintro ⟨hwf, rfl⟩
    exact decode_encode hwf

/-- Settles O1, by evaluating the checks of R94 on the fields of each instruction. -/
theorem decodeOfEncodeIsTheInstruction : Obligations.DecodeOfEncodeIsTheInstruction := by
  unfold Obligations.DecodeOfEncodeIsTheInstruction
  exact fun _ => decode_encode

/-- Settles O2: each check of R94 that a word passes fixes one of its fields, and the fields are the whole
word. -/
theorem decodedWordIsItsEncoding : Obligations.DecodedWordIsItsEncoding := by
  unfold Obligations.DecodedWordIsItsEncoding
  exact fun _ _ => decode_eq_ok.1

/-- Settles O4: each word is the encoding of the command beside it. -/
theorem workedWordsDecode : Obligations.WorkedWordsDecode := by
  unfold Obligations.WorkedWordsDecode
  simp only [decode_eq_ok]
  decide

/-! ## The opcode table (R101) -/

/-- Where a row's mask is 8, it lets an index of the 8 n-registers through (R92). -/
theorem nIndex_of_mask {f : BitVec 4} (h : f &&& 0x8 = 0) : ∃ i : NReg, indexField i = f := by
  decide +revert

/-- Where a row's mask is 12, it lets an index of the 4 point registers or byte buffers through (R92). -/
theorem qIndex_of_mask {f : BitVec 4} (h : f &&& 0xC = 0) : ∃ i : Fin 4, indexField i = f := by
  decide +revert

/-- Where a row's mask has every bit of a field, the field is reserved (R95). -/
theorem reserved_of_mask {n : Nat} {f : BitVec n} (h : f &&& BitVec.allOnes n = 0) : 0 = f :=
  h.symm.trans BitVec.and_allOnes

theorem eq_zero_of_indexField {i : NReg} (h : indexField i = 0) : i = 0 := by
  decide +revert

theorem selector_cases {imm : BitVec 8} (h : imm.toNat ≤ 2) : 0 = imm ∨ 1 = imm ∨ 2 = imm := by
  bv_omega

/-- The constraint of the modular rows is R93 a: `imm` is the code of a select that agrees with `m`. -/
theorem modularConstraint_eq_true {w : Word} {m : NReg} (hm : indexField m = fieldM w)
    (h : modularConstraint w = true) :
    ∃ ms : ModSelect, ms.agrees m = true ∧ modSelectByte ms = fieldImm w := by
  simp only [modularConstraint, ← hm, Bool.and_eq_true, Bool.or_eq_true, beq_iff_eq, decide_eq_true_eq] at h
  obtain ⟨himm, hagrees⟩ := h
  rcases selector_cases himm with h0 | h1 | h2
  · exact ⟨.primeP, beq_iff_eq.2 (eq_zero_of_indexField (hagrees.resolve_right (by simp [← h0]))), h0⟩
  · exact ⟨.orderN, beq_iff_eq.2 (eq_zero_of_indexField (hagrees.resolve_right (by simp [← h1]))), h1⟩
  · exact ⟨.register, rfl, h2⟩

/-- The constraint of HFIN's row is R93 b. -/
theorem truncConstraint_eq_true {w : Word} (h : truncConstraint w = true) :
    ∃ tr, truncSelectByte tr = fieldImm w := by
  rcases selector_cases (of_decide_eq_true h) with h0 | h1 | h2
  · exact ⟨.whole64, h0⟩
  · exact ⟨.first32, h1⟩
  · exact ⟨.first16, h2⟩

theorem commandWord_inj {op op' : BitVec 8} {d a b m d' a' b' m' : BitVec 4} {imm imm' : BitVec 8} :
    commandWord op d a b m imm = commandWord op' d' a' b' m' imm'
      ↔ op = op' ∧ d = d' ∧ a = a' ∧ b = b' ∧ m = m' ∧ imm = imm' := by
  refine ⟨fun h => ⟨?_, ?_, ?_, ?_, ?_, ?_⟩, fun ⟨hop, hd, ha, hb, hm, himm⟩ => by
    rw [hop, hd, ha, hb, hm, himm]⟩
  · simpa using congrArg fieldOp h
  · simpa using congrArg fieldD h
  · simpa using congrArg fieldA h
  · simpa using congrArg fieldB h
  · simpa using congrArg fieldM h
  · simpa using congrArg fieldImm h

/-- A word that a row accepts has the row's opcode, zeros under the masks of its other fields, and meets
the row's constraint. `D` to `M` say what the mask of a field means for it. -/
theorem fields_of_accepts {r : TableRow} {w : Word} (op imm : BitVec 8) {d a b m : BitVec 4}
    {D A B M : Prop} (hd : fieldD w &&& d = 0 → D) (ha : fieldA w &&& a = 0 → A)
    (hb : fieldB w &&& b = 0 → B) (hm : fieldM w &&& m = 0 → M)
    (hpattern : r.pattern = commandWord op 0 0 0 0 0)
    (hmask : r.mask = commandWord (BitVec.allOnes 8) d a b m imm) (h : r.accepts w = true) :
    op = fieldOp w ∧ D ∧ A ∧ B ∧ M ∧ fieldImm w &&& imm = 0 ∧ r.constraint w = true := by
  rw [TableRow.accepts, Bool.and_eq_true, beq_iff_eq, hpattern, hmask] at h
  obtain ⟨hmasked, hc⟩ := h
  rw [← commandWord_fields w, commandWord_and, commandWord_inj, BitVec.and_allOnes] at hmasked
  obtain ⟨hop, hd0, ha0, hb0, hm0, himm0⟩ := hmasked
  exact ⟨hop.symm, hd hd0, ha ha0, hb hb0, hm hm0, himm0, hc⟩

/-- A word that a row accepts is the encoding of a well-formed instruction: each masked field is an
index, and the constraint gives the selector. -/
theorem exists_encode_of_accepts {r : TableRow} {w : Word} (hr : r ∈ opcodeTable)
    (h : r.accepts w = true) : ∃ i : Instr, i.wellFormed = true ∧ encode i = w := by
  simp only [opcodeTable, List.mem_cons, List.not_mem_nil, or_false] at hr
  rcases hr with rfl | rfl | rfl | rfl | rfl | rfl | rfl | rfl | rfl | rfl | rfl | rfl | rfl |
    rfl | rfl | rfl | rfl
  · obtain ⟨hop, ⟨d, hd⟩, ⟨a, ha⟩, ⟨b, hb⟩, ⟨m, hm⟩, -, hc⟩ :=
      fields_of_accepts 0x01 0xFC nIndex_of_mask nIndex_of_mask nIndex_of_mask nIndex_of_mask rfl rfl h
    obtain ⟨ms, hms, himm⟩ := modularConstraint_eq_true hm hc
    exact ⟨.modadd d a b ms m, hms, commandWord_eq_of_fields hop hd ha hb hm himm⟩
  · obtain ⟨hop, ⟨d, hd⟩, ⟨a, ha⟩, ⟨b, hb⟩, ⟨m, hm⟩, -, hc⟩ :=
      fields_of_accepts 0x02 0xFC nIndex_of_mask nIndex_of_mask nIndex_of_mask nIndex_of_mask rfl rfl h
    obtain ⟨ms, hms, himm⟩ := modularConstraint_eq_true hm hc
    exact ⟨.modmul d a b ms m, hms, commandWord_eq_of_fields hop hd ha hb hm himm⟩
  · obtain ⟨hop, ⟨d, hd⟩, ⟨a, ha⟩, hb, ⟨m, hm⟩, -, hc⟩ :=
      fields_of_accepts 0x03 0xFC nIndex_of_mask nIndex_of_mask reserved_of_mask nIndex_of_mask rfl rfl h
    obtain ⟨ms, hms, himm⟩ := modularConstraint_eq_true hm hc
    exact ⟨.modred d a ms m, hms, commandWord_eq_of_fields hop hd ha hb hm himm⟩
  · obtain ⟨hop, ⟨d, hd⟩, ⟨a, ha⟩, hb, ⟨m, hm⟩, -, hc⟩ :=
      fields_of_accepts 0x04 0xFC nIndex_of_mask nIndex_of_mask reserved_of_mask nIndex_of_mask rfl rfl h
    obtain ⟨ms, hms, himm⟩ := modularConstraint_eq_true hm hc
    exact ⟨.modinv d a ms m, hms, commandWord_eq_of_fields hop hd ha hb hm himm⟩
  · obtain ⟨hop, ⟨d, hd⟩, ⟨a, ha⟩, hb, hm, himm, -⟩ :=
      fields_of_accepts 0x10 0xFF qIndex_of_mask qIndex_of_mask reserved_of_mask reserved_of_mask rfl rfl h
    exact ⟨.pdbl d a, rfl, commandWord_eq_of_fields hop hd ha hb hm (reserved_of_mask himm)⟩
  · obtain ⟨hop, ⟨d, hd⟩, ⟨a, ha⟩, ⟨b, hb⟩, hm, himm, -⟩ :=
      fields_of_accepts 0x11 0xFF qIndex_of_mask qIndex_of_mask qIndex_of_mask reserved_of_mask rfl rfl h
    exact ⟨.padd d a b, rfl, commandWord_eq_of_fields hop hd ha hb hm (reserved_of_mask himm)⟩
  · obtain ⟨hop, ⟨d, hd⟩, ⟨a, ha⟩, hb, hm, himm, -⟩ :=
      fields_of_accepts 0x12 0xFF qIndex_of_mask nIndex_of_mask reserved_of_mask reserved_of_mask rfl rfl h
    exact ⟨.smulg d a, rfl, commandWord_eq_of_fields hop hd ha hb hm (reserved_of_mask himm)⟩
  · obtain ⟨hop, ⟨d, hd⟩, ⟨a, ha⟩, hb, hm, himm, -⟩ :=
      fields_of_accepts 0x13 0xFF qIndex_of_mask qIndex_of_mask reserved_of_mask reserved_of_mask rfl rfl h
    exact ⟨.compress d a, rfl, commandWord_eq_of_fields hop hd ha hb hm (reserved_of_mask himm)⟩
  · obtain ⟨hop, hd, ha, hb, hm, himm, -⟩ :=
      fields_of_accepts 0x20 0xFF reserved_of_mask reserved_of_mask reserved_of_mask reserved_of_mask rfl rfl
        h
    exact ⟨.hreset, rfl, commandWord_eq_of_fields hop hd ha hb hm (reserved_of_mask himm)⟩
  · obtain ⟨hop, hd, ⟨a, ha⟩, hb, hm, himm, -⟩ :=
      fields_of_accepts 0x21 0xFF reserved_of_mask qIndex_of_mask reserved_of_mask reserved_of_mask rfl rfl h
    exact ⟨.hadd a, rfl, commandWord_eq_of_fields hop hd ha hb hm (reserved_of_mask himm)⟩
  · obtain ⟨hop, hd, ⟨a, ha⟩, hb, hm, himm, -⟩ :=
      fields_of_accepts 0x22 0xFF reserved_of_mask nIndex_of_mask reserved_of_mask reserved_of_mask rfl rfl h
    exact ⟨.hadd32 a, rfl, commandWord_eq_of_fields hop hd ha hb hm (reserved_of_mask himm)⟩
  · obtain ⟨hop, ⟨d, hd⟩, ha, hb, hm, -, hc⟩ :=
      fields_of_accepts 0x23 0xFC qIndex_of_mask reserved_of_mask reserved_of_mask reserved_of_mask rfl rfl h
    obtain ⟨tr, himm⟩ := truncConstraint_eq_true hc
    exact ⟨.hfin d tr, rfl, commandWord_eq_of_fields hop hd ha hb hm himm⟩
  · obtain ⟨hop, ⟨d, hd⟩, ⟨a, ha⟩, hb, hm, himm, -⟩ :=
      fields_of_accepts 0x30 0xFF nIndex_of_mask qIndex_of_mask reserved_of_mask reserved_of_mask rfl rfl h
    exact ⟨.sample d a, rfl, commandWord_eq_of_fields hop hd ha hb hm (reserved_of_mask himm)⟩
  · obtain ⟨hop, ⟨d, hd⟩, ⟨a, ha⟩, ⟨b, hb⟩, hm, himm, -⟩ :=
      fields_of_accepts 0x31 0xFF nIndex_of_mask qIndex_of_mask nIndex_of_mask reserved_of_mask rfl rfl h
    exact ⟨.sampled d a b, rfl, commandWord_eq_of_fields hop hd ha hb hm (reserved_of_mask himm)⟩
  · obtain ⟨hop, ⟨d, hd⟩, ⟨a, ha⟩, hb, hm, -, -⟩ :=
      fields_of_accepts 0x40 0x00 qIndex_of_mask qIndex_of_mask reserved_of_mask reserved_of_mask rfl rfl h
    exact ⟨.b58enc d a (fieldImm w), rfl, commandWord_eq_of_fields hop hd ha hb hm rfl⟩
  · obtain ⟨hop, ⟨d, hd⟩, ⟨a, ha⟩, hb, hm, -, -⟩ :=
      fields_of_accepts 0x41 0x00 qIndex_of_mask qIndex_of_mask reserved_of_mask reserved_of_mask rfl rfl h
    exact ⟨.b58dec d a (fieldImm w), rfl, commandWord_eq_of_fields hop hd ha hb hm rfl⟩
  · obtain ⟨hop, hd, ha, hb, hm, himm, -⟩ :=
      fields_of_accepts 0x7F 0xFF reserved_of_mask reserved_of_mask reserved_of_mask reserved_of_mask rfl rfl
        h
    exact ⟨.clr, rfl, commandWord_eq_of_fields hop hd ha hb hm (reserved_of_mask himm)⟩

theorem tableRow_mem (i : Instr) : tableRow i ∈ opcodeTable := by
  cases i <;> simp [tableRow, opcodeTable]

open Laws.EncodeMatchesTable in
/-- The row of a well-formed instruction accepts its encoding. -/
theorem accepts_encode (i : Instr) : Statement i :=
  match i with
  | .modadd .. => modadd _ _ _ _ _
  | .modmul .. => modmul _ _ _ _ _
  | .modred .. => modred _ _ _ _
  | .modinv .. => modinv _ _ _ _
  | .pdbl .. => pdbl _ _
  | .padd .. => padd _ _ _
  | .smulg .. => smulg _ _
  | .compress .. => compress _ _
  | .hreset => hreset
  | .hadd _ => hadd _
  | .hadd32 _ => hadd32 _
  | .hfin .. => hfin _ _
  | .sample .. => sample _ _
  | .sampled .. => sampled _ _ _
  | .b58enc .. => b58enc _ _ _
  | .b58dec .. => b58dec _ _ _
  | .clr => clr

theorem tableRow_accepts_of_decode {w : Word} {i : Instr} (h : decode w = .ok i) :
    (tableRow i).accepts w = true := by
  obtain ⟨hwf, rfl⟩ := decode_eq_ok.1 h
  exact accepts_encode i hwf

/-- Settles O3: the legal words and the words that some row accepts are both the encodings of the
well-formed instructions. -/
theorem decoderAcceptsTheTablesWords : Obligations.DecoderAcceptsTheTablesWords := by
  unfold Obligations.DecoderAcceptsTheTablesWords
  refine fun w => ⟨⟨?_, ?_⟩, fun i => tableRow_accepts_of_decode⟩
  · rintro ⟨i, hi⟩
    exact ⟨tableRow i, tableRow_mem i, tableRow_accepts_of_decode hi⟩
  · rintro ⟨r, hr, h⟩
    obtain ⟨i, hi⟩ := exists_encode_of_accepts hr h
    exact ⟨i, decode_eq_ok.2 hi⟩

end Sys2Proof

namespace Sys2Proof.Machine

/-! ## Illegal words (R97) -/

theorem runWordBy_of_illegal {run : Instr → State → Result} {w : Word} (hw : ∀ i, decode w ≠ .ok i)
    (s : State) : runWordBy run w s = .next (completeWith .illegalCommand s) := by
  cases h : decode w with
  | error e => rw [runWordBy, h, raise_eq]
  | ok i => exact absurd h (hw i)

theorem completeWith_unchanged (e : ErrCode) (s : State) : Unchanged s (completeWith e s) :=
  ⟨⟨rfl, rfl, rfl, rfl, rfl, rfl, rfl⟩, rfl, rfl, rfl, rfl⟩

theorem failedWith_completeWith {e : ErrCode} (he : e ≠ .ok) (s : State) :
    FailedWith e (completeWith e s) := by
  refine ⟨rfl, ?_⟩
  rw [completeWith_status]
  cases e with
  | ok => exact absurd rfl he
  | _ => rfl

/-- A legal word has an opcode of R96. -/
theorem not_decode_of_unassigned {w : Word} (hop : ∀ o, opcodeByte o ≠ fieldOp w) (i : Instr) :
    decode w ≠ .ok i := by
  intro h
  obtain ⟨o, ho, -⟩ := opcode_of_decode h
  exact hop o ho

/-- Settles O6, by the check of step 1 of R94 and the equation of error completion. -/
theorem illegalWordEndsWithIllegalCommand : Obligations.IllegalWordEndsWithIllegalCommand := by
  unfold Obligations.IllegalWordEndsWithIllegalCommand
  refine ⟨fun s w hp hw => ?_, not_decode_of_unassigned fun o => ?_, not_decode_of_unassigned fun o => ?_,
    fun w hop => not_decode_of_unassigned fun o ho => ?_⟩
  · refine ⟨completeWith .illegalCommand s, ?_, completeWith_unchanged _ s,
      failedWith_completeWith (by decide) s⟩
    rw [blockStep, blockStepBy_of_busy hp, runWordBy_of_illegal hw]
  · cases o <;> decide
  · cases o <;> decide
  · rw [← ho] at hop
    cases o <;> revert hop <;> decide

end Sys2Proof.Machine
end

section
/-! THEOREMS. The modular inverse, and the results of MODADD, MODMUL, MODRED and MODINV
(spec/40_big_int_modular_arith.md R121 to R127). -/

namespace Sys2Proof.Machine

/-! ## The modular inverse (R127) -/

theorem inv_lt (a : Nat) {mod : Nat} (hmod : 1 ≤ mod) : inv a mod < mod := by
  rw [inv]
  split
  · omega
  · have hpos : (0 : Int) < mod := by exact_mod_cast hmod
    rw [Int.toNat_lt (Int.emod_nonneg _ hpos.ne')]
    exact Int.emod_lt_of_pos _ hpos

theorem mul_inv_mod {a mod : Nat} (hmod : 1 ≤ mod) (hgcd : Nat.gcd a mod = 1) :
    (a * inv a mod) % mod = 1 % mod := by
  have : NeZero mod := ⟨by omega⟩
  have hmul := inv_mul_eq_gcd a mod
  rw [hgcd, ← Nat.cast_mul, ZMod.natCast_eq_natCast_iff'] at hmul
  rwa [Nat.mul_comm]

/-- Settles O11: the unit `a` cancels, so any two solutions are congruent, and both are below `mod`. -/
theorem inverseIsTheUniqueSolution : Obligations.InverseIsTheUniqueSolution := by
  unfold Obligations.InverseIsTheUniqueSolution
  intro a mod hmod hgcd
  have hinv := mul_inv_mod hmod hgcd
  refine ⟨inv_lt a hmod, hinv, fun x hx hsol => ?_⟩
  have hcancel : x ≡ inv a mod [MOD mod] :=
    Nat.ModEq.cancel_left_of_coprime (Nat.gcd_comm a mod ▸ hgcd) (hsol.trans hinv.symm)
  exact hcancel.eq_of_lt_of_lt hx (inv_lt a hmod)

/-! ## How a command that writes a number ends (R317, R318) -/

theorem succeeded_completeWith (s : State) : Succeeded (completeWith .ok s) :=
  ⟨rfl, (statusWord_completed .ok).trans (if_pos rfl)⟩

/-- A command that delivers a number of 256 bits writes it into its register and nothing else. -/
theorem finish_setNVal_result (d : NReg) {v : Nat} (hv : v < 2 ^ 256) (s : State) :
    ∃ t, finish (s.setNVal d v) = .next t ∧ t.nVal d = v ∧ OnlyN d s t ∧ Succeeded t := by
  have hframe : OnlyN d s (s.setNVal d v) := onlyN_setN s d _
  exact ⟨completeWith .ok (s.setNVal d v), rfl, State.nVal_setNVal_self s d hv, hframe,
    succeeded_completeWith _⟩

theorem raise_result {e : ErrCode} (he : e ≠ .ok) (s : State) :
    ∃ t, raise e s = .next t ∧ Unchanged s t ∧ FailedWith e t :=
  ⟨completeWith e s, rfl, completeWith_unchanged e s, failedWith_completeWith he s⟩

/-! ## The modular commands (R121, R123 to R126) -/

theorem modulus_lt (ms : ModSelect) (m : NReg) (s : State) : modulus ms m s < 2 ^ 256 := by
  cases ms with
  | primeP => exact (by decide : Config.P < 2 ^ 256)
  | orderN => exact (by decide : Config.N < 2 ^ 256)
  | register => exact s.nVal_lt m

section
variable (d a b : NReg) (ms : ModSelect) (m : NReg) (s : State)

theorem exec_modadd : exec (.modadd d a b ms m) s
    = withModulus ms m s fun md => finish (s.setNVal d ((s.nVal a + s.nVal b) % md)) := rfl

theorem exec_modmul : exec (.modmul d a b ms m) s
    = withModulus ms m s fun md => finish (s.setNVal d ((s.nVal a * s.nVal b) % md)) := rfl

theorem exec_modred : exec (.modred d a ms m) s
    = withModulus ms m s fun md => finish (s.setNVal d (s.nVal a % md)) := rfl

theorem exec_modinv : exec (.modinv d a ms m) s
    = withModulus ms m s fun md =>
        if Nat.gcd (s.nVal a) md ≠ 1 then raise .notInvertible s
        else finish (s.setNVal d (inv (s.nVal a) md)) := rfl

end

section
variable {ms : ModSelect} {m : NReg} {s : State}

theorem withModulus_of_ne_zero {body : Nat → Result} (h : modulus ms m s ≠ 0) :
    withModulus ms m s body = body (modulus ms m s) :=
  if_neg h

theorem withModulus_zero_result (body : Nat → Result) (h : modulus ms m s = 0) :
    ∃ t, withModulus ms m s body = .next t ∧ Unchanged s t ∧ FailedWith .modulusZero t := by
  rw [withModulus, if_pos h]
  exact raise_result (by decide) s

/-- The argument that MODADD, MODMUL and MODRED share: a residue of a nonzero modulus fits the register. -/
theorem withModulus_residue_result (d : NReg) (x : Nat) (h : modulus ms m s ≠ 0) :
    ∃ t, withModulus ms m s (fun md => finish (s.setNVal d (x % md))) = .next t
      ∧ t.nVal d = x % modulus ms m s ∧ OnlyN d s t ∧ Succeeded t := by
  rw [withModulus_of_ne_zero h]
  exact finish_setNVal_result d ((Nat.mod_lt x (Nat.pos_of_ne_zero h)).trans (modulus_lt ms m s)) s

end

/-- Settles O7, with the sum as the number that is reduced. -/
theorem modAddResult : Obligations.ModAddResult := by
  unfold Obligations.ModAddResult
  intro d a b ms m s
  rw [exec_modadd]
  exact ⟨rfl, withModulus_residue_result d (s.nVal a + s.nVal b), withModulus_zero_result _⟩

/-- Settles O8, with the untruncated product as the number that is reduced. -/
theorem modMulResult : Obligations.ModMulResult := by
  unfold Obligations.ModMulResult
  intro d a b ms m s
  rw [exec_modmul]
  exact ⟨rfl, withModulus_residue_result d (s.nVal a * s.nVal b), withModulus_zero_result _⟩

/-- Settles O9, with the operand itself as the number that is reduced. -/
theorem modRedResult : Obligations.ModRedResult := by
  unfold Obligations.ModRedResult
  intro d a ms m s
  rw [exec_modred]
  exact ⟨rfl, withModulus_residue_result d (s.nVal a), withModulus_zero_result _⟩

/-- Settles O10: the modulus is tested before the gcd, and the inverse of R127 fits the register. -/
theorem modInvResult : Obligations.ModInvResult := by
  unfold Obligations.ModInvResult
  intro d a ms m s
  rw [exec_modinv]
  refine ⟨rfl, fun hmod hgcd => ?_, fun hmod hgcd => ?_, withModulus_zero_result _⟩
  · have hpos := Nat.pos_of_ne_zero hmod
    have hlt := inv_lt (s.nVal a) hpos
    obtain ⟨t, ht, hval, hframe, hdone⟩ :=
      finish_setNVal_result d (hlt.trans (modulus_lt ms m s)) s
    rw [withModulus_of_ne_zero hmod, if_neg (not_not.2 hgcd)]
    exact ⟨t, ht, hval ▸ hlt, hval ▸ mul_inv_mod hpos hgcd, hframe, hdone⟩
  · rw [withModulus_of_ne_zero hmod, if_pos hgcd]
    exact raise_result (by decide) s

end Sys2Proof.Machine
end

section
/-! THEOREMS. The curve unit (spec/41_secp256k1_scalar_mult.md): the group operations and the scalar
multiple (R143, R144, R147), and the results of PDBL, PADD, SMULG and COMPRESS (R145, R146, R148, R151,
R152). -/

namespace Sys2Proof.Machine

/-! ## Congruences modulo `P` and quotients of the field (R142) -/

theorem sub_emod_P_eq_zero_iff (a b : Int) :
    (a - b) % (Config.P : Int) = 0 ↔ (a : ZMod Config.P) = b := by
  rw [← Int.dvd_iff_emod_eq_zero, ← ZMod.intCast_eq_intCast_iff_dvd_sub, eq_comm]

theorem toField_sub_emod (v : Int) : (((toField v).val : Int) - v) % (Config.P : Int) = 0 := by
  rw [sub_emod_P_eq_zero_iff, Int.cast_natCast, toField_cast]

/-- The end point of the formulas of R144, with its coordinates as congruences. -/
theorem exists_chord_eq (lam x1 y1 x2 : Int) : ∃ x3 y3 : Fin Config.P,
    chord lam x1 y1 x2 = .affine x3 y3
      ∧ ((x3.val : Int) - (lam * lam - x1 - x2)) % (Config.P : Int) = 0
      ∧ ((y3.val : Int) - (lam * (x1 - x3.val) - y1)) % (Config.P : Int) = 0 :=
  ⟨_, _, rfl, toField_sub_emod _, toField_sub_emod _⟩

section
variable [Fact Config.P.Prime]

/-- `n * Inv(d)` is the quotient `n / d` of the field: the form of both slopes of R144. -/
theorem mul_toField_mul_fieldInv (n : Int) {d : Int} (hd : (d : ZMod Config.P) ≠ 0) :
    (d : ZMod Config.P) * (toField (n * fieldInv d)).val = n := by
  rw [toField_cast, Int.cast_mul, fieldInv_cast, mul_left_comm, mul_inv_cancel₀ hd, mul_one]

theorem two_mul_val_ne_zero {y : Fin Config.P} (hy : y.val ≠ 0) :
    ((2 * (y.val : Int) : Int) : ZMod Config.P) ≠ 0 := by
  have h2 : ((2 : Nat) : ZMod Config.P) ≠ 0 := natCast_ne_zero_of_lt (by decide) (by decide)
  have hy' := natCast_ne_zero_of_lt (Nat.pos_of_ne_zero hy) y.isLt
  push_cast
  exact mul_ne_zero h2 hy'

theorem val_sub_val_ne_zero {x1 x2 : Fin Config.P} (hx : x1 ≠ x2) :
    (((x2.val : Int) - x1.val : Int) : ZMod Config.P) ≠ 0 := by
  push_cast
  exact sub_ne_zero.2 fun h => hx ((val_cast_inj x2 x1).1 h).symm

/-- The slope of `Dbl` times `2 * y` is `3 * x * x` modulo `P`. -/
theorem tangentSlope_mul_mod (x : Fin Config.P) {y : Fin Config.P} (hy : y.val ≠ 0) :
    ∃ lam : Nat, tangentSlope x.val y.val = lam ∧ lam < Config.P
      ∧ (2 * y.val * lam) % Config.P = (3 * x.val * x.val) % Config.P := by
  refine ⟨_, rfl, Fin.isLt _, ?_⟩
  have hquot := mul_toField_mul_fieldInv (3 * (x.val : Int) * x.val) (two_mul_val_ne_zero hy)
  rw [← ZMod.natCast_eq_natCast_iff']
  exact_mod_cast hquot

/-- The slope of `Add` times `x2 - x1` is `y2 - y1` in the field. -/
theorem sub_mul_chordSlope {x1 x2 : Fin Config.P} (hx : x1 ≠ x2) (y1 y2 : Int) :
    ((x2.val : ZMod Config.P) - x1.val) * (chordSlope x1.val y1 x2.val y2 : ZMod Config.P)
      = (y2 : ZMod Config.P) - y1 := by
  have hquot := mul_toField_mul_fieldInv (y2 - y1) (val_sub_val_ne_zero hx)
  rw [chordSlope]
  exact_mod_cast hquot

/-- Both differences change their sign, so their quotient does not. -/
theorem chordSlope_comm (x1 y1 x2 y2 : Int) : chordSlope x1 y1 x2 y2 = chordSlope x2 y2 x1 y1 := by
  have hfield :
      toField ((y2 - y1) * fieldInv (x2 - x1)) = toField ((y1 - y2) * fieldInv (x1 - x2)) := by
    rw [← val_cast_inj, toField_cast, toField_cast, Int.cast_mul, Int.cast_mul, fieldInv_cast,
      fieldInv_cast, ← neg_sub y1 y2, ← neg_sub x1 x2, Int.cast_neg, Int.cast_neg, inv_neg,
      neg_mul_neg]
  rw [chordSlope, chordSlope, hfield]

end

/-- A line through both points ends in the same point whichever of them it starts from. -/
theorem chord_comm {lam x1 y1 x2 y2 : Int}
    (h : ((x2 : ZMod Config.P) - x1) * lam = (y2 : ZMod Config.P) - y1) :
    chord lam x1 y1 x2 = chord lam x2 y2 x1 := by
  have hx : curve.addX (x1 : ZMod Config.P) x2 lam = curve.addX x2 x1 lam := by
    rw [curve_addX, curve_addX]
    ring
  have hy : curve.addY (x1 : ZMod Config.P) x2 y1 lam = curve.addY x2 x1 y2 lam := by
    rw [curve_addY, curve_addY, hx]
    linear_combination -h
  rw [chord_eq, chord_eq, hx, hy]

/-! ## The cases of `Dbl` and `Add` (R144) -/

theorem pointDbl_of_y_eq_zero (x : Fin Config.P) {y : Fin Config.P} (hy : y.val = 0) :
    pointDbl (.affine x y) = .infinity := if_pos hy

theorem pointDbl_of_y_ne_zero (x : Fin Config.P) {y : Fin Config.P} (hy : y.val ≠ 0) :
    pointDbl (.affine x y) = chord (tangentSlope x.val y.val) x.val y.val x.val := if_neg hy

@[simp] theorem pointAdd_infinity_left (t : Point) : pointAdd .infinity t = t := by
  rw [pointAdd]

@[simp] theorem pointAdd_infinity_right (t : Point) : pointAdd t .infinity = t := by
  cases t <;> rw [pointAdd]

theorem pointAdd_self (x y : Fin Config.P) :
    pointAdd (.affine x y) (.affine x y) = pointDbl (.affine x y) := by
  rw [pointAdd, if_pos rfl, if_pos rfl]

theorem pointAdd_of_y_ne (x : Fin Config.P) {y1 y2 : Fin Config.P} (hy : y1 ≠ y2) :
    pointAdd (.affine x y1) (.affine x y2) = .infinity := by
  rw [pointAdd, if_pos rfl, if_neg hy]

theorem pointAdd_of_x_ne {x1 x2 : Fin Config.P} (hx : x1 ≠ x2) (y1 y2 : Fin Config.P) :
    pointAdd (.affine x1 y1) (.affine x2 y2)
      = chord (chordSlope x1.val y1.val x2.val y2.val) x1.val y1.val x2.val := by
  rw [pointAdd, if_neg hx]

/-- Settles O16: `P` is prime, so `2 * y` has an inverse where `y` is not 0, and the slope is the
quotient. -/
theorem doublingFollowsTheTangent : Obligations.DoublingFollowsTheTangent := by
  unfold Obligations.DoublingFollowsTheTangent
  have : Fact Config.P.Prime := ⟨prime_P⟩
  refine ⟨rfl, fun x y => ⟨pointDbl_of_y_eq_zero x, fun hy => ?_⟩⟩
  obtain ⟨lam, hlam, hlt, hslope⟩ := tangentSlope_mul_mod x hy
  obtain ⟨x3, y3, hchord, hx3, hy3⟩ := exists_chord_eq lam x.val y.val x.val
  rw [sub_sub, ← two_mul] at hx3
  exact ⟨lam, x3, y3, by rw [pointDbl_of_y_ne_zero x hy, hlam, hchord], hlt, hslope, hx3, hy3⟩

/-- Settles O17: `P` is prime, so `x2 - x1` has an inverse where it is not 0, and the slope is the
quotient. -/
theorem additionFollowsTheChord : Obligations.AdditionFollowsTheChord := by
  unfold Obligations.AdditionFollowsTheChord
  have : Fact Config.P.Prime := ⟨prime_P⟩
  refine ⟨pointAdd_infinity_left, pointAdd_infinity_right,
    fun x1 y1 x2 y2 => ⟨?_, ?_, fun hx => ?_⟩⟩
  · rintro rfl rfl
    exact pointAdd_self x1 y1
  · rintro rfl hy
    exact pointAdd_of_y_ne x1 hy
  · obtain ⟨lam, hlam, hlt⟩ :
        ∃ lam : Nat, chordSlope x1.val y1.val x2.val y2.val = lam ∧ lam < Config.P :=
      ⟨_, rfl, Fin.isLt _⟩
    have hslope := sub_mul_chordSlope hx y1.val y2.val
    obtain ⟨x3, y3, hchord, hx3, hy3⟩ := exists_chord_eq lam x1.val y1.val x2.val
    refine ⟨lam, x3, y3, by rw [pointAdd_of_x_ne hx, hlam, hchord], hlt, ?_, hx3, hy3⟩
    rw [sub_emod_P_eq_zero_iff, ← hlam]
    exact_mod_cast hslope

/-- Settles O18: points with different `x` have one chord, which has the same slope from either end. -/
theorem pointAdditionCommutes : Obligations.PointAdditionCommutes := by
  unfold Obligations.PointAdditionCommutes
  have : Fact Config.P.Prime := ⟨prime_P⟩
  rintro (_ | ⟨x1, y1⟩) (_ | ⟨x2, y2⟩)
  · rfl
  · rw [pointAdd_infinity_left, pointAdd_infinity_right]
  · rw [pointAdd_infinity_left, pointAdd_infinity_right]
  · by_cases hx : x1 = x2
    · subst hx
      by_cases hy : y1 = y2
      · rw [hy]
      · rw [pointAdd_of_y_ne x1 hy, pointAdd_of_y_ne x1 (Ne.symm hy)]
    · rw [pointAdd_of_x_ne hx, pointAdd_of_x_ne (Ne.symm hx), chordSlope_comm x2.val]
      exact chord_comm (by exact_mod_cast sub_mul_chordSlope hx y1.val y2.val)

/-- Settles O19: in the group of the curve, 256 rounds of R147 are the multiple by `k mod 2^256`. -/
theorem doubleAndAddIsTheScalarMultiple : Obligations.DoubleAndAddIsTheScalarMultiple := by
  unfold Obligations.DoubleAndAddIsTheScalarMultiple
  have : Fact Config.P.Prime := ⟨prime_P⟩
  exact fun k hk => scalarBaseMul_eq_scalarMultiple hk

/-! ## How a command that writes a point or delivers bytes ends (R26, R317) -/

theorem onlyQ_setPoint (s : State) (d : QReg) (x : Point) : OnlyQ d s (s.setPoint d x) :=
  ⟨rfl, fun _ hj => State.point_setPoint_of_ne s x hj, rfl, rfl, rfl, rfl, rfl, rfl, rfl, rfl, rfl⟩

/-- A command that delivers a point writes it into its register and nothing else. -/
theorem finish_setPoint_result (d : QReg) (x : Point) (s : State) :
    ∃ t, finish (s.setPoint d x) = .next t ∧ t.point d = x ∧ OnlyQ d s t ∧ Succeeded t := by
  have hframe : OnlyQ d s (s.setPoint d x) := onlyQ_setPoint s d x
  exact ⟨completeWith .ok (s.setPoint d x), rfl, State.point_setPoint_self s d x, hframe,
    succeeded_completeWith _⟩

section
variable {s : State} (hm : s.mem.wf = true) (cap : Nat) (d : BReg) {bs : List Byte}
include hm

theorem onlyB_setBuf (bs : List Byte) : OnlyB cap d s (s.setBuf cap d bs) :=
  ⟨rfl, rfl, fun _ hj => State.bufLen_setBufLen_of_ne _ _ hj,
    fun _ ha => State.read_setBuf_outside hm cap d bs ha, rfl, rfl, rfl, rfl, rfl, rfl, rfl⟩

theorem holds_setBuf (hcap : cap ≤ Config.bufBytes) (hlen : bs.length ≤ cap) :
    Holds cap d bs (s.setBuf cap d bs) := by
  refine ⟨State.buf_setBuf_self hm hcap d hlen, State.bufLen_setBuf_self s cap d (hlen.trans hcap),
    fun i hi hic => ?_⟩
  rw [State.bufData_setBuf_self hm d hlen hic, List.getD_eq_default _ _ hi]

/-- A command that delivers bytes which fit a buffer writes them into its buffer and nothing else. -/
theorem finish_setBuf_result (hcap : cap ≤ Config.bufBytes) (hlen : bs.length ≤ cap) :
    ∃ t, finish (s.setBuf cap d bs) = .next t
      ∧ Holds cap d bs t ∧ OnlyB cap d s t ∧ Succeeded t := by
  have hholds : Holds cap d bs (s.setBuf cap d bs) := holds_setBuf hm cap d hcap hlen
  have hframe : OnlyB cap d s (s.setBuf cap d bs) := onlyB_setBuf hm cap d bs
  exact ⟨completeWith .ok (s.setBuf cap d bs), rfl, hholds, hframe, succeeded_completeWith _⟩

end

/-! ## The commands of the curve unit (R145, R146, R148, R152) -/

section
variable (s : State)

theorem exec_pdbl (d a : QReg) :
    exec (.pdbl d a) s = finish (s.setPoint d (pointDbl (s.point a))) := rfl

theorem exec_padd (d a b : QReg) :
    exec (.padd d a b) s = finish (s.setPoint d (pointAdd (s.point a) (s.point b))) := rfl

theorem exec_smulg_of_lt (d : QReg) {a : NReg} (h : s.nVal a < Config.N) :
    exec (.smulg d a) s = finish (s.setPoint d (scalarBaseMul (s.nVal a))) := if_neg (not_le.2 h)

theorem exec_smulg_of_ge (d : QReg) {a : NReg} (h : Config.N ≤ s.nVal a) :
    exec (.smulg d a) s = raise .scalarRange s := if_pos h

end

section
variable {s : State} {a : QReg} (d : BReg)

theorem exec_compress_of_affine {x y : Fin Config.P} (h : s.point a = .affine x y) :
    exec (.compress d a) s = finish (s.setBuf Config.lmax d (compressPoint x y)) := by
  show execCompressWith hardware d a s = _
  rw [execCompressWith, h]
  rfl

theorem exec_compress_of_infinity (h : s.point a = .infinity) :
    exec (.compress d a) s = raise .pointAtInfinity s := by
  show execCompressWith hardware d a s = _
  rw [execCompressWith, h]

end

/-- Settles O12: `Dbl` is defined on every point, so the command has no error case. -/
theorem pointDoubleResult : Obligations.PointDoubleResult := by
  unfold Obligations.PointDoubleResult
  intro d a s
  rw [exec_pdbl]
  exact ⟨rfl, finish_setPoint_result d _ s⟩

/-- Settles O13: `Add` is defined on every pair of points, so the command has no error case. -/
theorem pointAddResult : Obligations.PointAddResult := by
  unfold Obligations.PointAddResult
  intro d a b s
  rw [exec_padd]
  exact ⟨rfl, finish_setPoint_result d _ s⟩

/-- Settles O14: the range of the scalar is tested first, and a scalar out of range writes nothing. -/
theorem scalarBaseMultiplyResult : Obligations.ScalarBaseMultiplyResult := by
  unfold Obligations.ScalarBaseMultiplyResult
  refine fun d a s => ⟨rfl, fun hlt => ?_, fun hge => ?_⟩
  · rw [exec_smulg_of_lt s d hlt]
    exact finish_setPoint_result d _ s
  · rw [exec_smulg_of_ge s d hge]
    exact raise_result (by decide) s

/-- Settles O15: the 33 bytes fit a buffer, and a coordinate fits 32 bytes. -/
theorem compressResult : Obligations.CompressResult := by
  unfold Obligations.CompressResult
  refine fun d a s => ⟨rfl, fun x y hm hpoint => ?_, fun hinf => ?_⟩
  · have hfit : (compressPoint x y).length ≤ Config.lmax :=
      (length_compressPoint x y).trans_le (by decide)
    have hx : x.val < 256 ^ 32 := x.isLt.trans (by decide)
    obtain ⟨t, ht, hholds, hframe, hdone⟩ := finish_setBuf_result hm Config.lmax d (by decide) hfit
    exact ⟨t, beBytes 32 x.val, (exec_compress_of_affine d hpoint).trans ht, length_beBytes 32 _,
      be_beBytes 32 _ hx, hholds, hframe, hdone⟩
  · rw [exec_compress_of_infinity d hinf]
    exact raise_result (by decide) s

end Sys2Proof.Machine
end

section
/-! THEOREMS. The hash adapter (spec/42_sha512_hash_adapter.md): the results of HRESET, HADD, HADD32 and
HFIN, and a candidate of the sampler rebuilt with them (R172 to R177). -/

namespace Sys2Proof.Machine

/-! ## How a command that writes `HMSG` ends, and what the next one finds (R35, R317) -/

theorem onlyHmsg_setHmsg (m : List Byte) (s : State) : OnlyHmsg s (s.setHmsg m) :=
  ⟨rfl, rfl, rfl, rfl, rfl, rfl, rfl, rfl, rfl, rfl⟩

/-- A command that delivers a message writes it into `HMSG` and nothing else. -/
theorem finish_setHmsg_result (m : List Byte) (s : State) :
    ∃ t, finish (s.setHmsg m) = .next t ∧ t.hmsg = m ∧ OnlyHmsg s t ∧ Succeeded t := by
  have hframe : OnlyHmsg s (s.setHmsg m) := onlyHmsg_setHmsg m s
  exact ⟨completeWith .ok (s.setHmsg m), rfl, rfl, hframe, succeeded_completeWith _⟩

section
variable {s t u : State}

theorem OnlyHmsg.mem_eq (h : OnlyHmsg s t) : t.mem = s.mem := by
  obtain ⟨-, -, -, hmem, -⟩ := h
  exact hmem

theorem OnlyHmsg.nVal_eq (h : OnlyHmsg s t) (i : NReg) : t.nVal i = s.nVal i := by
  obtain ⟨hn, -⟩ := h
  rw [State.nVal, State.nVal, hn]

/-- A buffer is its length and its stored bytes, and neither changes. -/
theorem OnlyHmsg.buf_eq (h : OnlyHmsg s t) (k : BReg) : t.buf k = s.buf k := by
  obtain ⟨-, -, hblen, hmem, -⟩ := h
  have hlen : t.bufLen k = s.bufLen k := by rw [State.bufLen, State.bufLen, hblen]
  have hdata : t.bufData k = s.bufData k := funext fun i => by rw [State.bufData, State.bufData, hmem]
  rw [State.buf, State.buf, hlen, hdata]

theorem OnlyHmsg.trans (hst : OnlyHmsg s t) (htu : OnlyHmsg t u) : OnlyHmsg s u := by
  obtain ⟨hn, hq, hblen, hmem, hsiter, hconfig, hheld, hscript, hresponses, hlost⟩ := hst
  obtain ⟨hn', hq', hblen', hmem', hsiter', hconfig', hheld', hscript', hresponses', hlost'⟩ := htu
  exact ⟨hn'.trans hn, hq'.trans hq, hblen'.trans hblen, hmem'.trans hmem, hsiter'.trans hsiter,
    hconfig'.trans hconfig, hheld'.trans hheld, hscript'.trans hscript,
    hresponses'.trans hresponses, hlost'.trans hlost⟩

end

/-! ## The 32-bit operand (R174, R194) and the truncated digest (R171, R175) -/

section
variable {i : NReg} {s : State} (body : Nat → Result)

theorem withU32_of_lt (h : s.nVal i < 2 ^ 32) : withU32 i s body = body (s.nVal i) :=
  if_neg (not_le.2 h)

theorem withU32_of_ge (h : 2 ^ 32 ≤ s.nVal i) : withU32 i s body = raise .operandRange s :=
  if_pos h

end

/-- `U32BE` of a 32-bit number has that number's value (R13). -/
theorem be_u32be {v : Nat} (h : v < 2 ^ 32) : be (u32be v) = v :=
  be_beBytes 4 v (h.trans_eq (by norm_num))

theorem length_trunc_sha512 (h : HashFunctions) (tr : TruncSelect) (m : List Byte) :
    (trunc (truncLength tr) (h.sha512 m)).length = truncLength tr := by
  rw [trunc, List.length_take, h.sha512_length]
  cases tr <;> rfl

/-! ## The commands of the hash adapter (R172 to R175) -/

section
variable (s : State)

theorem hreset_result :
    ∃ t, exec .hreset s = .next t ∧ t.hmsg = [] ∧ OnlyHmsg s t ∧ Succeeded t :=
  finish_setHmsg_result [] s

theorem hadd_result (a : BReg) :
    ∃ t, exec (.hadd a) s = .next t ∧ t.hmsg = s.hmsg ++ s.buf a ∧ OnlyHmsg s t ∧ Succeeded t :=
  finish_setHmsg_result (s.hmsg ++ s.buf a) s

theorem exec_hadd32 (a : NReg) :
    exec (.hadd32 a) s = withU32 a s fun v => finish (s.setHmsg (s.hmsg ++ u32be v)) := rfl

theorem hadd32_result {a : NReg} (h : s.nVal a < 2 ^ 32) :
    ∃ t, exec (.hadd32 a) s = .next t ∧ t.hmsg = s.hmsg ++ u32be (s.nVal a)
      ∧ OnlyHmsg s t ∧ Succeeded t := by
  rw [exec_hadd32, withU32_of_lt _ h]
  exact finish_setHmsg_result _ s

end

/-- HFIN for any model arguments: at most 64 bytes are delivered, and every `LMAX` is at least 64 (R8). -/
theorem hfin_result (p : Parameters) (d : BReg) (tr : TruncSelect) {s : State}
    (hm : s.mem.wf = true) :
    ∃ t, execWith p (.hfin d tr) s = .next t
      ∧ Holds p.lmax d (trunc (truncLength tr) (p.sha512 s.hmsg)) t
      ∧ OnlyB p.lmax d s t ∧ Succeeded t :=
  finish_setBuf_result hm p.lmax d p.lmax_le ((length_trunc_truncLength_le tr _).trans p.lmax_ge)

/-- Settles O23: emptying `HMSG` has no error case. -/
theorem hashResetResult : Obligations.HashResetResult := by
  unfold Obligations.HashResetResult
  exact fun s => ⟨by decide, hreset_result s⟩

/-- Settles O24: appending a buffer has no error case, as `HMSG` has no bound. -/
theorem hashAddResult : Obligations.HashAddResult := by
  unfold Obligations.HashAddResult
  exact fun a s => ⟨rfl, hadd_result s a⟩

/-- Settles O25: a value below 2^32 is read back from its four bytes, and the range is tested first. -/
theorem hashAddWordResult : Obligations.HashAddWordResult := by
  unfold Obligations.HashAddWordResult
  refine fun a s => ⟨rfl, fun hlt => ?_, fun hge => ?_⟩
  · obtain ⟨t, ht, hmsg, hframe, hdone⟩ := hadd32_result s hlt
    exact ⟨t, u32be (s.nVal a), ht, length_beBytes 4 _, be_u32be hlt, hmsg, hframe, hdone⟩
  · rw [exec_hadd32, withU32_of_ge _ hge]
    exact raise_result (by decide) s

/-- Settles O26: the same argument for every `SHA512` and `LMAX`, this hardware's being one choice. -/
theorem hashFinishResult : Obligations.HashFinishResult := by
  unfold Obligations.HashFinishResult
  refine fun d tr s => ⟨rfl, fun hm => ?_, fun hm p => hfin_result p d tr hm⟩
  obtain ⟨t, ht, hholds, hframe, hdone⟩ := hfin_result hardware d tr hm
  have hlen : t.bufLen d = truncLength tr := by
    obtain ⟨-, hlen, -⟩ := hholds
    exact hlen.trans (length_trunc_sha512 hashes tr s.hmsg)
  exact ⟨t, (execWith_hardware _ s).symm.trans ht, hholds, hlen, hframe, hdone⟩

/-! ## Messages in parts (R176, R177) -/

/-- Settles O27: the first HADD leaves the second buffer as it was, and appending is associative. -/
theorem splitInputHashesAlike : Obligations.SplitInputHashesAlike := by
  unfold Obligations.SplitInputHashesAlike
  intro x y xy s hxy
  obtain ⟨t, ht, htmsg, hframe, -⟩ := hadd_result s x
  obtain ⟨u, hu, humsg, -⟩ := hadd_result t y
  obtain ⟨v, hv, hvmsg, -⟩ := hadd_result s xy
  refine ⟨t, u, v, ht, hu, hv, ?_⟩
  calc u.hmsg = s.hmsg ++ s.buf x ++ s.buf y := by rw [humsg, htmsg, hframe.buf_eq]
    _ = v.hmsg := by rw [hvmsg, hxy, List.append_assoc]

/-- The host's first two commands make the input bytes the whole message. -/
theorem hreset_hadd_result (data : BReg) (s : State) :
    ∃ t u, exec .hreset s = .next t ∧ exec (.hadd data) t = .next u
      ∧ u.hmsg = s.buf data ∧ OnlyHmsg s u := by
  obtain ⟨t, ht, htmsg, hst, -⟩ := hreset_result s
  obtain ⟨u, hu, humsg, htu, -⟩ := hadd_result t data
  refine ⟨t, u, ht, hu, ?_, hst.trans htu⟩
  rw [humsg, htmsg, hst.buf_eq, List.nil_append]

section
variable {s t : State} (hst : OnlyHmsg s t)
include hst

/-- HADD32 while the host rebuilds a message: the register still holds the value it began with. -/
theorem hadd32_later_result {a : NReg} (ha : s.nVal a < 2 ^ 32) :
    ∃ u, exec (.hadd32 a) t = .next u ∧ u.hmsg = t.hmsg ++ u32be (s.nVal a) ∧ OnlyHmsg s u := by
  rw [← hst.nVal_eq] at ha ⊢
  obtain ⟨u, hu, humsg, htu, -⟩ := hadd32_result t ha
  exact ⟨u, hu, humsg, hst.trans htu⟩

/-- HFIN to 32 bytes of the message of an iteration delivers the bytes of its candidate (R191, R192). -/
theorem hfin_candidate (hm : s.mem.wf = true) (out : BReg) {data : List Byte} {disc : Option Nat}
    {i : Nat} (hmsg : t.hmsg = sampleMsg data disc i) :
    ∃ u, exec (.hfin out .first32) t = .next u
      ∧ be (u.buf out) = candidate hashes data disc i := by
  obtain ⟨u, hu, ⟨hbuf, -⟩, -⟩ := hfin_result hardware out .first32 (hst.mem_eq ▸ hm)
  refine ⟨u, (execWith_hardware _ t).symm.trans hu, ?_⟩
  rw [hbuf, hmsg]
  rfl

end

/-- Settles O28: after the commands before HFIN, `HMSG` is `SampleMsg` of the iteration (R191). -/
theorem adapterRebuildsACandidate : Obligations.AdapterRebuildsACandidate := by
  unfold Obligations.AdapterRebuildsACandidate
  refine ⟨fun data out ctr s hm hctr => ?_, fun data out disc ctr s hm hdisc hctr => ?_⟩
  · obtain ⟨t1, t2, h1, h2, hmsg2, hs2⟩ := hreset_hadd_result data s
    obtain ⟨t3, h3, hmsg3, hs3⟩ := hadd32_later_result hs2 hctr
    have hmsg : t3.hmsg = sampleMsg (s.buf data) none (s.nVal ctr) := by
      rw [hmsg3, hmsg2, sampleMsg]
    obtain ⟨t4, h4, hcand⟩ := hfin_candidate hs3 hm out hmsg
    exact ⟨t1, t2, t3, t4, h1, h2, h3, h4, hcand⟩
  · obtain ⟨t1, t2, h1, h2, hmsg2, hs2⟩ := hreset_hadd_result data s
    obtain ⟨t3, h3, hmsg3, hs3⟩ := hadd32_later_result hs2 hdisc
    obtain ⟨t4, h4, hmsg4, hs4⟩ := hadd32_later_result hs3 hctr
    have hmsg : t4.hmsg = sampleMsg (s.buf data) (some (s.nVal disc)) (s.nVal ctr) := by
      rw [hmsg4, hmsg3, hmsg2, sampleMsg]
    obtain ⟨t5, h5, hcand⟩ := hfin_candidate hs4 hm out hmsg
    exact ⟨t1, t2, t3, t4, t5, h1, h2, h3, h4, h5, hcand⟩

end Sys2Proof.Machine
end

section
/-! THEOREMS. The rejection sampler (spec/43_rejection_sampler.md): the search for the first accepted
candidate (R192, R196), and the results of SAMPLE and SAMPLED (R193 to R195, R197). -/

namespace Sys2Proof.Machine

/-! ## The search for the first accepted candidate (R192, R196) -/

theorem accepts_eq_true_iff (c : Nat) : accepts c = true ↔ 0 < c ∧ c < Config.N := decide_eq_true_iff

theorem accepts_eq_false_iff (c : Nat) : accepts c = false ↔ ¬(0 < c ∧ c < Config.N) :=
  decide_eq_false_iff_not

section
variable (h : HashFunctions) (data : List Byte) (disc : Option Nat)

/-- Counter `k` has an accepted candidate, and no counter before it has. -/
def FirstAccepted (k : Nat) : Prop :=
  accepts (candidate h data disc k) = true ∧ ∀ j < k, accepts (candidate h data disc j) = false

variable {h data disc}

theorem FirstAccepted.unique {k l : Nat} (hk : FirstAccepted h data disc k)
    (hl : FirstAccepted h data disc l) : k = l := by
  obtain ⟨hkacc, hkmin⟩ := hk
  obtain ⟨hlacc, hlmin⟩ := hl
  rcases Nat.lt_trichotomy k l with hlt | heq | hgt
  · exact absurd hkacc (Bool.eq_false_iff.1 (hlmin k hlt))
  · exact heq
  · exact absurd hlacc (Bool.eq_false_iff.1 (hkmin l hgt))

theorem FirstAccepted.candidate_lt {k : Nat} (hk : FirstAccepted h data disc k) :
    candidate h data disc k < Config.N :=
  ((accepts_eq_true_iff _).1 hk.1).2

variable (h data disc)

/-- A search that begins where every earlier counter has been rejected: it rejects all its counters too, or
stops at the first accepted one. -/
theorem searchFrom_cases (count i : Nat)
    (hbefore : ∀ j < i, accepts (candidate h data disc j) = false) :
    (searchFrom h data disc count i = none
        ∧ ∀ j < i + count, accepts (candidate h data disc j) = false)
      ∨ ∃ k < i + count, FirstAccepted h data disc k
          ∧ searchFrom h data disc count i = some (candidate h data disc k, k) := by
  induction count generalizing i with
  | zero => exact .inl ⟨rfl, hbefore⟩
  | succ count ih =>
    rw [searchFrom]
    split
    · rename_i hacc
      exact .inr ⟨i, by omega, ⟨hacc, hbefore⟩, rfl⟩
    · rename_i hrej
      rw [show i + (count + 1) = i + 1 + count by omega]
      exact ih (i + 1) (Nat.forall_lt_succ_right.2 ⟨hbefore, Bool.eq_false_iff.2 hrej⟩)

/-- `ScalarFromSeed` has no other answers: `Exhausted` when all 2^32 candidates are rejected, and the first
accepted candidate otherwise. -/
theorem scalarFromSeed_cases :
    (scalarFromSeed h data disc = none
        ∧ ∀ j < 2 ^ 32, accepts (candidate h data disc j) = false)
      ∨ ∃ k < 2 ^ 32, FirstAccepted h data disc k
          ∧ scalarFromSeed h data disc = some (candidate h data disc k, k) := by
  have hcases := searchFrom_cases h data disc Config.sampleIters 0 fun j hj => absurd hj j.not_lt_zero
  rwa [Nat.zero_add] at hcases

variable {h data disc}

theorem scalarFromSeed_eq_none_iff :
    scalarFromSeed h data disc = none
      ↔ ∀ j < 2 ^ 32, accepts (candidate h data disc j) = false := by
  rcases scalarFromSeed_cases h data disc with ⟨hnone, hall⟩ | ⟨k, hk, ⟨hacc, -⟩, hsome⟩
  · exact iff_of_true hnone hall
  · exact iff_of_false (by simp [hsome]) fun hall => by simp [hall k hk] at hacc

theorem scalarFromSeed_eq_some_iff {c i : Nat} :
    scalarFromSeed h data disc = some (c, i)
      ↔ i < 2 ^ 32 ∧ c = candidate h data disc i ∧ FirstAccepted h data disc i := by
  rcases scalarFromSeed_cases h data disc with ⟨hnone, hall⟩ | ⟨k, hk, hfirst, hsome⟩
  · refine iff_of_false (by simp [hnone]) ?_
    rintro ⟨hi, -, hacc, -⟩
    simp [hall i hi] at hacc
  · rw [hsome, Option.some_inj, Prod.mk.injEq]
    constructor
    · rintro ⟨rfl, rfl⟩
      exact ⟨hk, rfl, hfirst⟩
    · rintro ⟨-, rfl, hi⟩
      rw [hfirst.unique hi]
      exact ⟨rfl, rfl⟩

end

/-- Settles O29: the bounded search is exhausted or stops at the first accepted counter, and there is only
one such counter. -/
theorem searchFindsTheFirstCandidate : Obligations.SearchFindsTheFirstCandidate := by
  unfold Obligations.SearchFindsTheFirstCandidate
  intro h data disc cand
  have hcand : cand = candidate h data disc := by
    funext i
    cases disc <;> rfl
  simp only [hcand, ← accepts_eq_true_iff, Bool.not_eq_true]
  exact ⟨fun c i => scalarFromSeed_eq_some_iff, scalarFromSeed_eq_none_iff⟩

/-! ## How a sampler command ends (R193 to R195, R317, R318) -/

/-- Emptying `HMSG` and writing `SITER` before the number is what the frame of a sampler allows. -/
theorem OnlyN.onlySampled {d : NReg} {m : List Byte} {w : Word} {s t : State}
    (h : OnlyN d ((s.setHmsg m).setSiter w) t) : OnlySampled d s t := by
  obtain ⟨hn, hq, hblen, hmem, -, -, hconfig, houtside⟩ := h
  exact ⟨hn, hq, hblen, hmem, hconfig, houtside⟩

section
variable {h : HashFunctions} {d : NReg} {a : BReg} {disc : Option Nat} {s : State}

theorem sampleCommand_found_result {i : Nat} (hi : i < 2 ^ 32)
    (hfirst : FirstAccepted h (s.buf a) disc i) :
    ∃ t, sampleCommand h d a disc s = .next t ∧ t.nVal d = candidate h (s.buf a) disc i
      ∧ t.siter.toNat = i ∧ t.hmsg = [] ∧ OnlySampled d s t ∧ Succeeded t := by
  have hfit : candidate h (s.buf a) disc i < 2 ^ 256 := hfirst.candidate_lt.trans (by decide)
  obtain ⟨t, ht, hval, hframe, hdone⟩ :=
    finish_setNVal_result d hfit ((s.setHmsg []).setSiter (BitVec.ofNat 32 i))
  have hsampled := hframe.onlySampled
  obtain ⟨-, -, -, -, hmsg, hsiter, -⟩ := hframe
  rw [sampleCommand, scalarFromSeed_eq_some_iff.2 ⟨hi, rfl, hfirst⟩]
  refine ⟨t, ht, hval, ?_, hmsg, hsampled, hdone⟩
  rw [hsiter, State.setSiter_siter, BitVec.toNat_ofNat, Nat.mod_eq_of_lt hi]

theorem sampleCommand_exhausted_result
    (hall : ∀ i < 2 ^ 32, accepts (candidate h (s.buf a) disc i) = false) :
    ∃ t, sampleCommand h d a disc s = .next t ∧ t.n = s.n ∧ t.siter = 0xFFFFFFFF ∧ t.hmsg = []
      ∧ OnlySampled d s t ∧ FailedWith .derivationExhausted t := by
  rw [sampleCommand, scalarFromSeed_eq_none_iff.2 hall]
  exact ⟨_, rfl, rfl, rfl, rfl, ⟨fun _ _ => rfl, rfl, rfl, rfl, rfl, rfl, rfl, rfl, rfl⟩,
    failedWith_completeWith (by decide) _⟩

end

/-! ## The commands SAMPLE and SAMPLED -/

section
variable (p : Parameters) (d : NReg) (a : BReg) (b : NReg) (s : State)

theorem execWith_sample :
    execWith p (.sample d a) s = sampleCommand p.toHashFunctions d a none s := rfl

theorem execWith_sampled : execWith p (.sampled d a b) s
    = withU32 b s fun disc => sampleCommand p.toHashFunctions d a (some disc) s := rfl

theorem exec_sample : exec (.sample d a) s = sampleCommand hashes d a none s := rfl

theorem exec_sampled : exec (.sampled d a b) s
    = withU32 b s fun disc => sampleCommand hashes d a (some disc) s := rfl

end

/-- Settles O32: no candidate leaves `Exhausted`, and the discriminator in range is the only condition
before the common body. -/
theorem exhaustedSearchIsReported : Obligations.ExhaustedSearchIsReported := by
  unfold Obligations.ExhaustedSearchIsReported
  refine ⟨fun h d a disc s => sampleCommand_exhausted_result, exec_sample, fun d a b s hb => ?_,
    fun p d a s => ⟨execWith_sample p d a s, fun b hb => ?_⟩⟩
  · rw [exec_sampled, withU32_of_lt _ hb]
  · rw [execWith_sampled, withU32_of_lt _ hb]

/-- Settles O30: an accepted candidate is below `N`, so it fits the register. -/
theorem sampleResult : Obligations.SampleResult := by
  unfold Obligations.SampleResult
  refine fun d a s => ⟨rfl, fun i hi hacc hmin => ?_⟩
  rw [exec_sample]
  exact sampleCommand_found_result hi ⟨hacc, hmin⟩

/-- Settles O31: the discriminator's range is tested first, and what follows is the body of SAMPLE. -/
theorem sampleWithDiscriminatorResult : Obligations.SampleWithDiscriminatorResult := by
  unfold Obligations.SampleWithDiscriminatorResult
  refine fun d a b s => ⟨rfl, fun i hi hb hacc hmin => ?_, fun hb => ?_⟩
  · rw [exec_sampled, withU32_of_lt _ hb]
    exact sampleCommand_found_result hi ⟨hacc, hmin⟩
  · rw [exec_sampled, withU32_of_ge _ hb]
    exact raise_result (by decide) s

/-! ## The range of a sampled value (R197) -/

theorem errcode_completeWith_ne_zero {e : ErrCode} (he : e ≠ .ok) (s : State) :
    (completeWith e s).status.errcode ≠ 0 := by
  show errByte e ≠ 0
  cases e with
  | ok => exact absurd rfl he
  | _ => decide

section
variable {d : NReg} {s t : State} (herr : t.status.errcode = 0)
include herr

/-- The common body writes an accepted candidate when it ends without an error. -/
theorem nVal_range_of_sampleCommand {h : HashFunctions} {a : BReg} {disc : Option Nat}
    (ht : sampleCommand h d a disc s = .next t) : 0 < t.nVal d ∧ t.nVal d < Config.N := by
  rcases scalarFromSeed_cases h (s.buf a) disc with ⟨-, hall⟩ | ⟨k, hk, hfirst, -⟩
  · rw [sampleCommand, scalarFromSeed_eq_none_iff.2 hall] at ht
    injection ht with ht
    subst ht
    exact absurd herr (errcode_completeWith_ne_zero (by decide) _)
  · obtain ⟨u, hu, hval, -⟩ := sampleCommand_found_result (d := d) hk hfirst
    obtain rfl : u = t := by rw [hu] at ht; injection ht
    rw [hval]
    exact (accepts_eq_true_iff _).1 hfirst.1

/-- A SAMPLE or SAMPLED that ends without an error is the common body. -/
theorem exists_sampleCommand_of_exec {i : Instr}
    (hi : (∃ a, i = .sample d a) ∨ ∃ a b, i = .sampled d a b) (ht : exec i s = .next t) :
    ∃ a disc, sampleCommand hashes d a disc s = .next t := by
  rcases hi with ⟨a, rfl⟩ | ⟨a, b, rfl⟩
  · exact ⟨a, none, ht⟩
  · rw [exec_sampled] at ht
    rcases withU32_next ht with ⟨-, rfl⟩ | ⟨-, ht⟩
    · exact absurd herr (errcode_completeWith_ne_zero (by decide) s)
    · exact ⟨a, _, ht⟩

end

theorem smulg_succeeds {a : NReg} {s : State} (h : s.nVal a < Config.N) (d : QReg) :
    ∃ u, exec (.smulg d a) s = .next u ∧ Succeeded u := by
  rw [exec_smulg_of_lt s d h]
  exact ⟨_, rfl, succeeded_completeWith _⟩

/-- Settles O33: only an accepted candidate is ever written, and acceptance is SMULG's range without 0. -/
theorem sampledScalarIsLegal : Obligations.SampledScalarIsLegal := by
  unfold Obligations.SampledScalarIsLegal
  intro i d s t hi ht herr
  obtain ⟨a, disc, hbody⟩ := exists_sampleCommand_of_exec herr hi ht
  obtain ⟨hpos, hlt⟩ := nVal_range_of_sampleCommand herr hbody
  exact ⟨hpos, Nat.le_sub_one_of_lt hlt, smulg_succeeds hlt⟩

end Sys2Proof.Machine
end

section
/-! THEOREMS. The Base-58-check encoder (spec/44_base58check_encoder.md): the length of an encoded byte
sequence, and the result of B58ENC (R207 to R210). -/

namespace Sys2Proof.Machine

/-! ## The length of the Base-58 text (R207, R210) -/

theorem length_digits58Fuel_le (fuel : Nat) {v n : Nat} (h : v < 58 ^ n) :
    (digits58Fuel fuel v).length ≤ n := by
  induction fuel generalizing v n with
  | zero => exact Nat.zero_le n
  | succ fuel ih =>
    by_cases hv : v = 0
    · rw [digits58Fuel, if_pos hv]
      exact Nat.zero_le n
    · rw [digits58Fuel, if_neg hv, List.length_append, List.length_singleton]
      cases n with
      | zero => omega
      | succ n => exact Nat.succ_le_succ (ih (by rw [pow_succ] at h; omega))

/-- Leading zero bytes add nothing to the value. -/
theorem be_dropWhile_zero (buf : List Byte) : be (buf.dropWhile (· == 0)) = be buf := by
  induction buf with
  | nil => rfl
  | cons x buf ih =>
    by_cases hx : x = 0
    · subst hx
      exact ih
    · rw [List.dropWhile_cons_of_neg (by simpa using hx)]

/-- The length of the text (R210): a leading zero byte costs one character, and the other bytes together
cost no more characters than their value has base-58 digits. -/
theorem length_b58Raw_le (c : Configuration) {buf : List Byte} {n : Nat}
    (h : 256 ^ buf.length ≤ 58 ^ n) : (b58Raw c buf).length ≤ n := by
  have hsplit : leadingCount 0 buf + (buf.dropWhile (· == 0)).length = buf.length := by
    rw [leadingCount, ← List.length_append, List.takeWhile_append_dropWhile]
  have hval : be buf < 256 ^ (buf.dropWhile (· == 0)).length :=
    (be_dropWhile_zero buf).symm.trans_lt (be_lt _)
  generalize (buf.dropWhile (· == 0)).length = rest at hsplit hval
  have hpow : 58 ^ leadingCount 0 buf * 256 ^ rest ≤ 58 ^ n := calc
    58 ^ leadingCount 0 buf * 256 ^ rest ≤ 256 ^ leadingCount 0 buf * 256 ^ rest :=
      Nat.mul_le_mul_right _ (Nat.pow_le_pow_left (by decide) _)
    _ = 256 ^ buf.length := by rw [← pow_add, hsplit]
    _ ≤ 58 ^ n := h
  have hlead : leadingCount 0 buf ≤ n := (Nat.pow_le_pow_iff_right (by decide : 1 < 58)).1
    ((Nat.le_mul_of_pos_right _ (by positivity)).trans hpow)
  obtain ⟨k, rfl⟩ := Nat.exists_eq_add_of_le hlead
  rw [pow_add] at hpow
  have hdigits : be buf < 58 ^ k := hval.trans_le (Nat.le_of_mul_le_mul_left hpow (by positivity))
  rw [b58Raw, List.length_append, List.length_replicate, List.length_map, digits58]
  exact Nat.add_le_add_left (length_digits58Fuel_le _ hdigits) _

/-- "The encoded byte sequence has `len(payload) + 5` bytes" (R208), and 187 bytes fit 256 characters. -/
theorem length_b58CheckEncode_le (h : HashFunctions) (c : Configuration) (ver : Byte)
    {payload : List Byte} (hlen : payload.length ≤ 182) :
    (b58CheckEncode h c ver payload).length ≤ 256 := by
  have hbuf : ((ver :: payload) ++ checksum4 h (ver :: payload)).length ≤ 187 := by
    rw [checksum4, List.length_append, List.length_take, List.length_cons]
    omega
  apply length_b58Raw_le
  exact (Nat.pow_le_pow_right (by decide) hbuf).trans (by norm_num : 256 ^ 187 ≤ 58 ^ 256)

/-! ## The command B58ENC (R209) -/

section
variable (p : Parameters) (d a : BReg) (ver : Byte) {s : State}

theorem execWith_b58enc_of_le
    (h : (b58CheckEncode p.toHashFunctions s.config ver (s.buf a)).length ≤ p.lmax) :
    execWith p (.b58enc d a ver) s
      = finish (s.setBuf p.lmax d (b58CheckEncode p.toHashFunctions s.config ver (s.buf a))) :=
  if_neg (not_lt.2 h)

theorem execWith_b58enc_of_gt
    (h : p.lmax < (b58CheckEncode p.toHashFunctions s.config ver (s.buf a)).length) :
    execWith p (.b58enc d a ver) s = raise .lengthOverflow s :=
  if_pos h

/-- A text that fits `LMAX` is written into `b[d]`, and nothing else is. -/
theorem b58enc_fits_result (hm : s.mem.wf = true)
    (h : (b58CheckEncode p.toHashFunctions s.config ver (s.buf a)).length ≤ p.lmax) :
    ∃ t, execWith p (.b58enc d a ver) s = .next t
      ∧ Holds p.lmax d (b58CheckEncode p.toHashFunctions s.config ver (s.buf a)) t
      ∧ OnlyB p.lmax d s t ∧ Succeeded t := by
  rw [execWith_b58enc_of_le p d a ver h]
  exact finish_setBuf_result hm p.lmax d p.lmax_le h

/-- A text longer than `LMAX` is refused, and nothing is written. -/
theorem b58enc_overflow_result
    (h : p.lmax < (b58CheckEncode p.toHashFunctions s.config ver (s.buf a)).length) :
    ∃ t, execWith p (.b58enc d a ver) s = .next t ∧ Unchanged s t ∧ FailedWith .lengthOverflow t := by
  rw [execWith_b58enc_of_gt p d a ver h]
  exact raise_result (by decide) s

end

/-- Settles O35: the same argument for every `SHA256` and `LMAX`, this hardware's being one choice. -/
theorem base58EncodeResult : Obligations.Base58EncodeResult := by
  unfold Obligations.Base58EncodeResult
  intro d a ver s
  refine ⟨rfl, fun hm hfit => ?_, fun hlong => ?_, fun p =>
    ⟨b58enc_fits_result p d a ver, b58enc_overflow_result p d a ver⟩⟩
  · rw [← execWith_hardware]
    exact b58enc_fits_result hardware d a ver hm hfit
  · rw [← execWith_hardware]
    exact b58enc_overflow_result hardware d a ver hlong

/-- Settles O39, by the bound on the length of the text: 256^187 is at most 58^256. -/
theorem shortPayloadsFit : Obligations.ShortPayloadsFit := by
  unfold Obligations.ShortPayloadsFit
  intro d a ver s hlen
  have hfit : (b58CheckEncode hashes s.config ver (s.buf a)).length ≤ Config.lmax :=
    length_b58CheckEncode_le hashes s.config ver ((s.length_buf a).trans_le hlen)
  rw [← execWith_hardware, execWith_b58enc_of_le hardware d a ver hfit]
  exact ⟨_, rfl, succeeded_completeWith _⟩

end Sys2Proof.Machine
end

section
/-! SUPPORT. Base-58 text and bytes as positional numerals (spec/44_base58check_encoder.md R207,
spec/45_base58check_decoder.md R221, R222): `MinBE` and `Digits58` are Mathlib's `Nat.digits` read from the
most significant digit. So a numeral without a leading zero digit is the numeral of its value, in either
base, and the zero digits before it are counted on both sides. -/

namespace Sys2Proof.Machine

/-! ## Leading elements -/

theorem leadingCount_replicate_append {x : Byte} {r : List Byte} (hr : r.head? ≠ some x) (k : Nat) :
    leadingCount x (List.replicate k x ++ r) = k := by
  induction k with
  | zero =>
    cases r with
    | nil => rfl
    | cons y r => simpa [leadingCount] using hr
  | succ k ih => simpa [leadingCount, List.replicate_succ] using ih

/-- Every sequence is some number of leading `x` and a rest that does not begin with `x`. -/
theorem exists_replicate_append {α : Type} [DecidableEq α] (x : α) (s : List α) :
    ∃ k r, s = List.replicate k x ++ r ∧ r.head? ≠ some x := by
  induction s with
  | nil => exact ⟨0, [], rfl, by simp⟩
  | cons y s ih =>
    by_cases hy : y = x
    · obtain ⟨k, r, rfl, hr⟩ := ih
      exact ⟨k + 1, r, by rw [hy, List.replicate_succ, List.cons_append], hr⟩
    · exact ⟨0, y :: s, rfl, by simpa using hy⟩

theorem head?_map_ne_iff {α β : Type} {f : α → β} (hf : f.Injective) {s : List α} {x : α} :
    (s.map f).head? ≠ some (f x) ↔ s.head? ≠ some x := by
  rw [List.head?_map, ← Option.map_some, (Option.map_injective hf).ne_iff]

/-! ## Numerals of any base, most significant digit first -/

theorem head?_reverse_digits_ne_zero (b v : Nat) : (Nat.digits b v).reverse.head? ≠ some 0 := by
  by_cases hv : v = 0
  · simp [hv]
  · rw [List.head?_reverse, List.getLast?_eq_getLast_of_ne_nil (Nat.digits_ne_nil_iff_ne_zero.2 hv)]
    exact fun h => Nat.getLast_digit_ne_zero b hv (Option.some.inj h)

theorem reverse_digits_ofDigits_reverse {b : Nat} (hb : 1 < b) {ds : List Nat}
    (hlt : ∀ d ∈ ds, d < b) (hlead : ds.head? ≠ some 0) :
    (Nat.digits b (Nat.ofDigits b ds.reverse)).reverse = ds := by
  rw [Nat.digits_ofDigits b hb ds.reverse (fun d hd => hlt d (List.mem_reverse.1 hd)) fun hne h0 => ?_,
    List.reverse_reverse]
  rw [← List.getLast?_reverse] at hlead
  exact hlead (h0 ▸ List.getLast?_eq_getLast_of_ne_nil hne)

/-! ## Bytes: `BE` and `MinBE` (R13) -/

theorem be_replicate_zero_append (k : Nat) (s : List Byte) : be (List.replicate k 0 ++ s) = be s := by
  induction k with
  | zero => rfl
  | succ k ih => exact ih

theorem be_eq_ofDigits (s : List Byte) : be s = Nat.ofDigits 256 (s.map BitVec.toNat).reverse := by
  induction s using List.reverseRecOn with
  | nil => rfl
  | append_singleton s x ih =>
    rw [be_concat, ih, List.map_append, List.reverse_append]
    exact Nat.add_comm _ _

theorem map_toNat_minBeFuel {fuel v : Nat} (hv : v ≤ fuel) :
    (minBeFuel fuel v).map BitVec.toNat = (Nat.digits 256 v).reverse := by
  induction fuel generalizing v with
  | zero => simp [minBeFuel, Nat.le_zero.1 hv]
  | succ fuel ih =>
    by_cases h0 : v = 0
    · simp [minBeFuel, h0]
    · rw [minBeFuel, if_neg h0, List.map_append, ih (by omega),
        Nat.digits_def' (by decide) (Nat.pos_of_ne_zero h0), List.reverse_cons]
      rfl

theorem map_toNat_minBe (v : Nat) : (minBe v).map BitVec.toNat = (Nat.digits 256 v).reverse :=
  map_toNat_minBeFuel le_rfl

theorem toNat_injective : (BitVec.toNat : Byte → Nat).Injective := fun _ _ => BitVec.eq_of_toNat_eq

/-- `MinBE` is the shortest: it begins with no zero byte. -/
theorem head?_minBe_ne_zero (v : Nat) : (minBe v).head? ≠ some 0 := by
  rw [← head?_map_ne_iff toNat_injective, map_toNat_minBe]
  exact head?_reverse_digits_ne_zero 256 v

theorem minBe_be {s : List Byte} (hs : s.head? ≠ some 0) : minBe (be s) = s := by
  apply List.map_injective_iff.2 toNat_injective
  rw [map_toNat_minBe, be_eq_ofDigits]
  refine reverse_digits_ofDigits_reverse (by decide) (fun d hd => ?_)
    ((head?_map_ne_iff toNat_injective).2 hs)
  obtain ⟨x, -, rfl⟩ := List.mem_map.1 hd
  exact x.isLt

/-! ## The alphabet (R221, R33) -/

theorem alphabetChar_injective (c : Configuration) : (alphabetChar c).Injective := fun i j h =>
  Fin.ext ((c.distinct.getElem_inj_iff (hi := by simp) (hj := by simp)).1 h)

theorem digitOf_alphabetChar (c : Configuration) (dg : Fin 58) :
    digitOf c (alphabetChar c dg) = some dg := by
  cases h : digitOf c (alphabetChar c dg) with
  | none => exact absurd (beq_self_eq_true _) (List.find?_eq_none.1 h dg (List.mem_finRange dg))
  | some e => exact congrArg some (alphabetChar_injective c (by simpa using List.find?_some h))

theorem inAlphabet_eq_true_iff (c : Configuration) (s : List Byte) :
    inAlphabet c s = true ↔ ∀ x ∈ s, ∃ dg, alphabetChar c dg = x := by
  simp [inAlphabet, digitOf]

/-- A string over the alphabet is spelled by digits. -/
theorem exists_digits_of_inAlphabet {c : Configuration} {s : List Byte}
    (hs : ∀ x ∈ s, ∃ dg, alphabetChar c dg = x) :
    ∃ ds : List (Fin 58), ds.map (alphabetChar c) = s := by
  have hmem : s ∈ Set.range (List.map (alphabetChar c)) := by
    rw [Set.range_list_map]
    exact hs
  exact hmem

/-! ## Digits: `Digits58` and the value of a string (R207, R222) -/

theorem b58Value_map_alphabetChar (c : Configuration) (ds : List (Fin 58)) :
    b58Value c (ds.map (alphabetChar c)) = Nat.ofDigits 58 (ds.map Fin.val).reverse := by
  induction ds using List.reverseRecOn with
  | nil => rfl
  | append_singleton ds dg ih =>
    rw [b58Value] at ih
    rw [b58Value, List.map_append, List.foldl_append, ih, List.map_append, List.reverse_append]
    simp [digitOf_alphabetChar, Nat.ofDigits_cons, Nat.mul_comm, Nat.add_comm]

theorem map_val_digits58Fuel {fuel v : Nat} (hv : v ≤ fuel) :
    (digits58Fuel fuel v).map Fin.val = (Nat.digits 58 v).reverse := by
  induction fuel generalizing v with
  | zero => simp [digits58Fuel, Nat.le_zero.1 hv]
  | succ fuel ih =>
    by_cases h0 : v = 0
    · simp [digits58Fuel, h0]
    · rw [digits58Fuel, if_neg h0, List.map_append, ih (by omega),
        Nat.digits_def' (by decide) (Nat.pos_of_ne_zero h0), List.reverse_cons]
      rfl

theorem map_val_digits58 (v : Nat) : (digits58 v).map Fin.val = (Nat.digits 58 v).reverse :=
  map_val_digits58Fuel le_rfl

theorem head?_digits58_ne_zero (v : Nat) : (digits58 v).head? ≠ some 0 := by
  rw [← head?_map_ne_iff Fin.val_injective, map_val_digits58]
  exact head?_reverse_digits_ne_zero 58 v

theorem b58Value_digits58 (c : Configuration) (v : Nat) :
    b58Value c ((digits58 v).map (alphabetChar c)) = v := by
  rw [b58Value_map_alphabetChar, map_val_digits58, List.reverse_reverse, Nat.ofDigits_digits]

theorem digits58_b58Value (c : Configuration) {ds : List (Fin 58)} (hds : ds.head? ≠ some 0) :
    digits58 (b58Value c (ds.map (alphabetChar c))) = ds := by
  apply List.map_injective_iff.2 Fin.val_injective
  rw [map_val_digits58, b58Value_map_alphabetChar]
  refine reverse_digits_ofDigits_reverse (by decide) (fun d hd => ?_)
    ((head?_map_ne_iff Fin.val_injective).2 hds)
  obtain ⟨dg, -, rfl⟩ := List.mem_map.1 hd
  exact dg.isLt

end Sys2Proof.Machine
end

section
/-! THEOREMS. The Base-58-check decoder (spec/45_base58check_decoder.md): the raw codings are inverse, the
tests of `B58CheckDecode` in their order, and the result of B58DEC (R222 to R229). -/

namespace Sys2Proof.Machine

/-! ## The raw codings on a split sequence (R207, R222) -/

section
variable (c : Configuration)

/-- Leading zero bytes become leading characters `ALPHABET[0]`, and the rest is coded by its value. -/
theorem b58Raw_replicate_append {r : List Byte} (hr : r.head? ≠ some 0) (k : Nat) :
    b58Raw c (List.replicate k 0 ++ r)
      = (List.replicate k 0 ++ digits58 (be r)).map (alphabetChar c) := by
  rw [b58Raw, leadingCount_replicate_append hr, be_replicate_zero_append, List.map_append,
    List.map_replicate]

/-- Leading characters `ALPHABET[0]` become leading zero bytes, and the rest is decoded by its value. -/
theorem b58RawDecode_replicate_append {ds : List (Fin 58)} (hds : ds.head? ≠ some 0) (k : Nat) :
    b58RawDecode c ((List.replicate k 0 ++ ds).map (alphabetChar c))
      = List.replicate k 0 ++ minBe (b58Value c (ds.map (alphabetChar c))) := by
  have hlead : (ds.map (alphabetChar c)).head? ≠ some (alphabetChar c 0) :=
    (head?_map_ne_iff (alphabetChar_injective c)).2 hds
  rw [List.map_append, List.map_replicate, b58RawDecode, leadingCount_replicate_append hlead,
    List.drop_left' List.length_replicate]

theorem b58RawDecode_b58Raw (bytes : List Byte) : b58RawDecode c (b58Raw c bytes) = bytes := by
  obtain ⟨k, r, rfl, hr⟩ := exists_replicate_append 0 bytes
  rw [b58Raw_replicate_append c hr, b58RawDecode_replicate_append c (head?_digits58_ne_zero _),
    b58Value_digits58, minBe_be hr]

theorem b58Raw_b58RawDecode (ds : List (Fin 58)) :
    b58Raw c (b58RawDecode c (ds.map (alphabetChar c))) = ds.map (alphabetChar c) := by
  obtain ⟨k, es, rfl, hes⟩ := exists_replicate_append 0 ds
  rw [b58RawDecode_replicate_append c hes, b58Raw_replicate_append c (head?_minBe_ne_zero _),
    be_minBe, digits58_b58Value c hes]

theorem inAlphabet_b58Raw (bytes : List Byte) : inAlphabet c (b58Raw c bytes) = true := by
  obtain ⟨k, r, rfl, hr⟩ := exists_replicate_append 0 bytes
  rw [b58Raw_replicate_append c hr, inAlphabet_eq_true_iff]
  intro x hx
  obtain ⟨dg, -, hdg⟩ := List.mem_map.1 hx
  exact ⟨dg, hdg⟩

end

/-- Settles O34: each side splits at its leading zeros, and the rests are numerals of one value. -/
theorem rawDecodingInvertsRawEncoding : Obligations.RawDecodingInvertsRawEncoding := by
  unfold Obligations.RawDecodingInvertsRawEncoding
  refine fun c => ⟨b58RawDecode_b58Raw c, fun str hstr => ?_⟩
  obtain ⟨ds, rfl⟩ := exists_digits_of_inAlphabet hstr
  exact b58Raw_b58RawDecode c ds

/-! ## The tests of `B58CheckDecode` in their order (R223) -/

section
variable {h : HashFunctions} {c : Configuration} {expected : Byte} {s : List Byte}

theorem b58CheckDecode_of_illegal (hs : inAlphabet c s = false ∨ (b58RawDecode c s).length < 5) :
    b58CheckDecode h c expected s = .error .decodeError := by
  unfold b58CheckDecode
  rcases hs with hs | hs
  · exact if_pos hs
  · exact ite_eq_left_iff.2 fun _ => if_pos hs

/-- The version byte is tested after the checksum. -/
theorem b58CheckDecode_of_legal {dec : List Byte} (hs : inAlphabet c s = true)
    (hdec : b58RawDecode c s = dec) (hlen : 5 ≤ dec.length) :
    b58CheckDecode h c expected s
      = if checksum4 h (dec.take (dec.length - 4)) ≠ dec.drop (dec.length - 4) then
          .error .checksumMismatch
        else if dec.head? ≠ some expected then .error .versionMismatch
        else .ok ((dec.take (dec.length - 4)).drop 1) := by
  subst hdec
  unfold b58CheckDecode
  rw [if_neg (by simp [hs])]
  exact if_neg (not_lt.2 hlen)

/-- Decoding drops the version byte and the 4 checksum bytes of the decoded form. -/
theorem length_b58RawDecode_of_ok {payload : List Byte}
    (hd : b58CheckDecode h c expected s = .ok payload) :
    (b58RawDecode c s).length = payload.length + 5 := by
  by_cases hill : inAlphabet c s = false ∨ (b58RawDecode c s).length < 5
  · rw [b58CheckDecode_of_illegal hill] at hd
    nomatch hd
  · obtain ⟨hs, hlen⟩ := not_or.1 hill
    rw [b58CheckDecode_of_legal (Bool.not_eq_false _ ▸ hs) rfl (not_lt.1 hlen)] at hd
    split_ifs at hd
    injection hd with hd
    rw [← hd, List.length_drop, List.length_take]
    omega

end

/-- Settles O40: a digit is less than a byte, and the payload leaves 5 bytes of the decoded form out. -/
theorem decodingNeverLengthens : Obligations.DecodingNeverLengthens := by
  unfold Obligations.DecodingNeverLengthens
  refine ⟨length_b58RawDecode_le, fun h ver a s payload hd => ?_⟩
  have hdec : payload.length + 5 ≤ (s.buf a).length :=
    length_b58RawDecode_of_ok hd ▸ length_b58RawDecode_le s.config (s.buf a)
  have hbuf : (s.buf a).length ≤ Config.lmax := (s.length_buf a).trans_le (s.bufLen_le a)
  omega

/-! ## The command B58DEC (R225) -/

section
variable {p : Parameters} (d : BReg) {a : BReg} {ver : Byte} {s : State}

/-- A string that does not decode ends the command with the decoder's code, and nothing is written. -/
theorem b58dec_error_result {e : ErrCode} (he : e ≠ .ok)
    (h : b58CheckDecode p.toHashFunctions s.config ver (s.buf a) = .error e) :
    ∃ t, execWith p (.b58dec d a ver) s = .next t ∧ Unchanged s t ∧ FailedWith e t := by
  rw [execWith, execB58decWith, h]
  exact raise_result he s

/-- A decoded payload is written into `b[d]`, and nothing else is: it is shorter than its string. -/
theorem b58dec_ok_result {payload : List Byte} (hm : s.mem.wf = true) (hlen : s.bufLen a ≤ p.lmax)
    (h : b58CheckDecode p.toHashFunctions s.config ver (s.buf a) = .ok payload) :
    ∃ t, execWith p (.b58dec d a ver) s = .next t
      ∧ Holds p.lmax d payload t ∧ OnlyB p.lmax d s t ∧ Succeeded t := by
  have hfit : payload.length ≤ p.lmax :=
    (length_b58CheckDecode_le h).trans ((s.length_buf a).trans_le hlen)
  rw [execWith, execB58decWith, h]
  exact finish_setBuf_result hm p.lmax d p.lmax_le hfit

end

/-- Settles O36: each clause is one outcome of the tests, which ends the command. -/
theorem base58DecodeResult : Obligations.Base58DecodeResult := by
  unfold Obligations.Base58DecodeResult
  intro d a ver s str legal dec body sumOk
  have hlegal : inAlphabet s.config str = true ↔ legal := inAlphabet_eq_true_iff s.config str
  have htests (hl : legal) (hlen : 5 ≤ dec.length) :
      b58CheckDecode hashes s.config ver str
        = if checksum4 hashes body ≠ dec.drop (dec.length - 4) then .error .checksumMismatch
          else if dec.head? ≠ some ver then .error .versionMismatch
          else .ok (body.drop 1) :=
    b58CheckDecode_of_legal (hlegal.2 hl) rfl hlen
  simp only [← execWith_hardware]
  refine ⟨rfl, fun hill => ?_, fun hl hlen hsum => ?_, fun hl hlen hsum hver => ?_,
    fun hm hl hlen hsum hver => ?_⟩
  · have hill' : inAlphabet s.config str = false ∨ dec.length < 5 :=
      hill.imp_left fun hl => Bool.eq_false_iff.2 (mt hlegal.1 hl)
    exact b58dec_error_result d (by decide) (b58CheckDecode_of_illegal hill')
  · exact b58dec_error_result d (by decide) ((htests hl hlen).trans (if_pos hsum))
  · exact b58dec_error_result d (by decide)
      ((htests hl hlen).trans ((if_neg (not_not.2 hsum)).trans (if_pos hver)))
  · exact b58dec_ok_result (p := hardware) d hm (s.bufLen_le a)
      ((htests hl hlen).trans ((if_neg (not_not.2 hsum)).trans (if_neg (not_not.2 hver))))

/-! ## The round trip (R228) -/

@[simp] theorem length_checksum4 (h : HashFunctions) (buf : List Byte) : (checksum4 h buf).length = 4 := by
  rw [checksum4, List.length_take, h.sha256_length]
  rfl

/-- An encoded string passes every test but perhaps that of the version byte. -/
theorem b58CheckDecode_b58CheckEncode (h : HashFunctions) (c : Configuration) (ver expected : Byte)
    (payload : List Byte) :
    b58CheckDecode h c expected (b58CheckEncode h c ver payload)
      = if ver ≠ expected then .error .versionMismatch else .ok payload := by
  rw [b58CheckEncode, b58CheckDecode_of_legal (inAlphabet_b58Raw c _) (b58RawDecode_b58Raw c _) (by simp)]
  simp

section
variable {p : Parameters} {d a : BReg} {ver : Byte} {s t : State}

/-- What a successful B58ENC leaves for a decoder (R209). -/
theorem encoded_of_b58enc (hm : s.mem.wf = true) (ht : execWith p (.b58enc d a ver) s = .next t)
    (herr : t.status.errcode = 0) :
    t.buf d = b58CheckEncode p.toHashFunctions s.config ver (s.buf a) ∧ t.bufLen d ≤ p.lmax
      ∧ t.config = s.config ∧ t.mem.wf = true := by
  rcases le_or_gt (b58CheckEncode p.toHashFunctions s.config ver (s.buf a)).length p.lmax with hfit | hlong
  · rw [execWith_b58enc_of_le p d a ver hfit] at ht
    obtain rfl := Host.Outcome.next.inj ht
    obtain ⟨hbuf, hlen, -⟩ := holds_setBuf hm p.lmax d p.lmax_le hfit
    exact ⟨hbuf, hlen.trans_le hfit, rfl, State.setBuf_wf hm p.lmax_le d _⟩
  · rw [execWith_b58enc_of_gt p d a ver hlong] at ht
    obtain rfl := Host.Outcome.next.inj ht
    exact absurd herr (errcode_completeWith_ne_zero (by decide) s)

theorem b58dec_after_b58enc (e : BReg) (hm : s.mem.wf = true)
    (ht : execWith p (.b58enc d a ver) s = .next t) (herr : t.status.errcode = 0) :
    (∃ u, execWith p (.b58dec e d ver) t = .next u ∧ u.buf e = s.buf a ∧ Succeeded u)
      ∧ ∀ ver', ver' ≠ ver → ∃ u, execWith p (.b58dec e d ver') t = .next u
        ∧ Unchanged t u ∧ FailedWith .versionMismatch u := by
  obtain ⟨hbuf, hlen, hconfig, hmt⟩ := encoded_of_b58enc hm ht herr
  have htests (expected : Byte) :
      b58CheckDecode p.toHashFunctions t.config expected (t.buf d)
        = if ver ≠ expected then .error .versionMismatch else .ok (s.buf a) := by
    rw [hbuf, hconfig, b58CheckDecode_b58CheckEncode]
  refine ⟨?_, fun ver' hne => ?_⟩
  · obtain ⟨u, hu, ⟨hpayload, -⟩, -, hdone⟩ :=
      b58dec_ok_result e hmt hlen ((htests ver).trans (if_neg (not_not.2 rfl)))
    exact ⟨u, hu, hpayload, hdone⟩
  · exact b58dec_error_result e (by decide) ((htests ver').trans (if_pos hne.symm))

end

/-- Settles O37: the same argument for every `SHA256` and `LMAX`, this hardware's being one choice. -/
theorem encodedPayloadDecodes : Obligations.EncodedPayloadDecodes := by
  unfold Obligations.EncodedPayloadDecodes
  refine ⟨fun d a e ver s t hm ht herr => ?_, fun p d a e ver s t => b58dec_after_b58enc e⟩
  simp only [← execWith_hardware] at ht ⊢
  exact b58dec_after_b58enc e hm ht herr

/-! ## A flipped bit (R229) -/

theorem set_flipped_ne {s : List Byte} {pos bit : Nat} (hpos : pos < s.length) (hbit : bit < 8) :
    s.set pos (s.getD pos 0 ^^^ ((1 : Byte) <<< bit)) ≠ s := by
  intro hset
  have hbyte : s[pos] ^^^ ((1 : Byte) <<< bit) = s[pos] := by
    have := List.getElem_of_eq hset.symm hpos
    simpa [hpos] using this.symm
  have hflip := congrArg (BitVec.getLsbD · bit) hbyte
  simp [hbit] at hflip

/-- Settles O38: if the checksum of the changed bytes still agrees, then a flip in the last 4 bytes would
have changed nothing. -/
theorem flippedBitFailsTheChecksum : Obligations.FlippedBitFailsTheChecksum := by
  unfold Obligations.FlippedBitFailsTheChecksum
  intro h c ver expected payload pos bit good bad hpos hbit
  have hlen : bad.length = good.length := List.length_set
  have hgood : 5 ≤ good.length := by simp [good]
  have hold : checksum4 h (good.take (good.length - 4)) = good.drop (good.length - 4) := by simp [good]
  have htests := b58CheckDecode_of_legal (h := h) (expected := expected) (inAlphabet_b58Raw c bad)
    (b58RawDecode_b58Raw c bad) (hgood.trans_eq hlen.symm)
  rw [hlen] at htests
  by_cases hsum : checksum4 h (bad.take (good.length - 4)) = bad.drop (good.length - 4)
  · have hbody : pos < good.length - 4 := by
      by_contra hlast
      have htake : bad.take (good.length - 4) = good.take (good.length - 4) :=
        List.take_set_of_le (not_lt.1 hlast)
      have hsame : bad = good := calc
        bad = bad.take (good.length - 4) ++ bad.drop (good.length - 4) :=
          (List.take_append_drop _ _).symm
        _ = good.take (good.length - 4) ++ good.drop (good.length - 4) := by
          rw [← hsum, htake, hold]
        _ = good := List.take_append_drop _ _
      exact set_flipped_ne hpos hbit hsame
    have hdrop : bad.drop (good.length - 4) = good.drop (good.length - 4) :=
      List.drop_set_of_lt hbody
    exact .inr ⟨hbody, hsum.trans (hdrop.trans hold.symm)⟩
  · exact .inl (htests.trans (if_pos hsum))

end Sys2Proof.Machine
end

section
/-! THEOREMS. The system command CLR (spec/46_system_and_host_access.md R241). -/

namespace Sys2Proof.Machine

theorem nVal_eq_zero_of_n {s : State} (h : s.n = Vector.replicate 8 0) (i : NReg) : s.nVal i = 0 := by
  simp [State.nVal, h]

theorem read_eq_zero_of_mem {s : State} (h : s.mem = []) (a : Nat) : s.mem.read a = 0 := by
  rw [h]
  rfl

section
variable (s : State)

theorem exec_clr : exec .clr s = finish s.clearWorking := rfl

/-- Clearing makes the working state that a reset under the same configuration makes (R40, R241). -/
theorem sameWorking_clearWorking : SameWorking (State.resetWith s.config) s.clearWorking :=
  ⟨rfl, rfl, rfl, rfl, rfl, rfl, rfl⟩

theorem sameOutside_clearWorking : SameOutside s s.clearWorking := ⟨rfl, rfl, rfl, rfl⟩

end

/-- Settles O41: the cleared registers are those of a reset state, and what each of them reads as follows
from that; completion changes `STATUS` and `PHASE` alone. -/
theorem clearResult : Obligations.ClearResult := by
  unfold Obligations.ClearResult
  intro s
  have hworking : SameWorking (State.resetWith s.config) (completeWith .ok s.clearWorking) :=
    sameWorking_clearWorking s
  have houtside : SameOutside s (completeWith .ok s.clearWorking) := sameOutside_clearWorking s
  have ⟨hn, hq, hblen, hmem, hhmsg, hsiter, hconfig⟩ := hworking
  have hbyte : ∀ a, (completeWith .ok s.clearWorking).mem.read a = 0 := read_eq_zero_of_mem hmem
  exact ⟨by decide, completeWith .ok s.clearWorking, exec_clr s, nVal_eq_zero_of_n hn,
    point_eq_infinity_of_q hq, fun k => ⟨bufLen_eq_zero_of_blen hblen k, fun i => hbyte (dataAddr k i)⟩,
    hbyte, hhmsg, hsiter, hconfig, hworking, houtside, succeeded_completeWith _⟩

end Sys2Proof.Machine
end

section
/-! THEOREMS. The host sequences (spec/47_host_sequences.md): the last steps of the derivation (R262, R264),
the empty secret (R266), and the address of a wallet (R269, R270, R274), with what the host's loads, reads and
commands do (spec/46_system_and_host_access.md R249, R250). -/

namespace Sys2Proof.Machine

/-! ## Host steps that succeed -/

/-- Begun in `s`, the sequence `m` succeeds with the answer `a` and leaves `t`. -/
def Yields {α : Type} (m : HostM α) (s : State) (a : α) (t : State) : Prop := m.run.run s = (.ok a, t)

section
variable {α β : Type} {s t u : State}

theorem Yields.pure (a : α) (s : State) : Yields (pure a) s a s := rfl

theorem Yields.bind {m : HostM α} {f : α → HostM β} {a : α} {b : β} (hm : Yields m s a t)
    (hf : Yields (f a) t b u) : Yields (m >>= f) s b u := by
  unfold Yields at hm ⊢
  rw [ExceptT.run_bind, StateT.run_bind, hm]
  exact hf

/-- A sequence has one outcome. -/
theorem Yields.unique {m : HostM α} {a b : α} (ht : Yields m s a t) (hu : Yields m s b u) :
    a = b ∧ t = u := by
  obtain ⟨ha, htu⟩ := Prod.mk.inj (ht.symm.trans hu)
  exact ⟨Except.ok.inj ha, htu⟩

/-- A sequence that begins with `m` sees nothing of the state but what `m` makes of it. -/
theorem run_bind_congr {m : HostM α} (f : α → HostM β) (h : m.run.run s = m.run.run u) :
    (m >>= f).run.run s = (m >>= f).run.run u := by
  simp [h]

/-- Steps that leave the state as it is answer one after another. -/
theorem Yields.mapM {f : α → HostM β} {g : α → β} {xs : List α}
    (hf : ∀ x ∈ xs, Yields (f x) s (g x) s) : Yields (xs.mapM f) s (xs.map g) s := by
  induction xs with
  | nil => exact .pure [] s
  | cons x xs ih =>
    rw [List.mapM_cons]
    exact (hf x List.mem_cons_self).bind
      ((ih fun y hy => hf y (List.mem_cons_of_mem x hy)).bind (.pure _ s))

/-- A loop over the first `n` numbers keeps a property that each round carries on by one. -/
theorem exists_yields_forM_range {f : Nat → HostM Unit} {Inv : Nat → State → Prop} (n : Nat)
    (hstep : ∀ k < n, ∀ u, Inv k u → ∃ v, Yields (f k) u () v ∧ Inv (k + 1) v) (h0 : Inv 0 s) :
    ∃ t, Yields ((List.range n).forM f) s () t ∧ Inv n t := by
  induction n with
  | zero => exact ⟨s, .pure () s, h0⟩
  | succ n ih =>
    obtain ⟨u, hu, hinv⟩ := ih fun k hk => hstep k (hk.trans n.lt_succ_self)
    obtain ⟨v, hv, hinv'⟩ := hstep n n.lt_succ_self u hinv
    have hsplit : (List.range (n + 1)).forM f = (List.range n).forM f >>= fun _ => f n := by
      simp [List.range_succ]
    exact ⟨v, hsplit ▸ hu.bind hv, hinv'⟩

end

/-! ## Accesses of the port (R61, R68) -/

/-- Between two commands of a sequence: the block is idle, its stored bytes are canonical, and its
configuration is `c`. -/
structure Ready (c : Configuration) (s : State) : Prop where
  idle : s.phase = .idle
  wf : s.mem.wf = true
  config : s.config = c

section
variable {p : Parameters} {s t : State}

theorem CommandEffect.mem_wf {i : Instr} (hu : CommandEffect p i s t) (hm : s.mem.wf = true) :
    t.mem.wf = true := by
  cases hu with
  | bytes hb d bs hlen => exact State.setBuf_wf hm p.lmax_le d bs
  | cleared hi => rfl
  | nothing | number | doubled | added | multiplied | message | exhausted | sampled => exact hm

theorem CommandEffect.config_eq {i : Instr} (hu : CommandEffect p i s t) : t.config = s.config := by
  cases hu <;> rfl

/-- Whatever the block is doing, its own step makes it ready for the host. -/
theorem exists_blockStepWith_ready (p : Parameters) (hm : s.mem.wf = true) :
    ∃ u, blockStepWith p s = .next u ∧ Ready s.config u := by
  cases hp : s.phase with
  | idle => exact ⟨s, blockStepBy_of_idle hp, hp, hm, rfl⟩
  | busy w =>
    rw [blockStepWith, blockStepBy_of_busy hp]
    cases hw : decode w with
    | error e =>
      rw [runWordBy, hw]
      exact ⟨_, rfl, rfl, hm, rfl⟩
    | ok i =>
      obtain ⟨t, ht⟩ := exists_next_execWith (p := p) (s := s) i
      obtain ⟨u, e, hu, rfl⟩ := execWith_next ht
      exact ⟨_, (runWordBy_of_decode hw s).trans ht, rfl, hu.mem_wf hm, hu.config_eq⟩

theorem awaitIdle_yields (ht : blockStepWith p s = .next t) : Yields (awaitIdle p) s () t := by
  have hset : Yields (set t : HostM Unit) s () t := rfl
  refine Yields.bind (a := s) (t := s) rfl ?_
  rw [ht]
  exact hset

/-- Waiting on a busy block and on the idle one that it becomes end alike. -/
theorem run_awaitIdle_of_blockStepWith (hs : blockStepWith p s = .next t) (ht : t.phase = .idle) :
    (awaitIdle p).run.run s = (awaitIdle p).run.run t :=
  (awaitIdle_yields hs).trans (awaitIdle_yields (blockStepBy_of_idle ht)).symm

theorem portWrite_yields (hs : s.phase = .idle) {a : Nat} {v : Word}
    (hw : hostWrite p (BitVec.ofNat 16 a) v s = (t, .ok)) : Yields (portWrite p a v) s () t := by
  refine (awaitIdle_yields (blockStepBy_of_idle hs)).bind ?_
  refine Yields.bind (a := s) (t := s) rfl (Yields.bind (a := ()) (t := t) ?_ ?_)
  · rw [hw]
    rfl
  · rw [hw]
    exact .pure () t

theorem portRead_yields (p : Parameters) (hs : s.phase = .idle) (r : HostReg) {a : Nat}
    (ha : a = regAddr r) : Yields (portRead p a) s (regValue r s) s := by
  refine (awaitIdle_yields (blockStepBy_of_idle hs)).bind (Yields.bind (a := s) (t := s) rfl ?_)
  rw [hostRead_regAddr r s ha]
  exact .pure _ s

/-- A sequence that begins with a load lets the running command complete, and then does what it does on the
idle block. -/
theorem run_writeB_of_blockStepWith (hs : blockStepWith p s = .next t) (ht : t.phase = .idle) (k : BReg)
    (bs : List Byte) : (writeB p k bs).run.run s = (writeB p k bs).run.run t :=
  run_bind_congr _ (run_bind_congr _ (run_awaitIdle_of_blockStepWith hs ht))

theorem readAccountVersion_yields (p : Parameters) (hs : s.phase = .idle) :
    Yields (readAccountVersion p) s s.config.accountVersion s := by
  have hbyte : wordByte (regValue .versions s) 1 = s.config.accountVersion :=
    wordByte_packWord ![s.config.seedVersion, s.config.accountVersion, 0, 0] 1
  rw [← hbyte]
  exact (portRead_yields p hs .versions rfl).bind (.pure _ s)

/-! ## Commands (R250) -/

/-- A command that succeeds on the accepted state ends its host step without an error. -/
theorem issue_yields {i : Instr} (hi : i.wellFormed = true) (hs : s.phase = .idle)
    (ht : execWith p i (acceptCommand (encode i) s) = .next t) (hdone : Succeeded t) :
    Yields (issue p i) s () t := by
  obtain ⟨hidle, hstatus⟩ := hdone
  have hstep : blockStepWith p (acceptCommand (encode i) s) = .next t :=
    (blockStepBy_of_busy rfl).trans ((runWordBy_of_decode (decode_encode hi) _).trans ht)
  have hread : Yields (portRead p (regAddr .status)) (acceptCommand (encode i) s) 0x00000002 t := by
    rw [← hstatus]
    exact (run_bind_congr _ (run_awaitIdle_of_blockStepWith hstep hidle)).trans
      (portRead_yields p hidle .status rfl)
  exact (portWrite_yields (a := regAddr .cmd) hs rfl).bind (hread.bind (.pure () t))

end

/-! ## Loading a buffer (R249) -/

section
variable {p : Parameters} {c : Configuration} {k : BReg} {bs : List Byte} {s : State}

/-- The length and the first `words` data words of `bs` are loaded into buffer `k`. -/
structure LoadedUpTo (c : Configuration) (k : BReg) (bs : List Byte) (words : Nat) (s : State) : Prop where
  ready : Ready c s
  bufLen : s.bufLen k = bs.length
  bufData : ∀ i < 4 * words, s.bufData k i = bs.getD i 0

theorem wordByte_loadWord (bs : List Byte) (t : Nat) (j : Fin 4) :
    wordByte (loadWord bs t) j = bs.getD (4 * t + j.val) 0 :=
  wordByte_packWord (fun j => bs.getD (4 * t + j.val) 0) j

theorem loadedUpTo_setBufLen (hs : Ready c s) (hlen : bs.length ≤ Config.bufBytes) :
    LoadedUpTo c k bs 0 (s.setBufLen k bs.length) where
  ready := ⟨hs.idle, hs.wf, hs.config⟩
  bufLen := by rw [State.bufLen_setBufLen_self, Nat.min_eq_left hlen]
  bufData i hi := absurd hi (Nat.not_lt_zero i)

theorem LoadedUpTo.storeWord {t : Fin 64} (h : LoadedUpTo c k bs t.val s) :
    LoadedUpTo c k bs (t.val + 1) (s.setBufData k (4 * t.val) (wordBytes (loadWord bs t.val))) where
  ready := by
    refine ⟨h.ready.idle, State.setBufData_wf h.ready.wf k _ _ ?_, h.ready.config⟩
    rw [length_wordBytes, Config.bufBytes]
    omega
  bufLen := h.bufLen
  bufData i hi := by
    by_cases hold : i < 4 * t.val
    · rw [← h.bufData i hold]
      exact read_storeWord_outside h.ready.wf k t _ (by simp only [dataAddr]; omega)
    · obtain ⟨j, rfl⟩ := Nat.exists_eq_add_of_le (not_lt.1 hold)
      have hj : j < 4 := by omega
      exact (bufData_storeWord_self h.ready.wf k t _ ⟨j, hj⟩).trans (wordByte_loadWord bs t.val ⟨j, hj⟩)

theorem LoadedUpTo.buf_eq {n : Nat} (h : LoadedUpTo c k bs n s) (hn : bs.length ≤ 4 * n) :
    s.buf k = bs := by
  refine List.ext_getElem ((s.length_buf k).trans h.bufLen) fun i _ hi => ?_
  have hbyte : s.bufData k i = bs.getD i 0 := h.bufData i (hi.trans_le hn)
  simpa [State.buf, hi] using hbyte

/-- `WRITE bK, bytes` loads a sequence that fits `LMAX`. -/
theorem exists_writeB_yields (k : BReg) (hs : Ready c s) (hlen : bs.length ≤ p.lmax) :
    ∃ t, Yields (writeB p k bs) s () t ∧ Ready c t ∧ t.buf k = bs := by
  have hcap : bs.length ≤ 256 := hlen.trans p.lmax_le
  have hword : (BitVec.ofNat 32 bs.length).toNat = bs.length :=
    Nat.mod_eq_of_lt (by omega)
  have hfirst : Yields (portWrite p (regAddr (.bufLen k)) (BitVec.ofNat 32 bs.length)) s ()
      (s.setBufLen k bs.length) := by
    have hwrite := hostWrite_bufLen p (BitVec.ofNat 32 bs.length) s k rfl (hword.trans_le hlen)
    rw [hword] at hwrite
    exact portWrite_yields hs.idle hwrite
  obtain ⟨t, ht, hloaded⟩ := exists_yields_forM_range (Inv := LoadedUpTo c k bs)
    (f := fun t => portWrite p (regAddr (.bufLen k) + 4 + 4 * t) (loadWord bs t)) ((bs.length + 3) / 4)
    (fun n hn u hu => ⟨_, portWrite_yields hu.ready.idle
      (hostWrite_bufData p _ u k ⟨n, by omega⟩ rfl), hu.storeWord (t := ⟨n, by omega⟩)⟩)
    (loadedUpTo_setBufLen hs hcap)
  exact ⟨t, hfirst.bind ht, hloaded.ready, hloaded.buf_eq (by omega)⟩

/-! ## Reading a buffer (R249) -/

/-- Data word `t` of buffer `k` (R66). -/
def bufWord (s : State) (k : BReg) (t : Nat) : Word :=
  packWord (s.bufData k (4 * t)) (s.bufData k (4 * t + 1)) (s.bufData k (4 * t + 2)) (s.bufData k (4 * t + 3))

theorem regValue_bufData (k : BReg) (t : Fin 64) (s : State) :
    regValue (.bufData k t) s = bufWord s k t.val := rfl

theorem wordBytes_bufWord (s : State) (k : BReg) (t : Nat) : wordBytes (bufWord s k t)
    = [s.bufData k (4 * t), s.bufData k (4 * t + 1), s.bufData k (4 * t + 2), s.bufData k (4 * t + 3)] := by
  have hbyte := wordByte_packWord fun j => s.bufData k (4 * t + j.val)
  exact List.ext_getElem rfl fun i hi _ => by
    change i < 4 at hi
    interval_cases i <;> exact hbyte _

/-- The bytes of the first `n` data words are the first `4 * n` bytes of `DATA`. -/
theorem flatMap_wordBytes_bufWord (s : State) (k : BReg) (n : Nat) :
    ((List.range n).map (bufWord s k)).flatMap wordBytes = (List.range (4 * n)).map (s.bufData k) := by
  induction n with
  | zero => rfl
  | succ n ih =>
    rw [List.range_succ, List.map_append, List.flatMap_append, ih]
    simp [Nat.mul_succ, List.range_succ, wordBytes_bufWord]

/-- `READ bK` of an idle block. -/
theorem readB_yields (p : Parameters) (k : BReg) (hs : s.phase = .idle) :
    Yields (readB p k) s (s.buf k) s := by
  have hcap : s.bufLen k ≤ 256 := s.bufLen_le k
  have hlen : (regValue (.bufLen k) s).toNat = s.bufLen k := Nat.mod_eq_of_lt (by omega)
  have hword (t : Nat) (ht : t ∈ List.range ((s.bufLen k + 3) / 4)) :
      Yields (portRead p (regAddr (.bufLen k) + 4 + 4 * t)) s (bufWord s k t) s := by
    have ht64 : t < 64 := by rw [List.mem_range] at ht; omega
    rw [← regValue_bufData k ⟨t, ht64⟩]
    exact portRead_yields p hs (.bufData k ⟨t, ht64⟩) rfl
  have htake : ((List.range (4 * ((s.bufLen k + 3) / 4))).map (s.bufData k)).take (s.bufLen k)
      = s.buf k := by
    rw [← List.map_take, List.take_range, Nat.min_eq_left (by omega), State.buf]
  rw [← htake, ← flatMap_wordBytes_bufWord]
  refine (portRead_yields p hs (.bufLen k) rfl).bind ?_
  rw [hlen]
  exact (Yields.mapM hword).bind (.pure _ s)

end

/-! ## A zero private key (R264) -/

theorem buf_eq_of_blen_of_mem {s t : State} (hblen : t.blen = s.blen) (hmem : t.mem = s.mem) (k : BReg) :
    t.buf k = s.buf k := by
  have hlen : t.bufLen k = s.bufLen k := by rw [State.bufLen, State.bufLen, hblen]
  have hdata : t.bufData k = s.bufData k := funext fun i => by rw [State.bufData, State.bufData, hmem]
  rw [State.buf, State.buf, hlen, hdata]

/-- `0·G` is `INF` (R143). -/
theorem scalarBaseMul_zero : scalarBaseMul 0 = .infinity :=
  doubleAndAddIsTheScalarMultiple 0 (by decide)

/-- Settles O58: COMPRESS finds `D·G` in `q1`, which is `INF` when `D` is 0, so it can only succeed with a
nonzero `D`. -/
theorem zeroKeyNeverPasses : Obligations.ZeroKeyNeverPasses := by
  unfold Obligations.ZeroKeyNeverPasses
  intro s hm
  have hN : 0 < Config.N := by decide
  obtain ⟨t, ht, hD, ⟨-, -, hblen, hmem, -⟩, -⟩ :=
    withModulus_residue_result (ms := .orderN) (m := 0) (s := s) 3 (s.nVal 1 + s.nVal 0) hN.ne'
  have hlt : t.nVal 3 < Config.N := hD.trans_lt (Nat.mod_lt _ hN)
  obtain ⟨u, hu, hpoint, ⟨hn, -, hblen', hmem', -⟩, -⟩ :=
    finish_setPoint_result 1 (scalarBaseMul (t.nVal 3)) t
  rw [← exec_smulg_of_lt t 1 hlt] at hu
  have hkey : u.nVal 3 = t.nVal 3 := by rw [State.nVal, State.nVal, hn]
  cases hq : u.point 1 with
  | infinity =>
    have hbuf : u.buf 2 = s.buf 2 := buf_eq_of_blen_of_mem (hblen'.trans hblen) (hmem'.trans hmem) 2
    exact ⟨t, u, completeWith .pointAtInfinity u, ht, hu, exec_compress_of_infinity 2 hq, hD, hlt, hpoint,
      fun _ => ⟨failedWith_completeWith (by decide) u, hbuf⟩,
      fun herr => absurd herr (errcode_completeWith_ne_zero (by decide) u)⟩
  | affine x y =>
    have hm' : u.mem.wf = true := by rwa [hmem', hmem]
    have hmul : scalarBaseMul (t.nVal 3) = .affine x y := hpoint ▸ hq
    have hne : t.nVal 3 ≠ 0 := fun h0 => by simp [h0, scalarBaseMul_zero] at hmul
    obtain ⟨v, hv, ⟨hbytes, -⟩, ⟨hn', -⟩, -⟩ := finish_setBuf_result hm' Config.lmax 2 (by decide)
      ((length_compressPoint x y).trans_le (by decide))
    have hkey' : v.nVal 3 = t.nVal 3 := by rw [← hkey, State.nVal, State.nVal, hn']
    refine ⟨t, u, v, ht, hu, (exec_compress_of_affine 2 hq).trans hv, hD, hlt, hpoint,
      fun h0 => absurd h0 hne, fun _ => ?_⟩
    rw [hkey']
    exact ⟨Nat.pos_of_ne_zero hne, rfl, x, y, hmul, hbytes⟩

/-! ## The Wallet facade (R266, R269, R270) -/

/-- Settles O59: the empty string is tested before the first access of the port. -/
theorem emptySecretIsRefused : Obligations.EmptySecretIsRefused := by
  unfold Obligations.EmptySecretIsRefused
  intro p s
  rw [fromSecret, if_pos rfl]
  rfl


section
variable {p : Parameters} {c : Configuration} {s : State}

/-- The 25 bytes of an encoded digest fit 35 characters, and those fit `LMAX`. -/
theorem length_b58CheckEncode_digest_le (p : Parameters) (c : Configuration) (ver : Byte)
    {digest : List Byte} (hlen : digest.length = 20) :
    (b58CheckEncode p.toHashFunctions c ver digest).length ≤ p.lmax := by
  have hbuf : ((ver :: digest) ++ checksum4 p.toHashFunctions (ver :: digest)).length = 25 := by
    simp [hlen]
  have hfit : (b58CheckEncode p.toHashFunctions c ver digest).length ≤ 35 :=
    length_b58Raw_le c (by rw [hbuf]; norm_num)
  exact (hfit.trans (by decide)).trans p.lmax_ge

/-- B58ENC as a host step, of bytes whose text fits `LMAX`. -/
theorem exists_issue_b58enc_yields (d a : BReg) (ver : Byte) (hs : Ready c s)
    (hfit : (b58CheckEncode p.toHashFunctions c ver (s.buf a)).length ≤ p.lmax) :
    ∃ t, Yields (issue p (.b58enc d a ver)) s () t ∧ Ready c t
      ∧ t.buf d = b58CheckEncode p.toHashFunctions c ver (s.buf a) := by
  obtain ⟨hidle, hm, rfl⟩ := hs
  have hexec := execWith_b58enc_of_le p d a ver (s := acceptCommand (encode (.b58enc d a ver)) s) hfit
  exact ⟨_, issue_yields rfl hidle hexec (succeeded_completeWith _),
    ⟨rfl, State.setBuf_wf hm p.lmax_le d _, rfl⟩, State.buf_setBuf_self hm p.lmax_le d hfit⟩

/-- B58DEC as a host step, of a string that decodes. -/
theorem exists_issue_b58dec_yields (d : BReg) {a : BReg} {ver : Byte} {payload : List Byte} (hs : Ready c s)
    (hlen : s.bufLen a ≤ p.lmax)
    (hdec : b58CheckDecode p.toHashFunctions c ver (s.buf a) = .ok payload) :
    ∃ t, Yields (issue p (.b58dec d a ver)) s () t := by
  obtain ⟨hidle, hm, rfl⟩ := hs
  obtain ⟨t, ht, -, -, hdone⟩ :=
    b58dec_ok_result (s := acceptCommand (encode (.b58dec d a ver)) s) d hm hlen hdec
  exact ⟨t, issue_yields rfl hidle ht hdone⟩

/-- `GetAddress` answers the Base-58-check text of the digest (R269), which always fits a buffer. -/
theorem exists_getAddress_yields (ripemd160 : List Byte → Vector Byte 20) (w : Wallet) (hs : Ready c s) :
    ∃ t, Yields (getAddress p ripemd160 w) s (b58CheckEncode p.toHashFunctions c w.accountVersion
      (ripemd160 (p.sha256 w.compressed)).toList) t ∧ Ready c t := by
  have hdigest : (ripemd160 (p.sha256 w.compressed)).toList.length = 20 := Vector.length_toList
  obtain ⟨t, ht, hready, hbuf⟩ := exists_writeB_yields 3 hs
    (hdigest.trans_le ((by decide : 20 ≤ 64).trans p.lmax_ge))
  obtain ⟨u, hu, hready', htext⟩ := exists_issue_b58enc_yields 3 3 w.accountVersion hready
    (length_b58CheckEncode_digest_le p c w.accountVersion (hbuf ▸ hdigest))
  have hread := readB_yields p 3 hready'.idle
  rw [htext, hbuf] at hread
  exact ⟨u, ht.bind (hu.bind hread), hready'⟩

/-- `IsValidAddress` is true of a string that fits a buffer and decodes (R230, R270). -/
theorem isValidAddress_of_decodes {address payload : List Byte} (hs : Ready c s)
    (hlen : address.length ≤ p.lmax)
    (hdec : b58CheckDecode p.toHashFunctions c c.accountVersion address = .ok payload) :
    isValidAddress p address s = true := by
  obtain ⟨t, ht, hready, hbuf⟩ := exists_writeB_yields 1 hs hlen
  have hversion := readAccountVersion_yields p hready.idle
  rw [hready.config] at hversion
  obtain ⟨u, hu⟩ := exists_issue_b58dec_yields 0 (a := 1) hready
    (by rwa [← State.length_buf, hbuf]) (by rwa [hbuf])
  have hrun : Yields (decodeAddress p address) s () u := ht.bind (hversion.bind hu)
  rw [isValidAddress, succeeds, hrun]
  rfl

end

/-- Settles O60: `GetAddress` begins with a write, so a running command completes first; the text it answers
decodes under the version byte that the block reports. -/
theorem walletAddressIsValid : Obligations.WalletAddressIsValid := by
  unfold Obligations.WalletAddressIsValid
  intro p ripemd160 w s t address hm hver hrun
  obtain ⟨u, hu, hready⟩ := exists_blockStepWith_ready p hm
  have hsame : (getAddress p ripemd160 w).run.run s = (getAddress p ripemd160 w).run.run u :=
    run_bind_congr _ (run_writeB_of_blockStepWith hu hready.idle _ _)
  obtain ⟨v, hv, hready'⟩ := exists_getAddress_yields (p := p) ripemd160 w hready
  obtain ⟨rfl, rfl⟩ := hv.unique (hsame.symm.trans hrun)
  have htext := length_b58CheckEncode_digest_le p s.config w.accountVersion
    (digest := (ripemd160 (p.sha256 w.compressed)).toList) Vector.length_toList
  exact isValidAddress_of_decodes hready' htext
    ((b58CheckDecode_b58CheckEncode ..).trans (if_neg (not_not.2 hver)))

end Sys2Proof.Machine
end

section
/-! THEOREMS. How a command ends (spec/60_exceptions.md R314, R317, R318), and the progress and the reset of
the block (spec/70_reset_and_hazards.md R350, R351, R352, R360). -/

namespace Sys2Proof.Machine

/-! ## The endings of a command (R314, R318) -/

/-- `Ending i s t`: the command `i`, begun in `s`, has ended in `t` with success or with a code that R314
gives it. An error leaves the registers of `s`; exhaustion of a sampler also empties `HMSG` and sets `SITER`
(R195, R318). -/
inductive Ending (i : Instr) (s : State) : State → Prop
  | success (u : State) : Ending i s (completeWith .ok u)
  | failure {e : ErrCode} (he : e ∈ raisable i) (hne : e ≠ .derivationExhausted) :
      Ending i s (completeWith e s)
  | exhaustion (he : .derivationExhausted ∈ raisable i) :
      Ending i s (completeWith .derivationExhausted ((s.setHmsg []).setSiter 0xFFFFFFFF))

section
variable {p : Parameters} {i : Instr} {s t u : State}

theorem Ending.of_finish (h : finish u = .next t) : Ending i s t := by
  injection h with h
  exact h ▸ .success u

theorem Ending.of_raise {e : ErrCode} (he : e ∈ raisable i) (hne : e ≠ .derivationExhausted)
    (h : raise e s = .next t) : Ending i s t := by
  injection h with h
  exact h ▸ .failure he hne

theorem Ending.of_withModulus {ms : ModSelect} {m : NReg} {body : Nat → Result}
    (he : .modulusZero ∈ raisable i) (hbody : ∀ md, body md = .next t → Ending i s t)
    (h : withModulus ms m s body = .next t) : Ending i s t := by
  rcases withModulus_next h with ⟨-, rfl⟩ | ⟨-, h⟩
  · exact .failure he (by decide)
  · exact hbody _ h

theorem Ending.of_withU32 {r : NReg} {body : Nat → Result}
    (he : .operandRange ∈ raisable i) (hbody : ∀ v, body v = .next t → Ending i s t)
    (h : withU32 r s body = .next t) : Ending i s t := by
  rcases withU32_next h with ⟨-, rfl⟩ | ⟨-, h⟩
  · exact .failure he (by decide)
  · exact hbody _ h

theorem Ending.of_sampleCommand {h : HashFunctions} {d : NReg} {a : BReg} {disc : Option Nat}
    (he : .derivationExhausted ∈ raisable i) (ht : sampleCommand h d a disc s = .next t) :
    Ending i s t := by
  rcases deliverSample_next ht with ⟨-, rfl⟩ | ⟨c, k, -, rfl⟩
  · exact .exhaustion he
  · exact .success _

/-- `B58CheckDecode` fails with the code of one of its three tests (R223). -/
theorem b58CheckDecode_error_cases {h : HashFunctions} {c : Configuration} {expected : Byte}
    {str : List Byte} {e : ErrCode} (hd : b58CheckDecode h c expected str = .error e) :
    e = .decodeError ∨ e = .checksumMismatch ∨ e = .versionMismatch := by
  by_cases hill : inAlphabet c str = false ∨ (b58RawDecode c str).length < 5
  · rw [b58CheckDecode_of_illegal hill] at hd
    exact .inl (Except.error.inj hd).symm
  · obtain ⟨hs, hlen⟩ := not_or.1 hill
    rw [b58CheckDecode_of_legal (Bool.not_eq_false _ ▸ hs) rfl (not_lt.1 hlen)] at hd
    split_ifs at hd
    · exact .inr (.inl (Except.error.inj hd).symm)
    · exact .inr (.inr (Except.error.inj hd).symm)

/-- Every command ends in one of these ways. -/
theorem execWith_ending (h : execWith p i s = .next t) : Ending i s t := by
  cases i with
  | modadd | modmul | modred => exact .of_withModulus (by simp [raisable]) (fun _ => .of_finish) h
  | modinv d a ms m =>
    rw [execWith, execModinv] at h
    refine .of_withModulus (by simp [raisable]) (fun md hmd => ?_) h
    split at hmd
    · exact .of_raise (by simp [raisable]) (by decide) hmd
    · exact .of_finish hmd
  | smulg d a =>
    rw [execWith, execSmulg] at h
    split at h
    · exact .of_raise (by simp [raisable]) (by decide) h
    · exact .of_finish h
  | compress d a =>
    rw [execWith, execCompressWith] at h
    split at h
    · exact .of_raise (by simp [raisable]) (by decide) h
    · exact .of_finish h
  | hadd32 a => exact .of_withU32 (by simp [raisable]) (fun _ => .of_finish) h
  | sample d a => exact .of_sampleCommand (by simp [raisable]) h
  | sampled d a b =>
    exact .of_withU32 (by simp [raisable]) (fun _ => .of_sampleCommand (by simp [raisable])) h
  | b58enc d a ver =>
    rw [execWith, execB58encWith] at h
    split at h
    · exact .of_raise (by simp [raisable]) (by decide) h
    · exact .of_finish h
  | b58dec d a ver =>
    rw [execWith, execB58decWith] at h
    split at h
    · rename_i hd
      rcases b58CheckDecode_error_cases hd with rfl | rfl | rfl <;>
        exact .of_raise (by simp [raisable]) (by decide) h
    · exact .of_finish h
  | pdbl | padd | hreset | hadd | hfin | clr => exact .of_finish h

end

theorem exec_ending {i : Instr} {s t : State} (h : exec i s = .next t) : Ending i s t :=
  execWith_ending ((execWith_hardware i s).trans h)

/-- Only the samplers can be exhausted (R314). -/
theorem sampler_of_derivationExhausted {i : Instr} (he : .derivationExhausted ∈ raisable i) :
    (∃ d a, i = .sample d a) ∨ ∃ d a b, i = .sampled d a b := by
  cases i with
  | sample d a => exact .inl ⟨d, a, rfl⟩
  | sampled d a b => exact .inr ⟨d, a, b, rfl⟩
  | _ => exact absurd he (by simp [raisable])

/-- 0x0B is the code of `DerivationExhausted` and of no other ending (R311). -/
theorem errcode_completeWith_ne_exhausted {e : ErrCode} (hne : e ≠ .derivationExhausted) (s : State) :
    (completeWith e s).status.errcode ≠ 0x0B := by
  show errByte e ≠ 0x0B
  cases e with
  | derivationExhausted => exact absurd rfl hne
  | _ => decide

/-- Settles O44: the code of each ending is 0 or one of the table's. -/
theorem commandsRaiseOnlyTheirCodes : Obligations.CommandsRaiseOnlyTheirCodes := by
  unfold Obligations.CommandsRaiseOnlyTheirCodes
  intro i s t h
  cases exec_ending h with
  | success u => exact .inl rfl
  | failure he hne => exact .inr ⟨_, he, rfl⟩
  | exhaustion he => exact .inr ⟨_, he, rfl⟩

/-- Settles O43: an ending with a code is the completion of the state before the command, with `HMSG` and
`SITER` changed only where a sampler is exhausted. -/
theorem failedCommandsWriteNoDestination : Obligations.FailedCommandsWriteNoDestination := by
  unfold Obligations.FailedCommandsWriteNoDestination
  intro i s t h herr
  obtain ⟨hconfig, houtside, -⟩ := commandsWriteOnlyTheirRegisters i s t h
  cases exec_ending h with
  | success u => exact absurd rfl herr
  | failure he hne =>
    exact ⟨bne_iff_ne.2 herr, rfl, rfl, rfl, rfl, rfl, rfl, rfl, hconfig, houtside,
      (if_neg (errcode_completeWith_ne_exhausted hne s)).mpr ⟨rfl, rfl⟩⟩
  | exhaustion he =>
    exact ⟨rfl, rfl, rfl, rfl, rfl, rfl, rfl, rfl, hconfig, houtside,
      (if_pos rfl).mpr ⟨rfl, rfl, sampler_of_derivationExhausted he⟩⟩

/-! ## Progress (R360) -/

section
variable {p : Parameters} {s : State}

/-- A busy block completes in its own step, legal word or not, for any model arguments (R28, R97). -/
theorem exists_blockStepWith_completes {w : Word} (hp : s.phase = .busy w) :
    ∃ u e, blockStepWith p s = .next (completeWith e u) := by
  rw [blockStepWith, blockStepBy_of_busy hp]
  cases hw : decode w with
  | error err => exact ⟨s, .illegalCommand, runWordBy_of_illegal (by simp [hw]) s⟩
  | ok i =>
    obtain ⟨t, ht⟩ := exists_next_execWith (p := p) (s := s) i
    obtain ⟨u, e, -, rfl⟩ := execWith_next ht
    exact ⟨u, e, (runWordBy_of_decode hw s).trans ht⟩

theorem exists_next_blockStepWith (p : Parameters) (s : State) :
    ∃ t, blockStepWith p s = .next t := by
  cases hp : s.phase with
  | idle => exact ⟨s, blockStepBy_of_idle hp⟩
  | busy w =>
    obtain ⟨u, e, h⟩ := exists_blockStepWith_completes (p := p) hp
    exact ⟨_, h⟩

/-- Reset and the transactions answer at once; what is left of a step is the block's own. -/
theorem exists_next_stepWith (p : Parameters) (s : State) : ∃ t, stepWith p s = .next t := by
  rw [stepWith, advanceBy]
  split
  · exact ⟨_, rfl⟩
  · exact ⟨_, rfl⟩
  · exact exists_next_blockStepWith p _
  · exact exists_next_blockStepWith p s
  · exact ⟨_, rfl⟩
  · exact exists_next_blockStepWith p s

theorem exists_stepWith_completes {w : Word} (hp : s.phase = .busy w) (hs : s.script = []) :
    ∃ t, stepWith p s = .next t ∧ t.phase = .idle ∧ t.status.done = true ∧ t.status.busy = false := by
  have hown : stepWith p s = blockStepWith p s := advanceBy_of_nil hs (.inr (by simp [hp]))
  obtain ⟨u, e, h⟩ := exists_blockStepWith_completes (p := p) hp
  exact ⟨completeWith e u, hown.trans h, rfl, rfl, rfl⟩

end

/-- Settles O42, for any model arguments first; this hardware has the arguments of R8. -/
theorem everyStepCompletes : Obligations.EveryStepCompletes := by
  unfold Obligations.EveryStepCompletes
  exact ⟨fun s => stepWith_hardware s ▸ exists_next_stepWith hardware s,
    fun s w hp hs => stepWith_hardware s ▸ exists_stepWith_completes hp hs, exists_next_stepWith,
    fun p s w => exists_stepWith_completes, execWith_hardware, stepWith_hardware, rfl, rfl⟩

/-! ## Reset (R350, R351, R352) -/

/-- A reset comes before a held transaction and before the command that runs. -/
theorem step_of_reset {s : State} {c : Configuration} {rest : List Event}
    (hs : s.script = .reset c :: rest) : step s = .next (resetBlock c { s with script := rest }) := by
  rw [step, advanceBy, hs]

theorem sameWorking_resetBlock (c : Configuration) (s : State) :
    SameWorking (State.resetWith c) (resetBlock c s) :=
  ⟨rfl, rfl, rfl, rfl, rfl, rfl, rfl⟩

theorem resetBlock_responses (c : Configuration) {s : State} (hheld : s.held = none) :
    (resetBlock c s).responses = s.responses := by
  rw [resetBlock, hheld]

/-- Settles O56: the block after reset is the block of `State.resetWith`, whatever it was doing. -/
theorem resetAbandonsEverything : Obligations.ResetAbandonsEverything := by
  unfold Obligations.ResetAbandonsEverything
  intro s c rest hs
  have hstatus : statusWord ⟨false, false, false, 0⟩ = 0 := by decide
  exact ⟨_, step_of_reset hs, sameWorking_resetBlock c _, rfl, rfl, hstatus, rfl, rfl,
    fun hheld => resetBlock_responses c (s := { s with script := rest }) hheld⟩

end Sys2Proof.Machine
end
